-- ==== Sys2Proof/Word.lean ====
section
/-! DEFINITION. The widths of the EC256 core (00_scope.md R8, R10): field elements and DMEM bytes, 32-bit registers and
addresses, and the 9-bit count fields K, M and MAT_N. Every value is unsigned (R10). -/

namespace Sys2Proof

/-- A byte: a GF(256) element, a shard byte, a matrix entry, an identity byte (20_memory.md R74). -/
abbrev Byte := BitVec 8

/-- A 32-bit register or DMEM address. -/
abbrev Word := BitVec 32

/-- The 9-bit fields K, M, MAT_N, CODER_K and CODER_M, wide enough for 256 (10_state.md R29, R30, R41). -/
abbrev Count := BitVec 9

end Sys2Proof
end

