-- ==== Sys2Proof/Config.lean ====
section
/-! DEFINITION. What is fixed for one machine, and the free values: constants without a body, so that a claim holds
whatever they are. LANES (00_scope.md R8) is observable by no rule and is not modelled (log 20); LATENCY is the schedule
of State (log 4). -/

namespace Sys2Proof

/-- ID_VALUE, the constant the ID register reads (10_state.md R24). -/
def Config.idValue : Word := 0x45430001#32

/-- An uninterpreted number behind `Config.memBytes`. -/
opaque Config.memBytesSeed : Nat

/-- The OPEN parameter MEM_BYTES at reset, some number with 1 ≤ MEM_BYTES ≤ 2^32 (00_scope.md R8, D4; log 1). State
carries it, so claims are made for every value of it. -/
def Config.memBytes : Nat := Config.memBytesSeed % 4294967296 + 1

/-- ANY, draw number n (00_scope.md R12: "a free draw under no law"; log 3). -/
opaque Config.freeByte : Nat → Byte

/-- What the DMEM byte at an address holds if nothing has written it: ANY (10_state.md R61; log 2). -/
opaque Config.powerOnByte : Nat → Byte

/-- The inverse of 0 "does not exist" (40_field.md R122); no command reaches this value (log 15). -/
opaque Config.inverseOfZero : Byte

end Sys2Proof
end

