-- ==== Sys2Proof/Machine/Gf.lean ====
section
/-! DEFINITION. GF(256) arithmetic modulo x^8+x^4+x^3+x^2+1 (00_scope.md R4; 40_field.md R120-R122). Addition is XOR
(00_scope.md R11). -/

namespace Sys2Proof.Machine

/-- One doubling of the multiply loop: shift left by one, and XOR in 0x1D if bit 7 was 1 before the shift (40_field.md
R120). -/
def gfDouble (a : Byte) : Byte :=
  if a.getLsbD 7 then (a <<< 1) ^^^ 0x1D#8 else a <<< 1

/-- The loop of `gmul` (40_field.md R120): `n` bits of `b` are left, bit 0 of `b` is the next one, `p` is the product so
far. -/
def gmulLoop : Nat → Byte → Byte → Byte → Byte
  | 0, _, _, p => p
  | n + 1, a, b, p => gmulLoop n (gfDouble a) (b >>> 1) (if b.getLsbD 0 then p ^^^ a else p)

/-- Field multiplication (40_field.md R120). -/
def gmul (a b : Byte) : Byte :=
  if a == 0#8 || b == 0#8 then 0#8 else gmulLoop 8 a b 0#8

/-- Rows 0_ to 7_ of the inverse table of 40_field.md R122; the entry at 0x00 does not exist and is never looked up. -/
def ginvTableLow : List Byte :=
  [0x00, 0x01, 0x8E, 0xF4, 0x47, 0xA7, 0x7A, 0xBA, 0xAD, 0x9D, 0xDD, 0x98, 0x3D, 0xAA, 0x5D, 0x96,
   0xD8, 0x72, 0xC0, 0x58, 0xE0, 0x3E, 0x4C, 0x66, 0x90, 0xDE, 0x55, 0x80, 0xA0, 0x83, 0x4B, 0x2A,
   0x6C, 0xED, 0x39, 0x51, 0x60, 0x56, 0x2C, 0x8A, 0x70, 0xD0, 0x1F, 0x4A, 0x26, 0x8B, 0x33, 0x6E,
   0x48, 0x89, 0x6F, 0x2E, 0xA4, 0xC3, 0x40, 0x5E, 0x50, 0x22, 0xCF, 0xA9, 0xAB, 0x0C, 0x15, 0xE1,
   0x36, 0x5F, 0xF8, 0xD5, 0x92, 0x4E, 0xA6, 0x04, 0x30, 0x88, 0x2B, 0x1E, 0x16, 0x67, 0x45, 0x93,
   0x38, 0x23, 0x68, 0x8C, 0x81, 0x1A, 0x25, 0x61, 0x13, 0xC1, 0xCB, 0x63, 0x97, 0x0E, 0x37, 0x41,
   0x24, 0x57, 0xCA, 0x5B, 0xB9, 0xC4, 0x17, 0x4D, 0x52, 0x8D, 0xEF, 0xB3, 0x20, 0xEC, 0x2F, 0x32,
   0x28, 0xD1, 0x11, 0xD9, 0xE9, 0xFB, 0xDA, 0x79, 0xDB, 0x77, 0x06, 0xBB, 0x84, 0xCD, 0xFE, 0xFC]

/-- Rows 8_ to F_ of the inverse table of 40_field.md R122. -/
def ginvTableHigh : List Byte :=
  [0x1B, 0x54, 0xA1, 0x1D, 0x7C, 0xCC, 0xE4, 0xB0, 0x49, 0x31, 0x27, 0x2D, 0x53, 0x69, 0x02, 0xF5,
   0x18, 0xDF, 0x44, 0x4F, 0x9B, 0xBC, 0x0F, 0x5C, 0x0B, 0xDC, 0xBD, 0x94, 0xAC, 0x09, 0xC7, 0xA2,
   0x1C, 0x82, 0x9F, 0xC6, 0x34, 0xC2, 0x46, 0x05, 0xCE, 0x3B, 0x0D, 0x3C, 0x9C, 0x08, 0xBE, 0xB7,
   0x87, 0xE5, 0xEE, 0x6B, 0xEB, 0xF2, 0xBF, 0xAF, 0xC5, 0x64, 0x07, 0x7B, 0x95, 0x9A, 0xAE, 0xB6,
   0x12, 0x59, 0xA5, 0x35, 0x65, 0xB8, 0xA3, 0x9E, 0xD2, 0xF7, 0x62, 0x5A, 0x85, 0x7D, 0xA8, 0x3A,
   0x29, 0x71, 0xC8, 0xF6, 0xF9, 0x43, 0xD7, 0xD6, 0x10, 0x73, 0x76, 0x78, 0x99, 0x0A, 0x19, 0x91,
   0x14, 0x3F, 0xE6, 0xF0, 0x86, 0xB1, 0xE2, 0xF1, 0xFA, 0x74, 0xF3, 0xB4, 0x6D, 0x21, 0xB2, 0x6A,
   0xE3, 0xE7, 0xB5, 0xEA, 0x03, 0x8F, 0xD3, 0xC9, 0x42, 0xD4, 0xE8, 0x75, 0x7F, 0xFF, 0x7E, 0xFD]

/-- Field inversion (40_field.md R122), by the spec's table; `ginv 0` does not exist and is left free (log 15). -/
def ginv (y : Byte) : Byte :=
  if y == 0#8 then Config.inverseOfZero
  else if y.toNat < 128 then ginvTableLow.getD y.toNat 0#8
  else ginvTableHigh.getD (y.toNat - 128) 0#8

/-- Σ of a list of bytes: their XOR, 0 for the empty list (00_scope.md R11). -/
def gfSum (bs : List Byte) : Byte := bs.foldl (fun v b => v ^^^ b) 0#8

end Sys2Proof.Machine
end

