-- ==== Sys2Proof/Machine/Matrix.lean ====
section
/-! DEFINITION. Matrices over GF(256) as lists of rows, and the procedure INVERT of 42_matinv.md R151: forward elimination
with the first-nonzero pivot rule, then back-substitution, every row operation applied to A and to I alike. -/

namespace Sys2Proof.Machine

/-- A matrix, row by row. -/
abbrev Matrix := List (List Byte)

/-- Entry (r, c) of a matrix. -/
def matrixEntry (a : Matrix) (r c : Nat) : Byte := (a.getD r []).getD c 0#8

/-- The n × n identity matrix (42_matinv.md R151). -/
def identityMatrix (n : Nat) : Matrix :=
  (List.range n).map fun r => (List.range n).map fun c => if r = c then 1#8 else 0#8

/-- Row `r` of A beside row `r` of I, the two matrices that INVERT works on. -/
abbrev WorkRow := List Byte × List Byte

/-- A and I of INVERT, row by row. -/
abbrev WorkMatrix := List WorkRow

/-- A[r][c] of a working matrix. -/
def workEntry (w : WorkMatrix) (r c : Nat) : Byte := (w.getD r ([], [])).1.getD c 0#8

/-- The row multiplied by p (42_matinv.md R151). -/
def scaleRow (p : Byte) (row : WorkRow) : WorkRow := (row.1.map (gmul p), row.2.map (gmul p))

/-- `row ⊕ gmul(f, pivot)`, entry by entry (42_matinv.md R151). -/
def addScaledRow (f : Byte) (row pivot : WorkRow) : WorkRow :=
  (List.zipWith (fun x y => x ^^^ gmul f y) row.1 pivot.1,
   List.zipWith (fun x y => x ^^^ gmul f y) row.2 pivot.2)

/-- Eliminate column c of `row` with the pivot row: nothing if f = A[r][c] is 0 (42_matinv.md R151). -/
def eliminateRow (c : Nat) (pivot row : WorkRow) : WorkRow :=
  let f := row.1.getD c 0#8
  if f == 0#8 then row else addScaledRow f row pivot

/-- The pivot row of column c: c itself if A[c][c] ≠ 0, else the least r in c+1..n-1 with A[r][c] ≠ 0, if any
(42_matinv.md R151; 90_conflicts.md C2). -/
def findPivot (n c : Nat) (w : WorkMatrix) : Option Nat :=
  if workEntry w c c != 0#8 then some c
  else (List.range n).find? fun r => decide (c < r) && workEntry w r c != 0#8

/-- Rows c and r exchanged. -/
def swapRows (c r : Nat) (w : WorkMatrix) : WorkMatrix :=
  (w.set c (w.getD r ([], []))).set r (w.getD c ([], []))

/-- The forward step of column c: choose and swap in the pivot, scale its row to a unit diagonal, eliminate the rows below;
`none` if there is no pivot, which is SINGULAR (42_matinv.md R151). -/
def forwardColumn (n c : Nat) (w : WorkMatrix) : Option WorkMatrix :=
  match findPivot n c w with
  | none => none
  | some r =>
    let swapped := if r = c then w else swapRows c r w
    let pivot := scaleRow (ginv (workEntry swapped c c)) (swapped.getD c ([], []))
    some ((swapped.set c pivot).mapIdx fun q row => if c < q then eliminateRow c pivot row else row)

/-- Forward elimination over the given columns (42_matinv.md R151). -/
def forwardEliminate (n : Nat) : List Nat → WorkMatrix → Option WorkMatrix
  | [], w => some w
  | c :: cs, w =>
    match forwardColumn n c w with
    | none => none
    | some w' => forwardEliminate n cs w'

/-- The back-substitution step of column c: eliminate rows 0..c-1 (42_matinv.md R151). -/
def backColumn (c : Nat) (w : WorkMatrix) : WorkMatrix :=
  let pivot := w.getD c ([], [])
  w.mapIdx fun q row => if q < c then eliminateRow c pivot row else row

/-- Back-substitution, c from n-1 down to 1 (42_matinv.md R151). -/
def backSubstitute (n : Nat) (w : WorkMatrix) : WorkMatrix :=
  (List.range n).tail.reverse.foldl (fun w c => backColumn c w) w

/-- INVERT(A, n) with both matrices it ends with: `none` is SINGULAR (42_matinv.md R151). -/
def invertWork (n : Nat) (a : Matrix) : Option WorkMatrix :=
  match forwardEliminate n (List.range n) (List.zip a (identityMatrix n)) with
  | none => none
  | some w => some (backSubstitute n w)

/-- INVERT(A, n): `none` is SINGULAR, `some I` is OK with I = A⁻¹ (42_matinv.md R151). -/
def invertMatrix (n : Nat) (a : Matrix) : Option Matrix :=
  match invertWork n a with
  | none => none
  | some w => some (w.map Prod.snd)

/-- Row i of the Cauchy matrix for (k, m): C[i][j] = ginv(i ⊕ (m + j)) for j in 0..k-1 (41_coder.md R142). -/
def cauchyRow (k m i : Nat) : List Byte :=
  (List.range k).map fun j => ginv (BitVec.ofNat 8 i ^^^ BitVec.ofNat 8 (m + j))

/-- The m × k Cauchy matrix (41_coder.md R142). -/
def cauchyMatrix (k m : Nat) : Matrix := (List.range m).map (cauchyRow k m)

end Sys2Proof.Machine
end

