-- ==== Sys2Proof/Syntax.lean ====
section
/-! DEFINITION. The command set EC-CMD version 1 (30_encoding.md R103): one constructor per row of the opcode table. A
command has no operand field: every operand comes from the snapshot (R104). `CommandFields` is the command word of R100,
split into its four fields. -/

namespace Sys2Proof

/-- The eleven commands of 30_encoding.md R103. -/
inductive Instr where
  /-- GFMUL, scalar field multiply (40_field.md R123). -/
  | gfmul
  /-- GFINV, scalar field inverse (40_field.md R124). -/
  | gfinv
  /-- RMUL, region multiply, overwriting (40_field.md R125). -/
  | rmul
  /-- RMULACC, region multiply, accumulating (40_field.md R126). -/
  | rmulacc
  /-- RXOR, region XOR (40_field.md R127). -/
  | rxor
  /-- CONFIG, latch a coder and write its Cauchy matrix (41_coder.md R143). -/
  | config
  /-- MATINV, invert a matrix in DMEM (42_matinv.md R150). -/
  | matinv
  /-- LINCOMB, linear combination with an identity table (43_lincomb.md R162). -/
  | lincomb
  /-- LINCOMB.ID, linear combination over the data shards (43_lincomb.md R163). -/
  | lincombId
  /-- ENCODE, fill every coding shard (44_codec.md R170). -/
  | encode
  /-- DECODE, rebuild the erased shards (44_codec.md R171). -/
  | decode
  deriving DecidableEq, Repr

/-- The four fields of a command word (30_encoding.md R100). -/
structure CommandFields where
  /-- OP, bits [7:0]: the operation code. -/
  op : BitVec 8
  /-- ACC, bit [8]: the accumulate flag. -/
  acc : Bool
  /-- IDENT, bit [9]: the identity-source flag. -/
  ident : Bool
  /-- RSV, bits [31:10]: reserved. -/
  rsv : BitVec 22
  deriving DecidableEq, Repr

end Sys2Proof
end

