-- ==== Sys2Proof/Machine/State.lean ====
section
/-! DEFINITION. The state of the EC256 core (10_state.md R20): the registers of R23, the engine phase with the snapshot
and the footprint of the running command (R50, R51, R53), the latched coder (R52), the race fault (R54) and DMEM (R56);
and the model's own fields, each marked as such. All of it is plain data. -/

namespace Sys2Proof.Machine

/-- Why a step can stop. -/
inductive Fault where
  /-- Raised by `step` in every state with host_race = 1, which "is faulted" and of which "the spec says nothing of any
  later behaviour" (10_state.md R54). Safe: nothing is claimed past a race (log 8). -/
  | hostRace
  deriving DecidableEq, Repr

/-- Why the model has no meaning for an instruction. -/
inductive Refusal where
  /-- Raised by an arm of `exec` without a meaning; no arm of this model raises it. Safe. -/
  | notModelled (mnemonic : String)
  deriving DecidableEq, Repr

/-- The error codes of STATUS.ERRCODE (60_exceptions.md R191); codes 9..15 are never reported. -/
inductive ErrCode where
  /-- Code 0, NONE: the command succeeded. -/
  | none
  /-- Code 1, BAD_CMD: not one of the eleven legal words. -/
  | badCmd
  /-- Code 2, CONFIG: k = 0 or k + m > 256. -/
  | config
  /-- Code 3, NOT_CONFIGURED: CFG_VALID = 0 at launch. -/
  | notConfigured
  /-- Code 4, PARAM: MAT_N, DEST_ID or an identity out of its range. -/
  | param
  /-- Code 5, BUS: a region outside [0, MEM_BYTES). -/
  | bus
  /-- Code 6, INV_ZERO: GFINV with OPA = 0. -/
  | invZero
  /-- Code 7, ERASURES: more than m erased shards. -/
  | erasures
  /-- Code 8, SINGULAR: the matrix to invert is singular. -/
  | singular
  deriving DecidableEq, Repr

/-- The parameter registers (10_state.md R23, R29-R43, R45); only the host writes them (R57). -/
structure Params where
  /-- K, [8:0] (R29). -/
  k : Count
  /-- M, [8:0] (R30). -/
  m : Count
  /-- WS_BASE (R31). -/
  wsBase : Word
  /-- SHARD_TBL (R33). -/
  shardTbl : Word
  /-- SIZE (R34). -/
  size : Word
  /-- SRC (R35). -/
  src : Word
  /-- DST (R36). -/
  dst : Word
  /-- SCALAR, [7:0] (R37). -/
  scalar : Byte
  /-- COEF_PTR (R38). -/
  coefPtr : Word
  /-- IDS_PTR (R39). -/
  idsPtr : Word
  /-- DEST_ID, [7:0] (R40). -/
  destId : Byte
  /-- MAT_N, [8:0] (R41). -/
  matN : Count
  /-- OPA, [7:0] (R42). -/
  opa : Byte
  /-- OPB, [7:0] (R43). -/
  opb : Byte
  /-- ERASURE0: shards 0..31 (R45). -/
  erasure0 : Word
  /-- ERASURE1: shards 32..63. -/
  erasure1 : Word
  /-- ERASURE2: shards 64..95. -/
  erasure2 : Word
  /-- ERASURE3: shards 96..127. -/
  erasure3 : Word
  /-- ERASURE4: shards 128..159. -/
  erasure4 : Word
  /-- ERASURE5: shards 160..191. -/
  erasure5 : Word
  /-- ERASURE6: shards 192..223. -/
  erasure6 : Word
  /-- ERASURE7: shards 224..255. -/
  erasure7 : Word
  deriving DecidableEq, Repr

/-- The stored fields of STATUS (10_state.md R26); BUSY is the phase and CFG_VALID the latched coder's. -/
structure Status where
  /-- DONE, [1]. -/
  done : Bool
  /-- ERR, [2]. -/
  err : Bool
  /-- OVERRUN, [3]. -/
  overrun : Bool
  /-- ERRCODE, [11:8]. -/
  errCode : ErrCode
  deriving DecidableEq, Repr

/-- The latched coder state (10_state.md R52). -/
structure Coder where
  /-- CFG_VALID. -/
  valid : Bool
  /-- CODER_K. -/
  k : Count
  /-- CODER_M. -/
  m : Count
  /-- CODER_WS. -/
  ws : Word
  deriving DecidableEq, Repr

/-- Everything a command reads its operands from (30_encoding.md R104). -/
structure Operands where
  params : Params
  coder : Coder
  deriving DecidableEq, Repr

/-- The snapshot taken at launch (10_state.md R51). -/
structure Snapshot where
  /-- The command word. -/
  word : Word
  /-- The parameter registers and the latched coder at the moment of the CMD write. -/
  operands : Operands
  deriving DecidableEq, Repr

/-- A DMEM region: the byte addresses from `base` to `base + len - 1`, in unbounded integers (20_memory.md R71). -/
structure Region where
  base : Nat
  len : Nat
  deriving DecidableEq, Repr

/-- FP.R and FP.W of a command, each as the list of its regions (20_memory.md R79, 10_state.md R53). -/
structure Footprint where
  /-- The read regions. -/
  reads : List Region
  /-- The write and scratch regions. -/
  writes : List Region
  deriving DecidableEq, Repr

/-- What the engine holds while the phase is BUSY (10_state.md R50, R51, R53). -/
structure Running where
  snap : Snapshot
  fp : Footprint
  deriving DecidableEq, Repr

/-- One operation of the host (30_encoding.md R106; 70_reset_and_hazards.md R228, R229). -/
inductive HostOp where
  /-- A 32-bit register write at a byte offset of the register window. -/
  | regWrite (offset : BitVec 12) (value : Word)
  /-- A 32-bit register read. -/
  | regRead (offset : BitVec 12)
  /-- A host write of one DMEM byte. -/
  | memWrite (addr : Word) (value : Byte)
  /-- A host read of one DMEM byte. -/
  | memRead (addr : Word)
  /-- rst_n asserted low (70_reset_and_hazards.md R220). -/
  | rstAssert
  /-- rst_n released. -/
  | rstRelease
  /-- The whole reset event, asserted and then released (70_reset_and_hazards.md R220). -/
  | reset
  deriving DecidableEq, Repr

/-- Who moves next (model's own; log 4): the host with one operation, or the engine, which completes the running command. -/
inductive Turn where
  | host (op : HostOp)
  | engine
  deriving DecidableEq, Repr

/-- DMEM as the list of its written bytes, addresses strictly rising (10_state.md R56; log 2). -/
abbrev Memory := List Host.Cell

/-- The state of the machine. -/
structure State where
  /-- The parameter registers (10_state.md R23). -/
  params : Params
  /-- CTRL.IRQ_EN (R25). -/
  irqEn : Bool
  /-- STATUS, its stored fields (R26). -/
  status : Status
  /-- RESULT (R44). -/
  result : Byte
  /-- The latched coder (R52). -/
  coder : Coder
  /-- The engine phase: `none` is IDLE, `some` is BUSY with the running command (R50, R51, R53). -/
  running : Option Running
  /-- host_race (R54). -/
  hostRace : Bool
  /-- DMEM (R56). -/
  dmem : Memory
  /-- rst_n is low (70_reset_and_hazards.md R220). -/
  rstLow : Bool
  /-- FP.W of the commands that the reset in progress aborted (70_reset_and_hazards.md R221; log 7). -/
  aborted : List Region
  /-- A command launched in this run was aborted by a reset, so it never completes (70_reset_and_hazards.md R221, R230;
  model's own field, log 22). -/
  abortedCommand : Bool
  /-- MEM_BYTES, constant (00_scope.md R8; model's own field, log 1). -/
  memBytes : Nat
  /-- The number of ANY draws made so far (model's own, log 3). -/
  freeCount : Nat
  /-- The turns to come (model's own, log 4). -/
  schedule : List Turn
  /-- What the last register read returned to the host (model's own, log 6). -/
  portData : Word
  /-- What the last host DMEM read returned (model's own, log 6). -/
  dmemData : Byte
  deriving DecidableEq, Repr

/-- Every parameter register at its reset value (10_state.md R23). -/
def Params.reset : Params where
  k := 0#9
  m := 0#9
  wsBase := 0#32
  shardTbl := 0#32
  size := 0#32
  src := 0#32
  dst := 0#32
  scalar := 0#8
  coefPtr := 0#32
  idsPtr := 0#32
  destId := 0#8
  matN := 0#9
  opa := 0#8
  opb := 0#8
  erasure0 := 0#32
  erasure1 := 0#32
  erasure2 := 0#32
  erasure3 := 0#32
  erasure4 := 0#32
  erasure5 := 0#32
  erasure6 := 0#32
  erasure7 := 0#32

/-- STATUS at reset: 0 (10_state.md R26). -/
def Status.reset : Status where
  done := false
  err := false
  overrun := false
  errCode := .none

/-- The latched coder at reset: cleared (10_state.md R52, R60). -/
def Coder.reset : Coder where
  valid := false
  k := 0#9
  m := 0#9
  ws := 0#32

/-- The machine right after a first reset (10_state.md R60, R61): every register at its reset value, the phase IDLE, DMEM
with nothing written. host_race false is DESIGN CHOICE (log 14); the model's own fields are DESIGN CHOICE (logs 1, 3, 4,
6, 22). -/
def State.reset : State where
  params := .reset
  irqEn := false
  status := .reset
  result := 0#8
  coder := .reset
  running := none
  hostRace := false
  dmem := []
  rstLow := false
  aborted := []
  abortedCommand := false
  memBytes := Config.memBytes
  freeCount := 0
  schedule := []
  portData := 0#32
  dmemData := 0#8

end Sys2Proof.Machine
end

