-- ==== Sys2Proof/Machine/Ops.lean ====
section
/-! DEFINITION. The shared operations over DMEM, footprints and the command life cycle: reading and writing bytes
(20_memory.md R70, R74), the range predicate (R71), overlap and membership of footprints (R79, R80), ANY draws
(00_scope.md R12), completion (60_exceptions.md R194), and reset (70_reset_and_hazards.md R220, R221). -/

namespace Sys2Proof.Machine

/-! ### DMEM -/

/-- The byte written at an address, if any. -/
def Memory.written? : Memory → Nat → Option Byte
  | [], _ => none
  | cell :: rest, a => if cell.1 = a then some cell.2 else Memory.written? rest a

/-- `MemRead(a, 1)` (00_scope.md R12): the byte last written, or ANY if nothing wrote it (10_state.md R61; log 2). -/
def Memory.read (mem : Memory) (a : Nat) : Byte := (mem.written? a).getD (Config.powerOnByte a)

/-- `MemWrite(a, 1, v)` (00_scope.md R12), keeping the addresses strictly rising. -/
def Memory.write : Memory → Nat → Byte → Memory
  | [], a, v => [(a, v)]
  | cell :: rest, a, v =>
    if a < cell.1 then (a, v) :: cell :: rest
    else if a = cell.1 then (a, v) :: rest
    else cell :: Memory.write rest a v

/-- Consecutive bytes written upward from an address. -/
def Memory.writeBytes : Memory → Nat → List Byte → Memory
  | mem, _, [] => mem
  | mem, a, v :: vs => Memory.writeBytes (mem.write a v) (a + 1) vs

/-- The `len` bytes from an address upward. -/
def Memory.readBytes (mem : Memory) (a len : Nat) : List Byte :=
  (List.range len).map fun n => mem.read (a + n)

/-- `MemRead32(a)`: four bytes, little-endian (20_memory.md R74). -/
def Memory.read32 (mem : Memory) (a : Nat) : Word :=
  (mem.read a).setWidth 32 ||| (mem.read (a + 1)).setWidth 32 <<< 8
    ||| (mem.read (a + 2)).setWidth 32 <<< 16 ||| (mem.read (a + 3)).setWidth 32 <<< 24

/-- The rows × ncols matrix at base B, row-major (20_memory.md R75). -/
def Memory.readMatrix (mem : Memory) (base rows ncols : Nat) : List (List Byte) :=
  (List.range rows).map fun r => mem.readBytes (base + r * ncols) ncols

/-- The canonical form of DMEM: addresses strictly rising (log 2). -/
def Memory.wf : Memory → Bool
  | [] => true
  | [_] => true
  | c :: d :: rest => decide (c.1 < d.1) && Memory.wf (d :: rest)

/-! ### Regions and footprints -/

/-- `InRange(b, len)` for a DMEM of `memBytes` bytes, in unbounded integers (20_memory.md R71). -/
def inRange (memBytes b len : Nat) : Bool := len == 0 || decide (b + len ≤ memBytes)

/-- The address lies in the region (20_memory.md R71). -/
def Region.contains (r : Region) (a : Nat) : Bool := decide (r.base ≤ a) && decide (a < r.base + r.len)

/-- The two regions share a byte. -/
def Region.meets (r q : Region) : Bool :=
  decide (0 < r.len) && decide (0 < q.len) && decide (r.base < q.base + q.len) && decide (q.base < r.base + r.len)

/-- The address lies in one of the regions. -/
def inRegions (rs : List Region) (a : Nat) : Bool := rs.any fun r => r.contains a

/-- Two of the regions share a byte. -/
def regionsOverlap : List Region → Bool
  | [] => false
  | r :: rs => rs.any r.meets || regionsOverlap rs

/-- The overlap rule of 20_memory.md R79: some byte lies in two listed regions, one of them a write or scratch region. -/
def Footprint.overlaps (fp : Footprint) : Bool :=
  regionsOverlap fp.writes || fp.writes.any fun w => fp.reads.any w.meets

/-- The footprint with no byte in it. -/
def Footprint.empty : Footprint where
  reads := []
  writes := []

/-- The outcome of the checks of a command: the first failing check's code with the regions of the control data read
before it (60_exceptions.md R193, R195), or what the command goes on to do. -/
inductive Checked (α : Type) where
  | fail (code : ErrCode) (readBefore : List Region)
  | ok (job : α)

/-- The footprint at launch: for a failing command, FP.W is empty and FP.R "is the set of control-data bytes that the
command reads before the failing check" (60_exceptions.md R195; log 11). -/
def Checked.footprint {α : Type} (f : α → Footprint) : Checked α → Footprint
  | .fail _ readBefore => { reads := readBefore, writes := [] }
  | .ok job => f job

/-! ### ANY -/

/-- `len` fresh draws, from draw number n on (00_scope.md R12; log 3). -/
def drawBytes (n len : Nat) : List Byte := (List.range len).map fun i => Config.freeByte (n + i)

/-- Every byte of the regions holds ANY: fresh draws, numbered from n on. -/
def Memory.fillAny : Memory → Nat → List Region → Memory
  | mem, _, [] => mem
  | mem, n, r :: rs => Memory.fillAny (mem.writeBytes r.base (drawBytes n r.len)) (n + r.len) rs

/-- How many draws the regions take. -/
def drawCount (rs : List Region) : Nat := (rs.map Region.len).sum

/-- Every byte of the regions of DMEM becomes ANY. -/
def State.fillAny (s : State) (rs : List Region) : State :=
  { s with dmem := s.dmem.fillAny s.freeCount rs, freeCount := s.freeCount + drawCount rs }

/-! ### The life of a command -/

/-- Where the running command reads its operands: the snapshot (10_state.md R51). With no command running, the registers as
they are now, as a launch at this moment would take them (log 5). -/
def State.operands (s : State) : Operands :=
  match s.running with
  | some r => r.snap.operands
  | none => { params := s.params, coder := s.coder }

/-- The DMEM effect of a command with the given footprint: the memory it computes, and ANY in the regions `any`; but if
its regions overlap, ANY in every byte of FP.W (20_memory.md R79). -/
def State.commit (s : State) (fp : Footprint) (mem : Memory) (any : List Region) : State :=
  if fp.overlaps then s.fillAny fp.writes else { s with dmem := mem }.fillAny any

/-- STATUS after a completion with the code (60_exceptions.md R194). -/
def Status.completed (st : Status) (code : ErrCode) : Status :=
  { st with done := true, err := code != .none, errCode := code }

/-- Completion, the one way a command ends, and so also what `fail(CODE)` does (60_exceptions.md R190, R194): STATUS takes
the code, and the phase is IDLE. -/
def State.complete (s : State) (code : ErrCode) : State :=
  { s with status := s.status.completed code, running := none }

/-- FP.W of the running command, and of the commands aborted by a reset in progress: where a host read returns ANY
(20_memory.md R80; log 7). -/
def State.pendingWrites (s : State) : List Region :=
  match s.running with
  | some r => r.fp.writes ++ s.aborted
  | none => s.aborted

/-! ### Reset -/

/-- rst_n goes low: every register and the hidden state take their reset values, a running command is aborted (log
22 records that), host_race and DMEM are kept (10_state.md R60, R61; 70_reset_and_hazards.md R220, R221). -/
def State.assertReset (s : State) : State :=
  { State.reset with
    hostRace := s.hostRace
    dmem := s.dmem
    rstLow := true
    aborted := s.pendingWrites
    abortedCommand := s.abortedCommand || s.running.isSome
    memBytes := s.memBytes
    freeCount := s.freeCount
    schedule := s.schedule
    portData := s.portData
    dmemData := s.dmemData }

/-- rst_n is released: "At the end of reset, every byte of that command's FP.W holds ANY" (70_reset_and_hazards.md R221). -/
def State.releaseReset (s : State) : State :=
  { s.fillAny s.aborted with rstLow := false, aborted := [] }

/-- The reset event: rst_n asserted low and then released (70_reset_and_hazards.md R220). -/
def State.resetEvent (s : State) : State := s.assertReset.releaseReset

end Sys2Proof.Machine
end

