-- ==== Sys2Proof/Machine/Operands.lean ====
section
/-! DEFINITION. Operand assembly (30_encoding.md R104, R105): the workspace layout (41_coder.md R140, R141), the shard
table, identity and coefficient tables, and the erasure pattern. Everything is zero-extended to an unbounded integer. -/

namespace Sys2Proof.Machine

/-- `state_size(k, m)` (41_coder.md R140). -/
def stateSize (k m : Nat) : Nat := if 256 < k + m then 0 else 2 * k ^ 2 + 2 * k + k * m

/-- k of the latched coder. -/
def Operands.ck (o : Operands) : Nat := o.coder.k.toNat

/-- m of the latched coder. -/
def Operands.cm (o : Operands) : Nat := o.coder.m.toNat

/-- The base of `tmpmat` (41_coder.md R141). -/
def Operands.tmpmatBase (o : Operands) : Nat := o.coder.ws.toNat

/-- The base of `dm_ids` (41_coder.md R141). -/
def Operands.dmIdsBase (o : Operands) : Nat := o.coder.ws.toNat + o.ck ^ 2

/-- The base of `decoding_matrix` (41_coder.md R141). -/
def Operands.decodingBase (o : Operands) : Nat := o.coder.ws.toNat + o.ck ^ 2 + o.ck

/-- The offset of `cauchy_matrix` in a workspace (41_coder.md R141). -/
def cauchyOffset (k : Nat) : Nat := 2 * k ^ 2 + 2 * k

/-- The base of `cauchy_matrix` of the latched coder (41_coder.md R141). -/
def Operands.cauchyBase (o : Operands) : Nat := o.coder.ws.toNat + cauchyOffset o.ck

/-- The Cauchy matrix as it stands in DMEM, m × k (44_codec.md, opening paragraph). -/
def Operands.cauchy (o : Operands) (mem : Memory) : Matrix := mem.readMatrix o.cauchyBase o.cm o.ck

/-- SIZE as a number. -/
def Operands.len (o : Operands) : Nat := o.params.size.toNat

/-- The shard table's region, Region(T, 4·(k+m)) (20_memory.md R76). -/
def Operands.tableRegion (o : Operands) : Region where
  base := o.params.shardTbl.toNat
  len := 4 * (o.ck + o.cm)

/-- `addr[s] = MemRead32(T + 4·s)`, the address of shard s (20_memory.md R76). -/
def Operands.shardAddr (o : Operands) (mem : Memory) (s : Nat) : Nat :=
  (mem.read32 (o.params.shardTbl.toNat + 4 * s)).toNat

/-- The region of shard s, SIZE bytes (20_memory.md R76). -/
def Operands.shardRegion (o : Operands) (mem : Memory) (s : Nat) : Region where
  base := o.shardAddr mem s
  len := o.len

/-- Shard s lies in DMEM (20_memory.md R71, R72). -/
def Operands.shardInRange (o : Operands) (memBytes : Nat) (mem : Memory) (s : Nat) : Bool :=
  inRange memBytes (o.shardAddr mem s) o.len

/-- The k coefficient bytes at COEF_PTR (30_encoding.md R105). -/
def Operands.coefs (o : Operands) (mem : Memory) : List Byte := mem.readBytes o.params.coefPtr.toNat o.ck

/-- The k identity bytes at IDS_PTR, each an unsigned shard index (30_encoding.md R105). -/
def Operands.ids (o : Operands) (mem : Memory) : List Nat :=
  (mem.readBytes o.params.idsPtr.toNat o.ck).map BitVec.toNat

/-- ERASURE w, for w in 0..7 (10_state.md R45). -/
def Params.erasureWord (p : Params) : Nat → Word
  | 0 => p.erasure0
  | 1 => p.erasure1
  | 2 => p.erasure2
  | 3 => p.erasure3
  | 4 => p.erasure4
  | 5 => p.erasure5
  | 6 => p.erasure6
  | 7 => p.erasure7
  | _ => 0#32

/-- `E[i] = reg[ERASURE(i >> 5)][i & 31]` (10_state.md R45). -/
def Params.erased (p : Params) (i : Nat) : Bool := (p.erasureWord (i / 32)).getLsbD (i % 32)

/-- The erased shards among 0..k+m-1, ascending; bits at k+m and above are ignored (44_codec.md R171; 10_state.md R45). -/
def Operands.erasedShards (o : Operands) : List Nat := (List.range (o.ck + o.cm)).filter o.params.erased

/-- The erased data shards, ascending; their number is `edd` (44_codec.md R172). -/
def Operands.erasedData (o : Operands) : List Nat := (List.range o.ck).filter o.params.erased

/-- The i of the erased coding shards k+i, ascending (44_codec.md R177). -/
def Operands.erasedCoding (o : Operands) : List Nat :=
  (List.range o.cm).filter fun i => o.params.erased (o.ck + i)

end Sys2Proof.Machine
end

