-- ==== Sys2Proof/Machine/FieldUnit.lean ====
section
/-! DEFINITION. The field unit: GFMUL, GFINV, RMUL, RMULACC and RXOR (40_field.md R123-R128). -/

namespace Sys2Proof.Machine

/-- How every command with checks ends: a failing check completes with its code (60_exceptions.md R193, R194), else the
command goes on. -/
def State.finish {α : Type} (s : State) (checked : Checked α) (run : α → State) :
    Host.Outcome State Fault Refusal :=
  match checked with
  | .fail code _ => .next (s.complete code)
  | .ok job => .next (run job)

/-- GFMUL: RESULT <- gmul(OPA, OPB), success (40_field.md R123). -/
def execGfmul (s : State) : Host.Outcome State Fault Refusal :=
  .next ({ s with result := gmul s.operands.params.opa s.operands.params.opb }.complete .none)

/-- GFINV: RESULT <- ginv(OPA), or INV_ZERO with RESULT unchanged if OPA = 0 (40_field.md R124). -/
def execGfinv (s : State) : Host.Outcome State Fault Refusal :=
  if s.operands.params.opa == 0#8 then .next (s.complete .invZero)
  else .next ({ s with result := ginv s.operands.params.opa }.complete .none)

/-- Region(SRC, SIZE). -/
def Operands.srcRegion (o : Operands) : Region where
  base := o.params.src.toNat
  len := o.len

/-- Region(DST, SIZE). -/
def Operands.dstRegion (o : Operands) : Region where
  base := o.params.dst.toNat
  len := o.len

/-- The checks of RMUL, RMULACC and RXOR: SRC, then DST (40_field.md R125-R127). They read no control data. -/
def regionCheck (memBytes : Nat) (o : Operands) : Checked Unit :=
  if !inRange memBytes o.srcRegion.base o.len then .fail .bus []
  else if !inRange memBytes o.dstRegion.base o.len then .fail .bus []
  else .ok ()

/-- The footprint of RMUL, RMULACC and RXOR: they read SRC and write DST (40_field.md R125-R127). -/
def regionFootprint (o : Operands) : Footprint where
  reads := [o.srcRegion]
  writes := [o.dstRegion]

/-- Byte n of DST becomes `f (old byte n of DST) (byte n of SRC)`, for n in 0..SIZE-1 (40_field.md R125-R128; log 18). -/
def regionRun (f : Byte → Byte → Byte) (o : Operands) (mem : Memory) : Memory :=
  mem.writeBytes o.dstRegion.base
    ((List.range o.len).map fun n => f (mem.read (o.dstRegion.base + n)) (mem.read (o.srcRegion.base + n)))

/-- A region command past its checks: exact if SRC = DST, else under the overlap rule (40_field.md R125-R127;
20_memory.md R79). -/
def State.regionCommit (s : State) (f : Byte → Byte → Byte) : State :=
  if s.operands.params.src = s.operands.params.dst then { s with dmem := regionRun f s.operands s.dmem }
  else s.commit (regionFootprint s.operands) (regionRun f s.operands s.dmem) []

/-- RMUL: each destination byte is gmul(SCALAR, source byte) (40_field.md R125). -/
def execRmul (s : State) : Host.Outcome State Fault Refusal :=
  s.finish (regionCheck s.memBytes s.operands) fun _ =>
    (s.regionCommit fun _ x => gmul s.operands.params.scalar x).complete .none

/-- RMULACC: gmul(SCALAR, source byte) is XORed into each destination byte (40_field.md R126). -/
def execRmulacc (s : State) : Host.Outcome State Fault Refusal :=
  s.finish (regionCheck s.memBytes s.operands) fun _ =>
    (s.regionCommit fun d x => d ^^^ gmul s.operands.params.scalar x).complete .none

/-- RXOR: each source byte is XORed into the destination byte (40_field.md R127). -/
def execRxor (s : State) : Host.Outcome State Fault Refusal :=
  s.finish (regionCheck s.memBytes s.operands) fun _ =>
    (s.regionCommit fun d x => d ^^^ x).complete .none

end Sys2Proof.Machine
end

