-- ==== Sys2Proof/Machine/LinComb.lean ====
section
/-! DEFINITION. The linear-combination unit: APPLY_ROW (43_lincomb.md R160, R161), LINCOMB (R162) and LINCOMB.ID (R163). -/

namespace Sys2Proof.Machine

/-- Byte n of a linear combination: the XOR of gmul(coef[i], byte n of source i) over the i with coef[i] ≠ 0
(43_lincomb.md R160). -/
def rowByte (mem : Memory) (coefs : List Byte) (srcs : List Nat) (n : Nat) : Byte :=
  (List.zip coefs srcs).foldl (fun v cs => if cs.1 != 0#8 then v ^^^ gmul cs.1 (mem.read (cs.2 + n)) else v) 0#8

/-- `coef[i] = 0 for every i` (43_lincomb.md R161). -/
def allZero (coefs : List Byte) : Bool := coefs.all fun c => c == 0#8

/-- APPLY_ROW(coef, src, dst, L); an all-zero row writes nothing (43_lincomb.md R160, R161; log 18). -/
def applyRow (mem : Memory) (coefs : List Byte) (srcs : List Nat) (dst len : Nat) : Memory :=
  if allZero coefs then mem else mem.writeBytes dst ((List.range len).map (rowByte mem coefs srcs))

/-- What LINCOMB and LINCOMB.ID have fetched once their checks pass. -/
structure RowJob where
  /-- The k coefficients. -/
  coefs : List Byte
  /-- The k source addresses. -/
  srcs : List Nat
  /-- The destination address. -/
  dst : Nat
  deriving DecidableEq, Repr

/-- d of LINCOMB, snap.DEST_ID (43_lincomb.md R162). -/
def Operands.dest (o : Operands) : Nat := o.params.destId.toNat

/-- Region(COEF_PTR, k). -/
def Operands.coefRegion (o : Operands) : Region where
  base := o.params.coefPtr.toNat
  len := o.ck

/-- Region(IDS_PTR, k). -/
def Operands.idsRegion (o : Operands) : Region where
  base := o.params.idsPtr.toNat
  len := o.ck

/-- The job over the sources with the given identities (43_lincomb.md R162). -/
def Operands.rowJob (o : Operands) (mem : Memory) (ids : List Nat) : RowJob where
  coefs := o.coefs mem
  srcs := ids.map (o.shardAddr mem)
  dst := o.shardAddr mem o.dest

/-- The checks of LINCOMB, in order (43_lincomb.md R162). The control data read before check 6 are the identities, before
checks 7 and 8 the coefficients and the shard table too (60_exceptions.md R195; log 11). -/
def lincombCheck (memBytes : Nat) (o : Operands) (mem : Memory) : Checked RowJob :=
  if !o.coder.valid then .fail .notConfigured []
  else if o.ck + o.cm ≤ o.dest then .fail .param []
  else if !inRange memBytes o.coefRegion.base o.ck then .fail .bus []
  else if !inRange memBytes o.idsRegion.base o.ck then .fail .bus []
  else if !inRange memBytes o.tableRegion.base o.tableRegion.len then .fail .bus []
  else if (o.ids mem).any fun id => decide (o.ck + o.cm ≤ id) then .fail .param [o.idsRegion]
  else if !o.shardInRange memBytes mem o.dest then .fail .bus [o.coefRegion, o.idsRegion, o.tableRegion]
  else if !(o.ids mem).all (o.shardInRange memBytes mem) then
    .fail .bus [o.coefRegion, o.idsRegion, o.tableRegion]
  else .ok (o.rowJob mem (o.ids mem))

/-- The checks of LINCOMB.ID, in order (43_lincomb.md R163). -/
def lincombIdCheck (memBytes : Nat) (o : Operands) (mem : Memory) : Checked RowJob :=
  if !o.coder.valid then .fail .notConfigured []
  else if o.ck + o.cm ≤ o.dest then .fail .param []
  else if !inRange memBytes o.coefRegion.base o.ck then .fail .bus []
  else if !inRange memBytes o.tableRegion.base o.tableRegion.len then .fail .bus []
  else if !o.shardInRange memBytes mem o.dest then .fail .bus [o.coefRegion, o.tableRegion]
  else if !(List.range o.ck).all (o.shardInRange memBytes mem) then .fail .bus [o.coefRegion, o.tableRegion]
  else .ok (o.rowJob mem (List.range o.ck))

/-- The source regions with a nonzero coefficient, and the destination unless every coefficient is 0, beside the given
tables (43_lincomb.md R162, R163). -/
def RowJob.footprint (job : RowJob) (tables : List Region) (len : Nat) : Footprint where
  reads := tables ++ ((List.zip job.coefs job.srcs).filter fun cs => cs.1 != 0#8).map
    fun cs => { base := cs.2, len := len }
  writes := if allZero job.coefs then [] else [{ base := job.dst, len := len }]

/-- The footprint of LINCOMB (43_lincomb.md R162). -/
def lincombFootprint (o : Operands) (job : RowJob) : Footprint :=
  job.footprint [o.coefRegion, o.idsRegion, o.tableRegion] o.len

/-- The footprint of LINCOMB.ID (43_lincomb.md R163). -/
def lincombIdFootprint (o : Operands) (job : RowJob) : Footprint :=
  job.footprint [o.coefRegion, o.tableRegion] o.len

/-- LINCOMB (43_lincomb.md R162). -/
def execLincomb (s : State) : Host.Outcome State Fault Refusal :=
  let o := s.operands
  s.finish (lincombCheck s.memBytes o s.dmem) fun job =>
    (s.commit (lincombFootprint o job) (applyRow s.dmem job.coefs job.srcs job.dst o.len) []).complete .none

/-- LINCOMB.ID (43_lincomb.md R163). -/
def execLincombId (s : State) : Host.Outcome State Fault Refusal :=
  let o := s.operands
  s.finish (lincombIdCheck s.memBytes o s.dmem) fun job =>
    (s.commit (lincombIdFootprint o job) (applyRow s.dmem job.coefs job.srcs job.dst o.len) []).complete .none

end Sys2Proof.Machine
end

