-- ==== Sys2Proof/Machine/Codec.lean ====
section
/-! DEFINITION. The encode/decode sequencer: ENCODE (44_codec.md R170) and DECODE (R171-R180). All control data, the shard
table and the Cauchy rows, is read from DMEM as it stands at launch (20_memory.md R85). -/

namespace Sys2Proof.Machine

/-- The shard-table and shard range checks that ENCODE and DECODE share (44_codec.md R170 checks 2-3, R171 checks 3-4). -/
def shardsCheck (memBytes : Nat) (o : Operands) (mem : Memory) : Checked Unit :=
  if !inRange memBytes o.tableRegion.base o.tableRegion.len then .fail .bus []
  else if !(List.range (o.ck + o.cm)).all (o.shardInRange memBytes mem) then .fail .bus [o.tableRegion]
  else .ok ()

/-- The addresses of the k data shards. -/
def Operands.dataAddrs (o : Operands) (mem : Memory) : List Nat := (List.range o.ck).map (o.shardAddr mem)

/-- Region(CB, k·m), the Cauchy matrix of the latched coder (41_coder.md R141). -/
def Operands.cauchyRegion (o : Operands) : Region where
  base := o.cauchyBase
  len := o.ck * o.cm

/-- Row i of the Cauchy matrix as it stands in `mem`. -/
def Operands.cauchyRowAt (o : Operands) (mem : Memory) (i : Nat) : List Byte := (o.cauchy mem).getD i []

/-- For each listed i in turn, Cauchy row i over the k data shards into coding shard i. The rows and the addresses are those
of `launch`, the DMEM at launch; the shard bytes are those of `mem` (44_codec.md R170, R177). -/
def Operands.applyCauchyRows (o : Operands) (launch mem : Memory) (rows : List Nat) : Memory :=
  rows.foldl (fun acc i => applyRow acc (o.cauchyRowAt launch i) (o.dataAddrs launch)
    (o.shardAddr launch (o.ck + i)) o.len) mem

/-! ### ENCODE -/

/-- The checks of ENCODE, in order (44_codec.md R170). -/
def encodeCheck (memBytes : Nat) (o : Operands) (mem : Memory) : Checked Unit :=
  if !o.coder.valid then .fail .notConfigured [] else shardsCheck memBytes o mem

/-- The footprint of ENCODE (44_codec.md R170). -/
def encodeFootprint (o : Operands) (mem : Memory) : Footprint where
  reads := o.tableRegion :: o.cauchyRegion :: (List.range o.ck).map (o.shardRegion mem)
  writes := ((List.range o.cm).filter fun i => !allZero (o.cauchyRowAt mem i)).map
    fun i => o.shardRegion mem (o.ck + i)

/-- ENCODE: fill every coding shard from the data shards (44_codec.md R170). -/
def execEncode (s : State) : Host.Outcome State Fault Refusal :=
  let o := s.operands
  s.finish (encodeCheck s.memBytes o s.dmem) fun _ =>
    (s.commit (encodeFootprint o s.dmem) (o.applyCauchyRows s.dmem s.dmem (List.range o.cm)) []).complete .none

/-! ### DECODE -/

/-- The checks of DECODE before the inversion, in order (44_codec.md R171). -/
def decodeCheck (memBytes : Nat) (o : Operands) (mem : Memory) : Checked Unit :=
  if !o.coder.valid then .fail .notConfigured []
  else if o.cm < o.erasedShards.length then .fail .erasures []
  else shardsCheck memBytes o mem

/-- SELECT_SURVIVORS: the first k indices with E[s] = 0, ascending (44_codec.md R173). -/
def Operands.survivors (o : Operands) : List Nat :=
  ((List.range (o.ck + o.cm)).filter fun s => !o.params.erased s).take o.ck

/-- BUILD_TMPMAT: the identity row of a surviving data shard, the Cauchy row of a surviving coding shard (44_codec.md
R174). -/
def buildTmpmat (k : Nat) (ids : List Nat) (c : Matrix) : Matrix :=
  ids.map fun id => if id < k then (List.range k).map (fun j => if j = id then 1#8 else 0#8) else c.getD (id - k) []

/-- TMAT of DECODE (44_codec.md R174). -/
def Operands.tmat (o : Operands) (mem : Memory) : Matrix := buildTmpmat o.ck o.survivors (o.cauchy mem)

/-- The `tmpmat` region (41_coder.md R141). -/
def Operands.tmpmatRegion (o : Operands) : Region where
  base := o.tmpmatBase
  len := o.ck * o.ck

/-- The `dm_ids` region (41_coder.md R141). -/
def Operands.dmIdsRegion (o : Operands) : Region where
  base := o.dmIdsBase
  len := o.ck

/-- The `decoding_matrix` region (41_coder.md R141). -/
def Operands.decodingRegion (o : Operands) : Region where
  base := o.decodingBase
  len := o.ck * o.ck

/-- The erased shards' regions, and the three scratch regions when edd > 0 (44_codec.md R179). -/
def decodeWrites (o : Operands) (mem : Memory) : List Region :=
  o.erasedShards.map (o.shardRegion mem) ++
    (if o.erasedData.isEmpty then [] else [o.tmpmatRegion, o.dmIdsRegion, o.decodingRegion])

/-- A shard that is not erased is read if it is one of the survivors used (edd > 0), or a data shard while some coding shard
is erased (44_codec.md R179). -/
def Operands.readsShard (o : Operands) (s : Nat) : Bool :=
  !o.params.erased s &&
    ((!o.erasedData.isEmpty && o.survivors.contains s) || (decide (s < o.ck) && !o.erasedCoding.isEmpty))

/-- The footprint of DECODE; the Cauchy region is read "when the command writes anything" (44_codec.md R179; log 13). -/
def decodeFootprint (o : Operands) (mem : Memory) : Footprint where
  reads := o.tableRegion ::
    ((if (decodeWrites o mem).any fun r => decide (0 < r.len) then [o.cauchyRegion] else []) ++
      ((List.range (o.ck + o.cm)).filter o.readsShard).map (o.shardRegion mem))
  writes := decodeWrites o mem

/-- Step 2a's write of `dm_ids` (44_codec.md R173). -/
def Operands.writeIds (o : Operands) (mem : Memory) : Memory :=
  mem.writeBytes o.dmIdsBase (o.survivors.map (BitVec.ofNat 8))

/-- Step 3, for each erased data shard i in turn: row i of D over the survivors into shard i (44_codec.md R176). -/
def Operands.recoverData (o : Operands) (launch : Memory) (d : Matrix) (mem : Memory) : Memory :=
  o.erasedData.foldl (fun acc i => applyRow acc (d.getD i []) (o.survivors.map (o.shardAddr launch))
    (o.shardAddr launch i) o.len) mem

/-- The workspace after step 2 with the inverse D: `dm_ids`, `tmpmat` the identity, `decoding_matrix` D (44_codec.md R173,
R175). -/
def Operands.writeScratch (o : Operands) (d : Matrix) (mem : Memory) : Memory :=
  ((o.writeIds mem).writeBytes o.tmpmatBase (identityMatrix o.ck).flatten).writeBytes o.decodingBase d.flatten

/-- DECODE: rebuild the erased shards in place (44_codec.md R171-R178). After SINGULAR, `dm_ids` is written, `tmpmat` and
`decoding_matrix` are ANY and no shard is written (R175). -/
def execDecode (s : State) : Host.Outcome State Fault Refusal :=
  let o := s.operands
  let fp := decodeFootprint o s.dmem
  s.finish (decodeCheck s.memBytes o s.dmem) fun _ =>
    if o.erasedData.isEmpty then
      (s.commit fp (o.applyCauchyRows s.dmem s.dmem o.erasedCoding) []).complete .none
    else
      match invertMatrix o.ck (o.tmat s.dmem) with
      | none => (s.commit fp (o.writeIds s.dmem) [o.tmpmatRegion, o.decodingRegion]).complete .singular
      | some d =>
        let recovered := o.recoverData s.dmem d (o.writeScratch d s.dmem)
        (s.commit fp (o.applyCauchyRows s.dmem recovered o.erasedCoding) []).complete .none

end Sys2Proof.Machine
end

