-- ==== Sys2Proof/Machine/CoderUnit.lean ====
section
/-! DEFINITION. The coder state and the Cauchy-matrix generator: CONFIG (41_coder.md R143). -/

namespace Sys2Proof.Machine

/-- The checks of CONFIG, in order: (k, m), then the workspace (41_coder.md R143). -/
def configCheck (memBytes : Nat) (o : Operands) : Checked Unit :=
  let k := o.params.k.toNat
  let m := o.params.m.toNat
  if k = 0 ∨ 256 < k + m then .fail .config []
  else if !inRange memBytes o.params.wsBase.toNat (stateSize k m) then .fail .bus []
  else .ok ()

/-- The base of the `cauchy_matrix` region that CONFIG writes, for the K and WS_BASE it takes (41_coder.md R143). -/
def configCauchyBase (o : Operands) : Nat := o.params.wsBase.toNat + cauchyOffset o.params.k.toNat

/-- CONFIG writes Region(B, k·m) and nothing else (41_coder.md R143). -/
def configFootprint (o : Operands) : Footprint where
  reads := []
  writes := [{ base := configCauchyBase o, len := o.params.k.toNat * o.params.m.toNat }]

/-- CONFIG: generate the Cauchy matrix into the workspace and latch the coder, or clear CFG_VALID and fail; a failed CONFIG
leaves CODER_K, CODER_M and CODER_WS (41_coder.md R143). -/
def execConfig (s : State) : Host.Outcome State Fault Refusal :=
  let p := s.operands.params
  match configCheck s.memBytes s.operands with
  | .fail code _ => .next ({ s with coder := { s.coder with valid := false } }.complete code)
  | .ok _ =>
    let mem := s.dmem.writeBytes (configCauchyBase s.operands) (cauchyMatrix p.k.toNat p.m.toNat).flatten
    .next ({ s.commit (configFootprint s.operands) mem [] with
      coder := { valid := true, k := p.k, m := p.m, ws := p.wsBase } }.complete .none)

end Sys2Proof.Machine
end

