-- ==== Sys2Proof/Machine/MatInv.lean ====
section
/-! DEFINITION. The Gauss-Jordan matrix-inversion engine: MATINV (42_matinv.md R150, R151). -/

namespace Sys2Proof.Machine

/-- n of MATINV, snap.MAT_N (42_matinv.md R150). -/
def Operands.matDim (o : Operands) : Nat := o.params.matN.toNat

/-- The checks 1-3 of MATINV, in order (42_matinv.md R150). They read no control data. -/
def matinvCheck (memBytes : Nat) (o : Operands) : Checked Unit :=
  let n := o.matDim
  if n = 0 ∨ 256 < n then .fail .param []
  else if !inRange memBytes o.params.src.toNat (n * n) then .fail .bus []
  else if !inRange memBytes o.params.dst.toNat (n * n) then .fail .bus []
  else .ok ()

/-- MATINV has the scratch region SRC and the write region DST (42_matinv.md R150). -/
def matinvFootprint (o : Operands) : Footprint where
  reads := []
  writes := [{ base := o.params.src.toNat, len := o.matDim * o.matDim },
             { base := o.params.dst.toNat, len := o.matDim * o.matDim }]

/-- The matrix at SRC, read before any write (42_matinv.md R150; 20_memory.md R85). -/
def matinvInput (o : Operands) (mem : Memory) : Matrix := mem.readMatrix o.params.src.toNat o.matDim o.matDim

/-- MATINV: SRC becomes the identity and DST the inverse, or SINGULAR with both regions ANY (42_matinv.md R150). -/
def execMatinv (s : State) : Host.Outcome State Fault Refusal :=
  let o := s.operands
  s.finish (matinvCheck s.memBytes o) fun _ =>
    match invertMatrix o.matDim (matinvInput o s.dmem) with
    | none => (s.fillAny (matinvFootprint o).writes).complete .singular
    | some inv =>
      let mem := (s.dmem.writeBytes o.params.src.toNat (identityMatrix o.matDim).flatten).writeBytes
        o.params.dst.toNat inv.flatten
      (s.commit (matinvFootprint o) mem []).complete .none

end Sys2Proof.Machine
end

