-- ==== Sys2Proof/Machine/Dispatch.lean ====
section
/-! DEFINITION. One arm per command: the engine runs command i to its completion in state s. -/

namespace Sys2Proof.Machine

def exec (i : Instr) (s : State) : Host.Outcome State Fault Refusal :=
  match i with
  | .gfmul => Sys2Proof.Machine.execGfmul s
  | .gfinv => Sys2Proof.Machine.execGfinv s
  | .rmul => Sys2Proof.Machine.execRmul s
  | .rmulacc => Sys2Proof.Machine.execRmulacc s
  | .rxor => Sys2Proof.Machine.execRxor s
  | .config => Sys2Proof.Machine.execConfig s
  | .matinv => Sys2Proof.Machine.execMatinv s
  | .lincomb => Sys2Proof.Machine.execLincomb s
  | .lincombId => Sys2Proof.Machine.execLincombId s
  | .encode => Sys2Proof.Machine.execEncode s
  | .decode => Sys2Proof.Machine.execDecode s

end Sys2Proof.Machine
end

