-- ==== Sys2Proof/WellFormed.lean ====
section
/-! DEFINITION. When the fields of a command word are legal (30_encoding.md R100, R101). An `Instr` has no operands, so
every `Instr` is well formed; what can be ill formed is a command word, and each of the checks below is one of the
illegal cases that R101 lists. -/

namespace Sys2Proof

/-- OP has a row in the opcode map (30_encoding.md R103). -/
def CommandFields.opAssigned (f : CommandFields) : Bool :=
  [0x01#8, 0x02#8, 0x03#8, 0x04#8, 0x10#8, 0x11#8, 0x12#8, 0x20#8, 0x21#8].contains f.op

/-- ACC is "legal only with OP = 0x03" (30_encoding.md R100). -/
def CommandFields.accLegal (f : CommandFields) : Bool := !f.acc || f.op == 0x03#8

/-- IDENT is "legal only with OP = 0x12" (30_encoding.md R100). -/
def CommandFields.identLegal (f : CommandFields) : Bool := !f.ident || f.op == 0x12#8

/-- RSV "must be 0" (30_encoding.md R100). -/
def CommandFields.rsvZero (f : CommandFields) : Bool := f.rsv == 0#22

/-- None of the three illegal cases of 30_encoding.md R101 holds. -/
def CommandFields.wellFormed (f : CommandFields) : Bool :=
  f.opAssigned && f.accLegal && f.identLegal && f.rsvZero

end Sys2Proof
end

