-- ==== Sys2Proof/Decode.lean ====
section
/-! DEFINITION. Decoding by exact match of the whole 32-bit word (30_encoding.md R101), total on every word, and the
encoder, which packs the fields of R100. -/

namespace Sys2Proof

/-- Why a command word is illegal: the three cases of 30_encoding.md R101 (the second one split by flag). -/
inductive RejectReason where
  /-- OP has no row. -/
  | reservedOp
  /-- ACC is set with an OP other than 0x03. -/
  | strayAcc
  /-- IDENT is set with an OP other than 0x12. -/
  | strayIdent
  /-- A bit of RSV is set. -/
  | reservedBits
  deriving DecidableEq, Repr

/-- The answer of the decoder. -/
inductive Decoded where
  | instr (i : Instr)
  | rejected (why : RejectReason)
  deriving DecidableEq, Repr

/-- The fields of a command word (30_encoding.md R100). -/
def splitWord (w : Word) : CommandFields where
  op := w.extractLsb' 0 8
  acc := w.getLsbD 8
  ident := w.getLsbD 9
  rsv := w.extractLsb' 10 22

/-- The command word with the given fields (30_encoding.md R100). -/
def joinFields (f : CommandFields) : Word :=
  f.rsv ++ (BitVec.ofBool f.ident ++ (BitVec.ofBool f.acc ++ f.op))

/-- The opcode map: the legal command words, in the order of 30_encoding.md R103. -/
def opcodeTable : List (Word × Instr) :=
  [(0x00000001#32, .gfmul),
   (0x00000002#32, .gfinv),
   (0x00000003#32, .rmul),
   (0x00000103#32, .rmulacc),
   (0x00000004#32, .rxor),
   (0x00000010#32, .config),
   (0x00000011#32, .matinv),
   (0x00000012#32, .lincomb),
   (0x00000212#32, .lincombId),
   (0x00000020#32, .encode),
   (0x00000021#32, .decode)]

/-- Which case of 30_encoding.md R101 makes a word that matches no row illegal. All of them end in BAD_CMD. -/
def rejectReason (f : CommandFields) : RejectReason :=
  if !f.opAssigned then .reservedOp
  else if !f.accLegal then .strayAcc
  else if !f.identLegal then .strayIdent
  else .reservedBits

/-- Decoding: an exact match on all 32 bits (30_encoding.md R101). -/
def decode (w : Word) : Decoded :=
  match opcodeTable.find? (fun row => row.1 == w) with
  | some row => .instr row.2
  | none => .rejected (rejectReason (splitWord w))

/-- OP, ACC and IDENT of each command, from the columns of 30_encoding.md R103. -/
def Instr.fields : Instr → CommandFields
  | .gfmul => { op := 0x01#8, acc := false, ident := false, rsv := 0#22 }
  | .gfinv => { op := 0x02#8, acc := false, ident := false, rsv := 0#22 }
  | .rmul => { op := 0x03#8, acc := false, ident := false, rsv := 0#22 }
  | .rmulacc => { op := 0x03#8, acc := true, ident := false, rsv := 0#22 }
  | .rxor => { op := 0x04#8, acc := false, ident := false, rsv := 0#22 }
  | .config => { op := 0x10#8, acc := false, ident := false, rsv := 0#22 }
  | .matinv => { op := 0x11#8, acc := false, ident := false, rsv := 0#22 }
  | .lincomb => { op := 0x12#8, acc := false, ident := false, rsv := 0#22 }
  | .lincombId => { op := 0x12#8, acc := false, ident := true, rsv := 0#22 }
  | .encode => { op := 0x20#8, acc := false, ident := false, rsv := 0#22 }
  | .decode => { op := 0x21#8, acc := false, ident := false, rsv := 0#22 }

/-- The command word of a command. -/
def encode (i : Instr) : Word := joinFields i.fields

/-- What the decoder reads from an instruction of nbits bits given as the number w, bit 0 the least significant bit of
the command word; a command is one 32-bit word, so a number that needs more bits is no command. -/
def decodeTableWord (nbits w : Nat) : Option Instr :=
  if w % 2 ^ nbits < 4294967296 then
    match decode (BitVec.ofNat 32 (w % 2 ^ nbits)) with
    | .instr i => some i
    | .rejected _ => none
  else none

end Sys2Proof
end

