-- ==== Sys2Proof/Machine/Flags.lean ====
section
/-! DEFINITION. STATUS and the interrupt: the word a read of STATUS returns (10_state.md R26), what a host write of STATUS
does (R27), what a launch does to it (60_exceptions.md R195), and irq (R196). Completion is in Ops. -/

namespace Sys2Proof.Machine

/-- The number of an error code (60_exceptions.md R191). -/
def ErrCode.bits : ErrCode → BitVec 4
  | .none => 0#4
  | .badCmd => 1#4
  | .config => 2#4
  | .notConfigured => 3#4
  | .param => 4#4
  | .bus => 5#4
  | .invZero => 6#4
  | .erasures => 7#4
  | .singular => 8#4

/-- STATUS.BUSY "reads 1 exactly when the phase is BUSY" (10_state.md R50). -/
def State.busy (s : State) : Bool := s.running.isSome

/-- The word a read of STATUS returns: reserved bits, ERRCODE, reserved bits, CFG_VALID, OVERRUN, ERR, DONE, BUSY
(10_state.md R26). -/
def State.statusWord (s : State) : Word :=
  0#20 ++ (s.status.errCode.bits ++ (0#3 ++ (BitVec.ofBool s.coder.valid ++ (BitVec.ofBool s.status.overrun ++
    (BitVec.ofBool s.status.err ++ (BitVec.ofBool s.status.done ++ BitVec.ofBool s.busy))))))

/-- A host write of v to STATUS: writing 1 clears DONE, ERR with ERRCODE, and OVERRUN (10_state.md R27). -/
def Status.clearOnes (st : Status) (v : Word) : Status where
  done := st.done && !v.getLsbD 1
  err := st.err && !v.getLsbD 2
  errCode := if v.getLsbD 2 then .none else st.errCode
  overrun := st.overrun && !v.getLsbD 3

/-- A launch clears DONE, ERR and ERRCODE, and not OVERRUN (60_exceptions.md R195). -/
def Status.launched (st : Status) : Status := { st with done := false, err := false, errCode := .none }

/-- The interrupt output, CTRL.IRQ_EN AND STATUS.DONE (60_exceptions.md R196). -/
def State.irq (s : State) : Bool := s.irqEn && s.status.done

end Sys2Proof.Machine
end

