-- ==== Sys2Proof/Machine/Port.lean ====
section
/-! DEFINITION. The host's side: the register port (10_state.md R21-R49), launch with its footprint (60_exceptions.md R195),
and the host's DMEM accesses (20_memory.md R80). -/

namespace Sys2Proof.Machine

/-! ### The register map -/

/-- The registers of 10_state.md R23. -/
inductive Reg where
  | id
  | ctrl
  | status
  | cmd
  | k
  | m
  | wsBase
  | wsSize
  | shardTbl
  | size
  | src
  | dst
  | scalar
  | coefPtr
  | idsPtr
  | destId
  | matN
  | opa
  | opb
  | result
  | erasure0
  | erasure1
  | erasure2
  | erasure3
  | erasure4
  | erasure5
  | erasure6
  | erasure7
  | coderK
  | coderM
  | coderWs
  deriving DecidableEq, Repr

/-- The register map, in offset order (10_state.md R23). -/
def registerMap : List (Nat × Reg) :=
  [(0x000, .id), (0x004, .ctrl), (0x008, .status), (0x00C, .cmd), (0x010, .k), (0x014, .m), (0x018, .wsBase),
   (0x01C, .wsSize), (0x020, .shardTbl), (0x024, .size), (0x028, .src), (0x02C, .dst), (0x030, .scalar),
   (0x034, .coefPtr), (0x038, .idsPtr), (0x03C, .destId), (0x040, .matN), (0x044, .opa), (0x048, .opb),
   (0x04C, .result), (0x050, .erasure0), (0x054, .erasure1), (0x058, .erasure2), (0x05C, .erasure3),
   (0x060, .erasure4), (0x064, .erasure5), (0x068, .erasure6), (0x06C, .erasure7), (0x070, .coderK),
   (0x074, .coderM), (0x078, .coderWs)]

/-- The register an access reaches: offset bits [1:0] are ignored, and an offset the map does not list is reserved
(10_state.md R21). -/
def registerAt (offset : BitVec 12) : Option Reg :=
  (registerMap.find? fun row => row.1 == (offset &&& 0xFFC#12).toNat).map Prod.snd

/-- The value a read of the register returns, reserved bits 0 (10_state.md R22, R24-R48). -/
def State.readReg (s : State) : Reg → Word
  | .id => Config.idValue
  | .ctrl => (BitVec.ofBool s.irqEn).setWidth 32
  | .status => s.statusWord
  | .cmd => 0#32
  | .k => s.params.k.setWidth 32
  | .m => s.params.m.setWidth 32
  | .wsBase => s.params.wsBase
  | .wsSize => BitVec.ofNat 32 (stateSize s.params.k.toNat s.params.m.toNat)
  | .shardTbl => s.params.shardTbl
  | .size => s.params.size
  | .src => s.params.src
  | .dst => s.params.dst
  | .scalar => s.params.scalar.setWidth 32
  | .coefPtr => s.params.coefPtr
  | .idsPtr => s.params.idsPtr
  | .destId => s.params.destId.setWidth 32
  | .matN => s.params.matN.setWidth 32
  | .opa => s.params.opa.setWidth 32
  | .opb => s.params.opb.setWidth 32
  | .result => s.result.setWidth 32
  | .erasure0 => s.params.erasure0
  | .erasure1 => s.params.erasure1
  | .erasure2 => s.params.erasure2
  | .erasure3 => s.params.erasure3
  | .erasure4 => s.params.erasure4
  | .erasure5 => s.params.erasure5
  | .erasure6 => s.params.erasure6
  | .erasure7 => s.params.erasure7
  | .coderK => s.coder.k.setWidth 32
  | .coderM => s.coder.m.setWidth 32
  | .coderWs => s.coder.ws

/-- A register read through the port: a reserved offset reads 0 (10_state.md R21). -/
def State.readOffset (s : State) (offset : BitVec 12) : Word :=
  match registerAt offset with
  | some r => s.readReg r
  | none => 0#32

/-! ### Launch -/

/-- The footprint a command's rule gives it, from its operands and the control data in DMEM (20_memory.md R79;
60_exceptions.md R195). -/
def footprintOf (i : Instr) (memBytes : Nat) (o : Operands) (mem : Memory) : Footprint :=
  match i with
  | .gfmul => .empty
  | .gfinv => .empty
  | .rmul => (regionCheck memBytes o).footprint fun _ => regionFootprint o
  | .rmulacc => (regionCheck memBytes o).footprint fun _ => regionFootprint o
  | .rxor => (regionCheck memBytes o).footprint fun _ => regionFootprint o
  | .config => (configCheck memBytes o).footprint fun _ => configFootprint o
  | .matinv => (matinvCheck memBytes o).footprint fun _ => matinvFootprint o
  | .lincomb => (lincombCheck memBytes o mem).footprint (lincombFootprint o)
  | .lincombId => (lincombIdCheck memBytes o mem).footprint (lincombIdFootprint o)
  | .encode => (encodeCheck memBytes o mem).footprint fun _ => encodeFootprint o mem
  | .decode => (decodeCheck memBytes o mem).footprint fun _ => decodeFootprint o mem

/-- The footprint of a command word: empty for an illegal word, which reads no DMEM (30_encoding.md R101; 60_exceptions.md
R195). -/
def wordFootprint (w : Word) (memBytes : Nat) (o : Operands) (mem : Memory) : Footprint :=
  match decode w with
  | .instr i => footprintOf i memBytes o mem
  | .rejected _ => .empty

/-- `launch(w)` (60_exceptions.md R195): take the snapshot, clear DONE, ERR and ERRCODE, go BUSY, compute the footprint. -/
def State.launch (s : State) (w : Word) : State :=
  { s with
    status := s.status.launched
    running := some {
      snap := { word := w, operands := { params := s.params, coder := s.coder } }
      fp := wordFootprint w s.memBytes { params := s.params, coder := s.coder } s.dmem } }

/-- A host write of w to CMD: dropped with OVERRUN while BUSY, else a launch (10_state.md R28). -/
def State.writeCmd (s : State) (w : Word) : State :=
  if s.busy then { s with status := { s.status with overrun := true } } else s.launch w

/-! ### Register writes -/

/-- A host write to a parameter register keeps the bits of its field (10_state.md R22, R29-R45). -/
def State.setParams (s : State) (p : Params) : State := { s with params := p }

/-- A host write of v to the register; writes to read-only registers are ignored (10_state.md R22-R49). -/
def State.writeReg (s : State) (r : Reg) (v : Word) : State :=
  match r with
  | .id => s
  | .ctrl => { s with irqEn := v.getLsbD 0 }
  | .status => { s with status := s.status.clearOnes v }
  | .cmd => s.writeCmd v
  | .k => s.setParams { s.params with k := v.setWidth 9 }
  | .m => s.setParams { s.params with m := v.setWidth 9 }
  | .wsBase => s.setParams { s.params with wsBase := v }
  | .wsSize => s
  | .shardTbl => s.setParams { s.params with shardTbl := v }
  | .size => s.setParams { s.params with size := v }
  | .src => s.setParams { s.params with src := v }
  | .dst => s.setParams { s.params with dst := v }
  | .scalar => s.setParams { s.params with scalar := v.setWidth 8 }
  | .coefPtr => s.setParams { s.params with coefPtr := v }
  | .idsPtr => s.setParams { s.params with idsPtr := v }
  | .destId => s.setParams { s.params with destId := v.setWidth 8 }
  | .matN => s.setParams { s.params with matN := v.setWidth 9 }
  | .opa => s.setParams { s.params with opa := v.setWidth 8 }
  | .opb => s.setParams { s.params with opb := v.setWidth 8 }
  | .result => s
  | .erasure0 => s.setParams { s.params with erasure0 := v }
  | .erasure1 => s.setParams { s.params with erasure1 := v }
  | .erasure2 => s.setParams { s.params with erasure2 := v }
  | .erasure3 => s.setParams { s.params with erasure3 := v }
  | .erasure4 => s.setParams { s.params with erasure4 := v }
  | .erasure5 => s.setParams { s.params with erasure5 := v }
  | .erasure6 => s.setParams { s.params with erasure6 := v }
  | .erasure7 => s.setParams { s.params with erasure7 := v }
  | .coderK => s
  | .coderM => s
  | .coderWs => s

/-- A register write through the port: a write to a reserved offset is ignored (10_state.md R21). -/
def State.writeOffset (s : State) (offset : BitVec 12) (v : Word) : State :=
  match registerAt offset with
  | some r => s.writeReg r v
  | none => s

/-! ### The host's DMEM accesses -/

/-- A host write of one DMEM byte: no byte holds it at an address of MEM_BYTES or more (10_state.md R56; log 9); while BUSY, in FP.R ∪ FP.W it sets host_race (and the model writes nothing, log 8); any
other takes effect (20_memory.md R80). -/
def State.hostMemWrite (s : State) (a : Nat) (v : Byte) : State :=
  if s.memBytes ≤ a then s
  else
    match s.running with
    | some r =>
      if inRegions (r.fp.reads ++ r.fp.writes) a then { s with hostRace := true }
      else { s with dmem := s.dmem.write a v }
    | none => { s with dmem := s.dmem.write a v }

/-- A host read of one DMEM byte: ANY in FP.W while BUSY (20_memory.md R80; log 7) and at an address of MEM_BYTES or more (log
9), else the current byte. -/
def State.hostMemRead (s : State) (a : Nat) : State :=
  if decide (s.memBytes ≤ a) || inRegions s.pendingWrites a then
    { s with dmemData := Config.freeByte s.freeCount, freeCount := s.freeCount + 1 }
  else { s with dmemData := s.dmem.read a }

end Sys2Proof.Machine
end

