-- ==== Sys2Proof/Machine/Engine.lean ====
section
/-! DEFINITION. The two agents' turns (00_scope.md R15): the engine completes the running command, the host does one
operation (70_reset_and_hazards.md R229). -/

namespace Sys2Proof.Machine

/-- The engine's turn: it runs the command of the snapshot word to its completion; an illegal word completes with BAD_CMD
(30_encoding.md R101); with no command running, or rst_n low, nothing happens. -/
def State.engineTurn (s : State) : Host.Outcome State Fault Refusal :=
  if s.rstLow then .next s
  else
    match s.running with
    | none => .next s
    | some r =>
      match decode r.snap.word with
      | .instr i => exec i s
      | .rejected _ => .next (s.complete .badCmd)

/-- The host's turn, which always goes on: "Only the race duty leads to a fault" (70_reset_and_hazards.md R229). While rst_n is low "the register port ignores writes and reads return 0x00000000"
(70_reset_and_hazards.md R220). -/
def State.hostTurn (s : State) : HostOp → Host.Outcome State Fault Refusal
  | .regWrite offset v => .next (if s.rstLow then s else s.writeOffset offset v)
  | .regRead offset => .next { s with portData := if s.rstLow then 0#32 else s.readOffset offset }
  | .memWrite a v => .next (s.hostMemWrite a.toNat v)
  | .memRead a => .next (s.hostMemRead a.toNat)
  | .rstAssert => .next s.assertReset
  | .rstRelease => .next s.releaseReset
  | .reset => .next s.resetEvent

/-- The next turn of the schedule; when it is empty the engine moves, since it "never waits for the host"
(70_reset_and_hazards.md R229; log 4). -/
def State.nextTurn (s : State) : Host.Outcome State Fault Refusal :=
  match s.schedule with
  | [] => s.engineTurn
  | .engine :: rest => { s with schedule := rest }.engineTurn
  | .host op :: rest => { s with schedule := rest }.hostTurn op

/-- The command word w accepted by CMD now, with the engine's turn next (log 17). -/
def State.placeCommand (s : State) (w : Word) : State :=
  { s.launch w with rstLow := false, schedule := .engine :: s.schedule }

end Sys2Proof.Machine
end

