-- ==== Sys2Proof/Machine/Step.lean ====
section
/-! DEFINITION. One step of the machine, and how a command comes to be the next one that runs. -/

namespace Sys2Proof.Machine

/-- One step: a state with host_race = 1 is faulted (10_state.md R54); else the next turn. -/
def step (s : State) : Host.Outcome State Fault Refusal :=
  if s.hostRace then .fault .hostRace else s.nextTurn

/-- The machine with the command word of nbits bits given as the number w launched, so that the very next step runs it
(log 17). -/
def State.withFetchWord (s : State) (nbits w : Nat) : State :=
  s.placeCommand (BitVec.ofNat 32 (w % 2 ^ nbits))

end Sys2Proof.Machine
end

