-- ==== Sys2Proof/Safety.lean ====
section
/-! DEFINITION. The terms claims use: the invariant of the machine, what a completed command leaves, regions as sets of
addresses, and matrices over GF(256) as what they multiply to. -/

namespace Sys2Proof.Machine

/-! ### The invariant -/

/-- The latched coder "while CFG_VALID = 1" (10_state.md R52). -/
def Coder.Legal (c : Coder) (memBytes : Nat) : Prop :=
  c.valid = true → 1 ≤ c.k.toNat ∧ c.k.toNat + c.m.toNat ≤ 256 ∧
    inRange memBytes c.ws.toNat (stateSize c.k.toNat c.m.toNat) = true

/-- Every region lies in populated DMEM (20_memory.md R71). -/
def RegionsInRange (memBytes : Nat) (rs : List Region) : Prop := ∀ r ∈ rs, inRange memBytes r.base r.len = true

/-- What holds in every state the machine reaches. -/
structure State.Inv (s : State) : Prop where
  /-- 1 ≤ MEM_BYTES ≤ 2^32 (00_scope.md R8). -/
  memBytesLegal : 1 ≤ s.memBytes ∧ s.memBytes ≤ 4294967296
  /-- DMEM keeps its canonical form (log 2). -/
  dmemCanonical : s.dmem.wf = true
  /-- Nothing was written at an address of MEM_BYTES or more (20_memory.md R73). -/
  dmemPopulated : ∀ c ∈ s.dmem, c.1 < s.memBytes
  /-- The latched coder obeys its bounds while valid (10_state.md R52). -/
  coderLegal : s.coder.Legal s.memBytes
  /-- "ERR = 0 if and only if ERRCODE = 0" (10_state.md R26). -/
  errIffCode : s.status.err = true ↔ s.status.errCode ≠ .none
  /-- "BUSY = 1 implies DONE = 0, ERR = 0 and ERRCODE = 0" (10_state.md R26). -/
  busyStatus : s.busy = true → s.status.done = false ∧ s.status.err = false ∧ s.status.errCode = .none
  /-- The coder in the snapshot obeys the bounds of R52 too (10_state.md R51). -/
  snapshotCoderLegal : ∀ r, s.running = some r → r.snap.operands.coder.Legal s.memBytes
  /-- FP.R and FP.W of the running command lie in populated DMEM (20_memory.md R73). -/
  footprintInRange : ∀ r, s.running = some r → RegionsInRange s.memBytes (r.fp.reads ++ r.fp.writes)
  /-- So does the aborted FP.W of a reset in progress. -/
  abortedInRange : RegionsInRange s.memBytes s.aborted
  /-- No command runs while rst_n is low (70_reset_and_hazards.md R220). -/
  resetIdle : s.rstLow = true → s.running = none
  /-- An aborted FP.W comes from an aborted command (log 22). -/
  abortedRecorded : s.aborted ≠ [] → s.abortedCommand = true
  /-- Only a reset in progress has aborted commands. -/
  abortedInReset : s.rstLow = false → s.aborted = []

/-- The step from s to t is the host's last one, at which a run ends (70_reset_and_hazards.md R230): no host turn is left
after it. Engine turns may be left, and do not belong to the run. -/
def LastHostStep (s t : State) : Prop :=
  ∃ op rest, s.schedule = .host op :: rest ∧ (∀ u ∈ rest, u = .engine) ∧ step s = .next t

/-- A run of a host program ends with the step from s to t, and its end state t is defined: R230's conditions hold "at that
point", right after the host's last step (70_reset_and_hazards.md R230; log 22). -/
structure EndDefined (s t : State) : Prop where
  /-- The run ends here. -/
  lastStep : LastHostStep s t
  /-- No reset is under way: it is one event that ends with the release (R220), and then every aborted FP.W holds ANY (R221). -/
  resetDone : t.rstLow = false
  /-- The phase is IDLE, so the last command launched has completed or was aborted. -/
  idle : t.running = none
  /-- None was aborted: every command launched has completed (R221: an aborted one "never completes"). -/
  allCompleted : t.abortedCommand = false
  /-- host_race = 0. -/
  noRace : t.hostRace = false

/-! ### What a completed command leaves -/

/-- `s` after a command completed with `code`, having left DMEM as `mem` and taken `draws` draws of ANY: nothing else
differs from `s` but STATUS and the phase. -/
def State.doneWith (s : State) (code : ErrCode) (mem : Memory) (draws : Nat) : State :=
  { s with
    dmem := mem
    freeCount := s.freeCount + draws
    status := { s.status with done := true, err := code != .none, errCode := code }
    running := none }

/-- The two memories read alike at every address outside the regions. -/
def SameOutside (rs : List Region) (before after : Memory) : Prop :=
  ∀ a, inRegions rs a = false → after.read a = before.read a

/-- InRange(b, len), as 20_memory.md R71 writes it. -/
def State.Fits (s : State) (b len : Nat) : Prop := len = 0 ∨ b + len ≤ s.memBytes

/-- The footprint the rule of command i gives in state s (20_memory.md R79). -/
def State.footprint (s : State) (i : Instr) : Footprint := footprintOf i s.memBytes s.operands s.dmem

/-! ### Matrices -/

/-- An n × n matrix. -/
def IsSquareMatrix (n : Nat) (a : Matrix) : Prop := a.length = n ∧ ∀ row ∈ a, row.length = n

/-- Entry (r, c) of the product of two n × n matrices: Σ_j gmul(A[r][j], B[j][c]) (00_scope.md R11). -/
def productEntry (n : Nat) (a b : Matrix) (r c : Nat) : Byte :=
  gfSum ((List.range n).map fun j => gmul (matrixEntry a r j) (matrixEntry b j c))

/-- The product of A and B is the n × n identity. -/
def ProductIsIdentity (n : Nat) (a b : Matrix) : Prop :=
  ∀ r < n, ∀ c < n, productEntry n a b r c = if r = c then 1#8 else 0#8

/-! ### Polynomials over GF(2), for the meaning of `gmul` -/

/-- The carry-less product of two bytes, as a number below 2^15 (40_field.md R120). -/
def carrylessProduct (a b : Byte) : BitVec 16 :=
  (List.range 8).foldl (fun p i => if b.getLsbD i then p ^^^ (a.setWidth 16 <<< i) else p) 0#16

/-- A polynomial of degree below 16 reduced modulo x^8+x^4+x^3+x^2+1, 0x11D (00_scope.md R4). -/
def reduce11D (p : BitVec 16) : Byte :=
  ((List.range 8).foldl (fun q i => if q.getLsbD (15 - i) then q ^^^ (0x11D#16 <<< (7 - i)) else q) p).setWidth 8

/-- The n-th power of a field element. -/
def gfPower (a : Byte) : Nat → Byte
  | 0 => 1#8
  | n + 1 => gmul a (gfPower a n)

end Sys2Proof.Machine
end

