-- ==== Sys2Proof/Certificates/Slice0/Obligations.lean ====
section
/-! DEFINITION. The statements for the provers, from the numbered rules of spec/. `s.operands` is what the command takes its
operands from, the snapshot of the running command (10_state.md R51; log 5). A statement about exec says what the engine's
completion of the command leaves. -/

open Sys2Proof Sys2Proof.Machine

/-! ## Encoding and stepping -/

/-- The eleven legal words of 30_encoding.md R103, each with its command. -/
def Obligations.LegalWordsDecodeToTheirCommands : Prop :=
  decode 0x00000001#32 = .instr .gfmul ∧ decode 0x00000002#32 = .instr .gfinv ∧
  decode 0x00000003#32 = .instr .rmul ∧ decode 0x00000103#32 = .instr .rmulacc ∧
  decode 0x00000004#32 = .instr .rxor ∧ decode 0x00000010#32 = .instr .config ∧
  decode 0x00000011#32 = .instr .matinv ∧ decode 0x00000012#32 = .instr .lincomb ∧
  decode 0x00000212#32 = .instr .lincombId ∧ decode 0x00000020#32 = .instr .encode ∧
  decode 0x00000021#32 = .instr .decode

/-- Decode and encode agree: for every command the decoder gives back what was encoded, and every word it accepts is the one
word of its command, so no other word is legal (30_encoding.md R100, R101). -/
def Obligations.DecodeAndEncodeAgree : Prop :=
  ∀ (w : Word) (i : Instr), decode w = .instr i ↔ w = encode i

/-- The words that match no row are exactly those of the three illegal cases: an OP with no row, a flag with an OP that does
not take it, a bit of RSV set. Such a word launches with an empty footprint and completes with BAD_CMD, and nothing but
STATUS and the phase changes (30_encoding.md R101). -/
def Obligations.IllegalWordsCompleteWithBadCmd : Prop :=
  (∀ w : Word, (∀ i, decode w ≠ .instr i) ↔
    ((w.setWidth 8).toNat ∉ [0x01, 0x02, 0x03, 0x04, 0x10, 0x11, 0x12, 0x20, 0x21] ∨
      (w.getLsbD 8 = true ∧ w.setWidth 8 ≠ 0x03#8) ∨ (w.getLsbD 9 = true ∧ w.setWidth 8 ≠ 0x12#8) ∨
      w >>> 10 ≠ 0#32)) ∧
  (∀ (s : State) (w : Word), s.running = none → s.rstLow = false → (∀ i, decode w ≠ .instr i) →
    (∀ r, (s.writeReg .cmd w).running = some r → r.fp = { reads := [], writes := [] }) ∧
    (s.writeReg .cmd w).engineTurn =
      .next { s with status := { s.status with done := true, err := true, errCode := .badCmd } })

/-- A step of the engine runs the decoded command of the snapshot word; the turn it took leaves the schedule. -/
def Obligations.StepRunsTheDecodedCommand : Prop :=
  ∀ (s : State) (r : Running) (i : Instr), s.hostRace = false → s.rstLow = false → s.running = some r →
    decode r.snap.word = .instr i →
    (s.schedule = [] → step s = exec i s) ∧
    (∀ rest, s.schedule = .engine :: rest → step s = exec i { s with schedule := rest })

/-- A step of the host does the operation at the head of the schedule (70_reset_and_hazards.md R229), and with an idle engine
and nothing scheduled nothing changes (the schedule is the model's, log 4). -/
def Obligations.StepTakesTheScheduledHostOperation : Prop :=
  (∀ (s : State) (op : HostOp) (rest : List Turn), s.hostRace = false → s.schedule = .host op :: rest →
    step s = { s with schedule := rest }.hostTurn op) ∧
  (∀ s : State, s.hostRace = false → s.running = none → s.schedule = [] → step s = .next s)

/-- Every command completes from every state: exec answers a next state, with the phase IDLE and DONE = 1, and ERR = 1 exactly
if the code is not 0 (60_exceptions.md R190, R194). "The engine never waits for the host" (70_reset_and_hazards.md R229): once
the host has nothing left to do (the schedule is the model's, log 4) the next step completes whatever word runs. The end of a
run (R230; log 22): a host whose last step reads STATUS with DONE = 1, as a WAIT does, ends in a defined end state if no
command was aborted; one whose last step is a launch does not, however the engine goes on; and after a defined end nothing
changes but the engine turns left in the schedule. -/
def Obligations.EveryCommandCompletes : Prop :=
  (∀ (i : Instr) (s : State), ∃ t, exec i s = .next t ∧ t.running = none ∧ t.status.done = true ∧
    (t.status.err = true ↔ t.status.errCode ≠ .none) ∧ t.status.overrun = s.status.overrun) ∧
  (∀ (s : State) (r : Running), s.running = some r → s.hostRace = false → s.rstLow = false → s.schedule = [] →
    ∃ t, step s = .next t ∧ t.running = none ∧ t.status.done = true ∧ t.hostRace = false ∧ t.rstLow = false ∧
      t.schedule = [] ∧ t.abortedCommand = s.abortedCommand) ∧
  (∀ (s t : State) (rest : List Turn), s.Inv → s.abortedCommand = false →
    s.schedule = .host (.regRead 0x008#12) :: rest → (∀ u ∈ rest, u = .engine) → step s = .next t →
    t.portData.getLsbD 1 = true → EndDefined s t) ∧
  (∀ (s t : State) (w : Word) (rest : List Turn), s.rstLow = false →
    s.schedule = .host (.regWrite 0x00C#12 w) :: rest → step s = .next t → ¬EndDefined s t) ∧
  (∀ s t u : State, EndDefined s t → step t = .next u → u = { t with schedule := t.schedule.tail })

/-! ## The field -/

/-- `gmul` is the carry-less product reduced modulo x^8+x^4+x^3+x^2+1, for all 65536 pairs (40_field.md R120). -/
def Obligations.GmulIsCarrylessProductModulo11D : Prop :=
  ∀ a b : Byte, gmul a b = reduce11D (carrylessProduct a b)

/-- The laws of 40_field.md R121, with the order of 0x02. -/
def Obligations.FieldLaws : Prop :=
  (∀ a b, gmul a b = gmul b a) ∧ (∀ a, gmul a 0#8 = 0#8) ∧ (∀ a, a ≠ 0#8 → gmul a (ginv a) = 1#8) ∧
  (∀ a b c, gmul (gmul a b) c = gmul a (gmul b c)) ∧
  (∀ a b c : Byte, (a ^^^ b) ^^^ c = a ^^^ (b ^^^ c)) ∧ (∀ a b : Byte, a ^^^ b = b ^^^ a) ∧
  (∀ a, gmul 1#8 a = a) ∧ (∀ a b c, gmul a (b ^^^ c) = gmul a b ^^^ gmul a c) ∧ (∀ a : Byte, a ^^^ a = 0#8) ∧
  (∀ a b, gmul a b = 0#8 → a = 0#8 ∨ b = 0#8) ∧
  gfPower 2#8 255 = 1#8 ∧ (∀ n, 0 < n → n < 255 → gfPower 2#8 n ≠ 1#8)

/-- `ginv(y)` is "the unique `x` such that `multiply(x, y) == 1`", and its own inverse (40_field.md R122). -/
def Obligations.GinvIsTheUniqueInverse : Prop :=
  ∀ y : Byte, y ≠ 0#8 → gmul (ginv y) y = 1#8 ∧ (∀ x, gmul x y = 1#8 → x = ginv y) ∧ ginv y ≠ 0#8 ∧
    ginv (ginv y) = y

/-- GFMUL: RESULT takes gmul(OPA, OPB), the command succeeds, nothing else changes, and the footprint is empty (40_field.md
R123). -/
def Obligations.GfmulWritesTheProduct : Prop :=
  ∀ s : State, s.footprint .gfmul = { reads := [], writes := [] } ∧
    exec .gfmul s = .next { s with
      result := gmul s.operands.params.opa s.operands.params.opb
      status := { s.status with done := true, err := false, errCode := .none }
      running := none }

/-- GFINV: for OPA ≠ 0, RESULT takes the byte whose product with OPA is 1 and the command succeeds; for OPA = 0 it fails with
INV_ZERO; nothing else changes, and the footprint is empty (40_field.md R124). -/
def Obligations.GfinvWritesTheInverseOrRefusesZero : Prop :=
  ∀ s : State, s.footprint .gfinv = { reads := [], writes := [] } ∧
    (s.operands.params.opa = 0#8 →
      exec .gfinv s = .next { s with
        status := { s.status with done := true, err := true, errCode := .invZero }
        running := none }) ∧
    (s.operands.params.opa ≠ 0#8 → ∃ x, gmul x s.operands.params.opa = 1#8 ∧
      exec .gfinv s = .next { s with
        result := x
        status := { s.status with done := true, err := false, errCode := .none }
        running := none })

/-- The rule that RMUL, RMULACC and RXOR share, with `f s d x` the new destination byte for the old one d and the source byte
x: BUS on SRC, then on DST; else success, exact if SRC = DST or the regions share no byte, and in every case no byte outside
Region(DST, SIZE) changes; the footprint is SRC and DST. -/
def Sys2Proof.Machine.RegionRule (i : Instr) (f : State → Byte → Byte → Byte) : Prop :=
  ∀ (s : State) (src dst len : Nat), src = s.operands.params.src.toNat → dst = s.operands.params.dst.toNat →
    len = s.operands.params.size.toNat →
    (¬s.Fits src len → exec i s = .next (s.doneWith .bus s.dmem 0)) ∧
    (s.Fits src len → ¬s.Fits dst len → exec i s = .next (s.doneWith .bus s.dmem 0)) ∧
    (s.Fits src len → s.Fits dst len →
      s.footprint i = { reads := [{ base := src, len := len }], writes := [{ base := dst, len := len }] } ∧
      ∃ mem draws, exec i s = .next (s.doneWith .none mem draws) ∧
        (∀ a, (a < dst ∨ dst + len ≤ a) → mem.read a = s.dmem.read a) ∧
        ((src = dst ∨ dst + len ≤ src ∨ src + len ≤ dst) → draws = 0 ∧
          ∀ n < len, mem.read (dst + n) = f s (s.dmem.read (dst + n)) (s.dmem.read (src + n))))

/-- RMUL (40_field.md R125). -/
def Obligations.RmulScalesTheRegion : Prop :=
  RegionRule .rmul fun s _ x => gmul s.operands.params.scalar x

/-- RMULACC (40_field.md R126). -/
def Obligations.RmulaccAccumulatesTheScaledRegion : Prop :=
  RegionRule .rmulacc fun s d x => d ^^^ gmul s.operands.params.scalar x

/-- RXOR (40_field.md R127). -/
def Obligations.RxorXorsTheRegion : Prop :=
  RegionRule .rxor fun _ d x => d ^^^ x

/-! ## The coder -/

/-- CONFIG (41_coder.md R143): the two errors in order, each clearing CFG_VALID and keeping CODER_K, CODER_M and CODER_WS; else
the m × k Cauchy matrix stands at W + 2k² + 2k, no other byte changes, that region is the footprint, and
the coder is latched. -/
def Obligations.ConfigWritesTheCauchyMatrixAndLatchesTheCoder : Prop :=
  ∀ (s : State) (k m w : Nat), k = s.operands.params.k.toNat → m = s.operands.params.m.toNat →
    w = s.operands.params.wsBase.toNat →
    ((k = 0 ∨ 256 < k + m) → exec .config s = .next { s with
      coder := { s.coder with valid := false }
      status := { s.status with done := true, err := true, errCode := .config }
      running := none }) ∧
    (1 ≤ k → k + m ≤ 256 → s.memBytes < w + (2 * k ^ 2 + 2 * k + k * m) → exec .config s = .next { s with
      coder := { s.coder with valid := false }
      status := { s.status with done := true, err := true, errCode := .bus }
      running := none }) ∧
    (1 ≤ k → k + m ≤ 256 → w + (2 * k ^ 2 + 2 * k + k * m) ≤ s.memBytes →
      s.footprint .config = { reads := [], writes := [{ base := w + 2 * k ^ 2 + 2 * k, len := k * m }] } ∧ ∃ mem,
      exec .config s = .next { s with
        dmem := mem
        coder := { valid := true, k := s.operands.params.k, m := s.operands.params.m, ws := s.operands.params.wsBase }
        status := { s.status with done := true, err := false, errCode := .none }
        running := none } ∧
      (∀ i < m, ∀ j < k, mem.read (w + 2 * k ^ 2 + 2 * k + i * k + j) =
        ginv (BitVec.ofNat 8 i ^^^ BitVec.ofNat 8 (m + j))) ∧
      SameOutside [{ base := w + 2 * k ^ 2 + 2 * k, len := k * m }] s.dmem mem)

/-- The Cauchy matrix is m × k with C[i][j] = ginv(i ⊕ (m + j)); "The argument of `ginv` is never 0", so every entry is the
inverse of its argument and is nonzero (41_coder.md R142). -/
def Obligations.CauchyEntriesAreNonzeroInverses : Prop :=
  ∀ k m : Nat, k + m ≤ 256 →
    (cauchyMatrix k m).length = m ∧ (∀ row ∈ cauchyMatrix k m, row.length = k) ∧
    ∀ i < m, ∀ j < k, matrixEntry (cauchyMatrix k m) i j = ginv (BitVec.ofNat 8 i ^^^ BitVec.ofNat 8 (m + j)) ∧
      BitVec.ofNat 8 i ^^^ BitVec.ofNat 8 (m + j) ≠ 0#8 ∧
      gmul (matrixEntry (cauchyMatrix k m) i j) (BitVec.ofNat 8 i ^^^ BitVec.ofNat 8 (m + j)) = 1#8 ∧
      matrixEntry (cauchyMatrix k m) i j ≠ 0#8

/-- WS_SIZE reads state_size of the live K and M, 0 if K + M > 256 and at reset, and never more than 131584 (10_state.md
R32; 41_coder.md R140; 00_scope.md R9). -/
def Obligations.WsSizeReadsStateSize : Prop :=
  (∀ s : State, (s.readReg .wsSize).toNat =
    if 256 < s.params.k.toNat + s.params.m.toNat then 0
    else 2 * s.params.k.toNat ^ 2 + 2 * s.params.k.toNat + s.params.k.toNat * s.params.m.toNat) ∧
  (∀ s : State, (s.readReg .wsSize).toNat ≤ 131584) ∧ State.reset.readReg .wsSize = 0#32

/-- The MDS invariant (41_coder.md R144): for every (k, m) that CONFIG accepts, any k distinct rows of [Identity ; Cauchy] are
an invertible matrix: it has a two-sided inverse, and INVERT does not find it singular. -/
def Obligations.AnyKRowsOfTheAugmentedMatrixAreInvertible : Prop :=
  ∀ (k m : Nat) (rows : List Nat), 1 ≤ k → k + m ≤ 256 → rows.length = k → rows.Nodup → (∀ r ∈ rows, r < k + m) →
    invertMatrix k (buildTmpmat k rows (cauchyMatrix k m)) ≠ none ∧
    ∃ b, IsSquareMatrix k b ∧ ProductIsIdentity k (buildTmpmat k rows (cauchyMatrix k m)) b ∧
      ProductIsIdentity k b (buildTmpmat k rows (cauchyMatrix k m))

/-! ## Matrix inversion -/

/-- If INVERT returns OK, I is the two-sided inverse of A and A has been reduced to the identity (42_matinv.md R151, R152). -/
def Obligations.InvertReturnsTheInverse : Prop :=
  ∀ (n : Nat) (a : Matrix), IsSquareMatrix n a →
    (∀ inv, invertMatrix n a = some inv →
      IsSquareMatrix n inv ∧ ProductIsIdentity n a inv ∧ ProductIsIdentity n inv a) ∧
    (∀ w, invertWork n a = some w → w.map Prod.fst = identityMatrix n)

/-- "`INVERT` returns SINGULAR exactly when A is singular, that is, when no B has A·B = I" (42_matinv.md R152). -/
def Obligations.InvertIsSingularExactlyWhenNoInverseExists : Prop :=
  ∀ (n : Nat) (a : Matrix), IsSquareMatrix n a →
    (invertMatrix n a = none ↔ ∀ b, IsSquareMatrix n b → ¬ProductIsIdentity n a b)

/-- "for any invertible k×k matrix `M`, `invert_matrix(invert_matrix(M)) == M`" (42_matinv.md R152). -/
def Obligations.InvertingTwiceGivesTheMatrixBack : Prop :=
  ∀ (n : Nat) (a inv : Matrix), IsSquareMatrix n a → invertMatrix n a = some inv → invertMatrix n inv = some a

/-- MATINV (42_matinv.md R150): PARAM, BUS on SRC, BUS on DST, then SINGULAR, in this order; on success SRC holds the identity
and DST the inverse of the matrix read, unless the regions overlap; no byte outside the two regions, which are the
footprint, ever changes. -/
def Obligations.MatinvInvertsTheMatrixInDmem : Prop :=
  ∀ (s : State) (src dst n : Nat), src = s.operands.params.src.toNat → dst = s.operands.params.dst.toNat →
    n = s.operands.params.matN.toNat →
    ((n = 0 ∨ 256 < n) → exec .matinv s = .next (s.doneWith .param s.dmem 0)) ∧
    (1 ≤ n → n ≤ 256 → ¬s.Fits src (n * n) → exec .matinv s = .next (s.doneWith .bus s.dmem 0)) ∧
    (1 ≤ n → n ≤ 256 → s.Fits src (n * n) → ¬s.Fits dst (n * n) →
      exec .matinv s = .next (s.doneWith .bus s.dmem 0)) ∧
    (1 ≤ n → n ≤ 256 → s.Fits src (n * n) → s.Fits dst (n * n) →
      s.footprint .matinv =
        { reads := [], writes := [{ base := src, len := n * n }, { base := dst, len := n * n }] } ∧
      ∃ mem draws, SameOutside [{ base := src, len := n * n }, { base := dst, len := n * n }] s.dmem mem ∧
        (invertMatrix n (s.dmem.readMatrix src n n) = none →
          exec .matinv s = .next (s.doneWith .singular mem draws)) ∧
        (∀ inv, invertMatrix n (s.dmem.readMatrix src n n) = some inv →
          exec .matinv s = .next (s.doneWith .none mem draws) ∧
          ((dst + n * n ≤ src ∨ src + n * n ≤ dst) → draws = 0 ∧ ∀ r < n, ∀ c < n,
            mem.read (src + r * n + c) = (if r = c then 1#8 else 0#8) ∧
            mem.read (dst + r * n + c) = matrixEntry inv r c)))

/-! ## Linear combinations -/

/-- The rule that LINCOMB and LINCOMB.ID share, with `ids s` the identities in state s: past the checks, the destination
shard becomes the sum of the scaled source shards if no region it reads shares a byte with it; an all-zero row changes no
byte; no byte outside the destination shard changes; and the footprint is `tables`, the sources with a nonzero coefficient,
and the destination if there is one (43_lincomb.md R160-R163). -/
def Sys2Proof.Machine.RowRule (i : Instr) (tables : State → List Region) (ids : State → List Nat) (s : State) : Prop :=
  let o := s.operands
  let coef := fun j => s.dmem.read (o.params.coefPtr.toNat + j)
  let dst := o.shardAddr s.dmem o.params.destId.toNat
  let src := fun j => o.shardAddr s.dmem ((ids s).getD j 0)
  (∀ a, inRegions (s.footprint i).reads a = true ↔
    (inRegions (tables s) a = true ∨ ∃ j < o.ck, coef j ≠ 0#8 ∧ src j ≤ a ∧ a < src j + o.len)) ∧
  (∀ a, inRegions (s.footprint i).writes a = true ↔ ((∃ j < o.ck, coef j ≠ 0#8) ∧ dst ≤ a ∧ a < dst + o.len)) ∧
  ∃ mem draws, exec i s = .next (s.doneWith .none mem draws) ∧
    ((∀ j < o.ck, coef j = 0#8) → draws = 0 ∧ ∀ a, mem.read a = s.dmem.read a) ∧
    SameOutside [{ base := dst, len := o.len }] s.dmem mem ∧
    ((∃ j < o.ck, coef j ≠ 0#8) →
      (∀ a, dst ≤ a → a < dst + o.len → inRegions (tables s) a = false ∧
        ∀ j < o.ck, coef j ≠ 0#8 → a < src j ∨ src j + o.len ≤ a) →
      draws = 0 ∧ ∀ n < o.len, mem.read (dst + n) =
        gfSum ((List.range o.ck).map fun j => gmul (coef j) (s.dmem.read (src j + n))))

/-- LINCOMB (43_lincomb.md R162): the eight checks in order, then the combination over the identity table. -/
def Obligations.LincombCombinesTheListedShards : Prop :=
  ∀ (s : State) (k m d : Nat), k = s.operands.ck → m = s.operands.cm → d = s.operands.params.destId.toNat →
    let o := s.operands
    let fails := fun code => exec .lincomb s = .next (s.doneWith code s.dmem 0)
    let fits := fun sh => s.Fits (o.shardAddr s.dmem sh) o.len
    let id := fun j => (s.dmem.read (o.params.idsPtr.toNat + j)).toNat
    (o.coder.valid = false → fails .notConfigured) ∧
    (o.coder.valid = true → k + m ≤ d → fails .param) ∧
    (o.coder.valid = true → d < k + m → ¬s.Fits o.params.coefPtr.toNat k → fails .bus) ∧
    (o.coder.valid = true → d < k + m → s.Fits o.params.coefPtr.toNat k → ¬s.Fits o.params.idsPtr.toNat k →
      fails .bus) ∧
    (o.coder.valid = true → d < k + m → s.Fits o.params.coefPtr.toNat k → s.Fits o.params.idsPtr.toNat k →
      ¬s.Fits o.params.shardTbl.toNat (4 * (k + m)) → fails .bus) ∧
    (o.coder.valid = true → d < k + m → s.Fits o.params.coefPtr.toNat k → s.Fits o.params.idsPtr.toNat k →
      s.Fits o.params.shardTbl.toNat (4 * (k + m)) →
      ((∃ j < k, k + m ≤ id j) → fails .param) ∧
      ((∀ j < k, id j < k + m) → ¬fits d → fails .bus) ∧
      ((∀ j < k, id j < k + m) → fits d → (∃ j < k, ¬fits (id j)) → fails .bus) ∧
      ((∀ j < k, id j < k + m) → fits d → (∀ j < k, fits (id j)) →
        RowRule .lincomb (fun s => [s.operands.coefRegion, s.operands.idsRegion, s.operands.tableRegion])
          (fun s => (List.range s.operands.ck).map fun j => (s.dmem.read (s.operands.params.idsPtr.toNat + j)).toNat)
          s))

/-- LINCOMB.ID (43_lincomb.md R163): the six checks in order, then the combination over the k data shards. -/
def Obligations.LincombIdCombinesTheDataShards : Prop :=
  ∀ (s : State) (k m d : Nat), k = s.operands.ck → m = s.operands.cm → d = s.operands.params.destId.toNat →
    let o := s.operands
    let fails := fun code => exec .lincombId s = .next (s.doneWith code s.dmem 0)
    let fits := fun sh => s.Fits (o.shardAddr s.dmem sh) o.len
    (o.coder.valid = false → fails .notConfigured) ∧
    (o.coder.valid = true → k + m ≤ d → fails .param) ∧
    (o.coder.valid = true → d < k + m → ¬s.Fits o.params.coefPtr.toNat k → fails .bus) ∧
    (o.coder.valid = true → d < k + m → s.Fits o.params.coefPtr.toNat k →
      ¬s.Fits o.params.shardTbl.toNat (4 * (k + m)) → fails .bus) ∧
    (o.coder.valid = true → d < k + m → s.Fits o.params.coefPtr.toNat k →
      s.Fits o.params.shardTbl.toNat (4 * (k + m)) →
      (¬fits d → fails .bus) ∧ (fits d → (∃ j < k, ¬fits j) → fails .bus) ∧
      (fits d → (∀ j < k, fits j) →
        RowRule .lincombId (fun s => [s.operands.coefRegion, s.operands.tableRegion])
          (fun s => List.range s.operands.ck) s))

/-! ## Encode and decode -/

/-- Shard sh lies in populated DMEM. -/
def Sys2Proof.Machine.State.ShardFits (s : State) (sh : Nat) : Prop :=
  s.Fits (s.operands.shardAddr s.dmem sh) s.operands.len

/-- The table and every shard lie in populated DMEM: the checks that ENCODE and DECODE share. -/
def Sys2Proof.Machine.State.ShardsFit (s : State) : Prop :=
  s.Fits s.operands.params.shardTbl.toNat (4 * (s.operands.ck + s.operands.cm)) ∧
    ∀ sh < s.operands.ck + s.operands.cm, s.ShardFits sh

/-- C[i][j], the Cauchy matrix as it stands in DMEM (44_codec.md, opening paragraph). -/
def Sys2Proof.Machine.State.cauchyAt (s : State) (i j : Nat) : Byte :=
  s.dmem.read (s.operands.coder.ws.toNat + 2 * s.operands.ck ^ 2 + 2 * s.operands.ck + i * s.operands.ck + j)

/-- Row i of the Cauchy matrix in DMEM has a nonzero entry. -/
def Sys2Proof.Machine.State.RowNonzero (s : State) (i : Nat) : Prop :=
  ∃ j < s.operands.ck, s.cauchyAt i j ≠ 0#8

/-- Byte n of coding shard i in `mem` is the sum over j of C[i][j] times byte n of data shard j in `mem`, with the matrix and
the addresses of state s. -/
def Sys2Proof.Machine.State.CodingByteIn (s : State) (mem : Memory) (i n : Nat) : Prop :=
  mem.read (s.operands.shardAddr s.dmem (s.operands.ck + i) + n) =
    gfSum ((List.range s.operands.ck).map fun j =>
      gmul (s.cauchyAt i j) (mem.read (s.operands.shardAddr s.dmem j + n)))

/-- Byte n of coding shard i in `mem` is what it is in s. -/
def Sys2Proof.Machine.State.CodingByteKept (s : State) (mem : Memory) (i n : Nat) : Prop :=
  mem.read (s.operands.shardAddr s.dmem (s.operands.ck + i) + n) =
    s.dmem.read (s.operands.shardAddr s.dmem (s.operands.ck + i) + n)

/-- ENCODE (44_codec.md R170): NOT_CONFIGURED, then BUS; else success. No byte outside the coding shards with a nonzero Cauchy
row changes, and without an overlap each of their bytes is the combination of the data shards, which keep their bytes; and
the footprint reads the table, the Cauchy matrix and the data shards and writes those coding shards, and it overlaps exactly
if one of the latter shares a byte with another of them or with what is read (20_memory.md R79). -/
def Obligations.EncodeFillsTheCodingShards : Prop :=
  ∀ s : State, let o := s.operands
    (o.coder.valid = false → exec .encode s = .next (s.doneWith .notConfigured s.dmem 0)) ∧
    (o.coder.valid = true → ¬s.ShardsFit → exec .encode s = .next (s.doneWith .bus s.dmem 0)) ∧
    (o.coder.valid = true → s.ShardsFit →
      (∀ a, inRegions (s.footprint .encode).reads a = true ↔
        ((o.params.shardTbl.toNat ≤ a ∧ a < o.params.shardTbl.toNat + 4 * (o.ck + o.cm)) ∨
          ((o.coder.ws.toNat + 2 * o.ck ^ 2 + 2 * o.ck ≤ a) ∧ a < o.coder.ws.toNat + 2 * o.ck ^ 2 + 2 * o.ck + o.ck * o.cm) ∨
          ∃ j < o.ck, (o.shardRegion s.dmem j).contains a = true)) ∧
      (∀ a, inRegions (s.footprint .encode).writes a = true ↔
        ∃ i < o.cm, s.RowNonzero i ∧ (o.shardRegion s.dmem (o.ck + i)).contains a = true) ∧
      ((s.footprint .encode).overlaps = false ↔
        (∀ a, ¬(inRegions (s.footprint .encode).reads a = true ∧ inRegions (s.footprint .encode).writes a = true)) ∧
        (∀ i < o.cm, ∀ j < i, s.RowNonzero i → s.RowNonzero j → ∀ a,
          ¬((o.shardRegion s.dmem (o.ck + i)).contains a = true ∧ (o.shardRegion s.dmem (o.ck + j)).contains a = true))) ∧
      ∃ mem draws, exec .encode s = .next (s.doneWith .none mem draws) ∧
      (∀ a, (∀ i < o.cm, s.RowNonzero i → (o.shardRegion s.dmem (o.ck + i)).contains a = false) →
        mem.read a = s.dmem.read a) ∧
      ((s.footprint .encode).overlaps = false → draws = 0 ∧
        (∀ i < o.cm, s.RowNonzero i → ∀ n < o.len, s.CodingByteIn mem i n) ∧
        (∀ j < o.ck, ∀ n < o.len, mem.read (o.shardAddr s.dmem j + n) = s.dmem.read (o.shardAddr s.dmem j + n))))

/-- The number of erased shards among 0..k+m-1. -/
def Sys2Proof.Machine.State.erasures (s : State) : Nat :=
  ((List.range (s.operands.ck + s.operands.cm)).filter fun i => s.operands.params.erased i).length

/-- The checks of DECODE before the inversion pass (44_codec.md R171). -/
def Sys2Proof.Machine.State.DecodeRuns (s : State) : Prop :=
  s.operands.coder.valid = true ∧ s.erasures ≤ s.operands.cm ∧ s.ShardsFit

/-- DECODE's errors before the inversion, in order: NOT_CONFIGURED, ERASURES, BUS; none of them changes a DMEM byte (44_codec.md
R171; 60_exceptions.md R193). -/
def Obligations.DecodeRefusesInOrder : Prop :=
  ∀ s : State, let o := s.operands
    (o.coder.valid = false → exec .decode s = .next (s.doneWith .notConfigured s.dmem 0)) ∧
    (o.coder.valid = true → o.cm < s.erasures → exec .decode s = .next (s.doneWith .erasures s.dmem 0)) ∧
    (o.coder.valid = true → s.erasures ≤ o.cm → ¬s.ShardsFit →
      exec .decode s = .next (s.doneWith .bus s.dmem 0))

/-- The addresses of the three scratch regions `tmpmat`, `dm_ids` and `decoding_matrix`, which stand one after the other from
CODER_WS on (41_coder.md R141); DECODE uses them if a data shard is erased. -/
def Sys2Proof.Machine.State.DecodeScratch (s : State) (a : Nat) : Prop :=
  (∃ i < s.operands.ck, s.operands.params.erased i = true) ∧ s.operands.coder.ws.toNat ≤ a ∧
    a < s.operands.coder.ws.toNat + (2 * s.operands.ck ^ 2 + s.operands.ck)

/-- The footprint of a DECODE past its checks (44_codec.md R179): it reads the table, the shards it needs, and, if some byte is
in FP.W, the Cauchy matrix (log 13: when DECODE "writes anything"); it writes the erased shards and, with an erased data
shard, the scratch regions; and it overlaps exactly if a written byte is read or lies in two erased shards or in an erased
shard and the scratch regions (20_memory.md R79). -/
def Obligations.DecodeFootprintIsThatOfItsRule : Prop :=
  ∀ s : State, let o := s.operands
    let fp := s.footprint .decode
    let inShard := fun sh a => o.shardAddr s.dmem sh ≤ a ∧ a < o.shardAddr s.dmem sh + o.len
    s.DecodeRuns →
    (∀ a, inRegions fp.reads a = true ↔
      ((o.params.shardTbl.toNat ≤ a ∧ a < o.params.shardTbl.toNat + 4 * (o.ck + o.cm)) ∨
        ((∃ b, inRegions fp.writes b = true) ∧ o.coder.ws.toNat + 2 * o.ck ^ 2 + 2 * o.ck ≤ a ∧
          a < o.coder.ws.toNat + 2 * o.ck ^ 2 + 2 * o.ck + o.ck * o.cm) ∨
        ∃ sh < o.ck + o.cm, o.params.erased sh = false ∧
          (((∃ i < o.ck, o.params.erased i = true) ∧ sh ∈ o.survivors) ∨
            (sh < o.ck ∧ ∃ i < o.cm, o.params.erased (o.ck + i) = true)) ∧ inShard sh a)) ∧
    (∀ a, inRegions fp.writes a = true ↔
      ((∃ sh < o.ck + o.cm, o.params.erased sh = true ∧ inShard sh a) ∨ s.DecodeScratch a)) ∧
    (fp.overlaps = false ↔
      (∀ a, ¬(inRegions fp.reads a = true ∧ inRegions fp.writes a = true)) ∧
      (∀ sh < o.ck + o.cm, ∀ q < sh, o.params.erased sh = true → o.params.erased q = true → ∀ a,
        ¬(inShard sh a ∧ inShard q a)) ∧
      (∀ sh < o.ck + o.cm, o.params.erased sh = true → ∀ a, ¬(inShard sh a ∧ s.DecodeScratch a)))

/-- DECODE with no erased data shard (44_codec.md R172, R177, R178): the workspace is not written, no byte outside the erased
coding shards changes, and without an overlap each erased coding shard is the combination of the data shards, or keeps its
bytes if its Cauchy row is all zero (43_lincomb.md R161); and with no erasure at all DMEM is unchanged. -/
def Obligations.DecodeWithoutErasedDataRebuildsCodingOnly : Prop :=
  ∀ s : State, let o := s.operands
    s.DecodeRuns → (∀ i < o.ck, o.params.erased i = false) →
    ((∀ i < o.cm, o.params.erased (o.ck + i) = false) → exec .decode s = .next (s.doneWith .none s.dmem 0)) ∧
    ∃ mem draws, exec .decode s = .next (s.doneWith .none mem draws) ∧
      (∀ a, (∀ i < o.cm, o.params.erased (o.ck + i) = true → (o.shardRegion s.dmem (o.ck + i)).contains a = false) →
        mem.read a = s.dmem.read a) ∧
      ((s.footprint .decode).overlaps = false → draws = 0 ∧
        ∀ i < o.cm, o.params.erased (o.ck + i) = true → ∀ n < o.len,
          (s.RowNonzero i → s.CodingByteIn mem i n) ∧ (¬s.RowNonzero i → s.CodingByteKept mem i n))

/-- DECODE whose survivor matrix is singular (44_codec.md R175): SINGULAR, with `dm_ids` written and, if no regions overlap, no
byte outside the three scratch regions changed, so no shard is written. -/
def Obligations.DecodeSingularWritesNoShard : Prop :=
  ∀ s : State, let o := s.operands
    s.DecodeRuns → (∃ i < o.ck, o.params.erased i = true) → invertMatrix o.ck (o.tmat s.dmem) = none →
    ∃ mem draws, exec .decode s = .next (s.doneWith .singular mem draws) ∧
      SameOutside (s.footprint .decode).writes s.dmem mem ∧
      ((s.footprint .decode).overlaps = false →
        (∀ p < o.ck, mem.read (o.coder.ws.toNat + o.ck ^ 2 + p) = BitVec.ofNat 8 (o.survivors.getD p 0)) ∧
        SameOutside [{ base := o.coder.ws.toNat, len := 2 * o.ck ^ 2 + o.ck }] s.dmem mem)

/-- DECODE with erased data and an invertible survivor matrix (44_codec.md R173-R177): without an overlap the workspace holds
the identity, the survivors and the inverse D; each erased data shard is row i of D over the survivors; each erased coding
shard is its Cauchy row over the data shards as they then stand, or keeps its bytes if that row is all zero (43_lincomb.md
R161); and no byte outside FP.W changes, overlap or not. -/
def Obligations.DecodeRebuildsTheErasedShards : Prop :=
  ∀ (s : State) (d : Matrix), let o := s.operands
    s.DecodeRuns → (∃ i < o.ck, o.params.erased i = true) → invertMatrix o.ck (o.tmat s.dmem) = some d →
    ∃ mem draws, exec .decode s = .next (s.doneWith .none mem draws) ∧
      SameOutside (s.footprint .decode).writes s.dmem mem ∧
      ((s.footprint .decode).overlaps = false → draws = 0 ∧
        (∀ p < o.ck, mem.read (o.coder.ws.toNat + o.ck ^ 2 + p) = BitVec.ofNat 8 (o.survivors.getD p 0)) ∧
        (∀ r < o.ck, ∀ c < o.ck,
          mem.read (o.coder.ws.toNat + r * o.ck + c) = (if r = c then 1#8 else 0#8) ∧
          mem.read (o.coder.ws.toNat + o.ck ^ 2 + o.ck + r * o.ck + c) = matrixEntry d r c) ∧
        (∀ i < o.ck, o.params.erased i = true → (∃ p < o.ck, matrixEntry d i p ≠ 0#8) → ∀ n < o.len,
          mem.read (o.shardAddr s.dmem i + n) = gfSum ((List.range o.ck).map fun p =>
            gmul (matrixEntry d i p) (s.dmem.read (o.shardAddr s.dmem (o.survivors.getD p 0) + n)))) ∧
        (∀ i < o.cm, o.params.erased (o.ck + i) = true → ∀ n < o.len,
          (s.RowNonzero i → s.CodingByteIn mem i n) ∧ (¬s.RowNonzero i → s.CodingByteKept mem i n)))

/-- SELECT_SURVIVORS (44_codec.md R173): with at most m erasures the survivors are k indices below k+m, ascending, none erased,
and every other index that is not erased comes after all of them. -/
def Obligations.SurvivorsAreTheFirstKPresentShards : Prop :=
  ∀ s : State, let o := s.operands
    s.erasures ≤ o.cm →
    o.survivors.length = o.ck ∧ o.survivors.Pairwise (· < ·) ∧
    (∀ sh ∈ o.survivors, sh < o.ck + o.cm ∧ o.params.erased sh = false) ∧
    (∀ sh < o.ck + o.cm, o.params.erased sh = false → sh ∉ o.survivors → ∀ q ∈ o.survivors, q < sh)

/-- The recovery guarantee (44_codec.md R181). `orig sh n` is byte n of the original shard sh. R181 concludes for every shard;
a shard that is not erased and that DECODE does not read is in no listed region, so the statement asks that it shares no byte
with FP.W (log 21). -/
def Obligations.DecodeRecoversTheOriginalShards : Prop :=
  ∀ (s : State) (orig : Nat → Nat → Byte), let o := s.operands
    s.DecodeRuns → 1 ≤ o.ck → o.ck + o.cm ≤ 256 →
    (∀ i < o.cm, ∀ j < o.ck, s.cauchyAt i j = ginv (BitVec.ofNat 8 i ^^^ BitVec.ofNat 8 (o.cm + j))) →
    (s.footprint .decode).overlaps = false →
    (∀ i < o.cm, ∀ n < o.len, orig (o.ck + i) n =
      gfSum ((List.range o.ck).map fun j => gmul (s.cauchyAt i j) (orig j n))) →
    (∀ sh < o.ck + o.cm, o.params.erased sh = false → ∀ n < o.len,
      s.dmem.read (o.shardAddr s.dmem sh + n) = orig sh n) →
    ∃ mem, exec .decode s = .next (s.doneWith .none mem 0) ∧
      ∀ sh < o.ck + o.cm,
        (o.params.erased sh = true ∨ o.readsShard sh = true ∨
          ∀ w ∈ (s.footprint .decode).writes, (o.shardRegion s.dmem sh).meets w = false) →
        ∀ n < o.len, mem.read (o.shardAddr s.dmem sh + n) = orig sh n

/-- DECODE ignores every erasure bit at an index of k+m or more: two states that differ only in such bits have the same outcome
but for those registers (10_state.md R45; 44_codec.md R178). The erasure pattern is E[i] = ERASURE(i >> 5)[i & 31]. -/
def Obligations.DecodeIgnoresErasureBitsBeyondTheShards : Prop :=
  (∀ (p : Params) (b : Nat), b < 32 →
    p.erased b = p.erasure0.getLsbD b ∧ p.erased (32 + b) = p.erasure1.getLsbD b ∧
    p.erased (64 + b) = p.erasure2.getLsbD b ∧ p.erased (96 + b) = p.erasure3.getLsbD b ∧
    p.erased (128 + b) = p.erasure4.getLsbD b ∧ p.erased (160 + b) = p.erasure5.getLsbD b ∧
    p.erased (192 + b) = p.erasure6.getLsbD b ∧ p.erased (224 + b) = p.erasure7.getLsbD b) ∧
  ∀ (s : State) (r : Running) (p : Params), s.running = some r →
    { r.snap.operands.params with
      erasure0 := p.erasure0, erasure1 := p.erasure1, erasure2 := p.erasure2, erasure3 := p.erasure3,
      erasure4 := p.erasure4, erasure5 := p.erasure5, erasure6 := p.erasure6, erasure7 := p.erasure7 } = p →
    (∀ i < s.operands.ck + s.operands.cm, p.erased i = r.snap.operands.params.erased i) →
    exec .decode { s with running := some { r with snap := { r.snap with
      operands := { r.snap.operands with params := p } } } } = exec .decode s

/-! ## All commands -/

/-- "A command never writes a DMEM byte outside its FP.W" (20_memory.md R89), for every command and every state. -/
def Obligations.NoCommandWritesOutsideItsFootprint : Prop :=
  ∀ (i : Instr) (s t : State), exec i s = .next t → SameOutside (s.footprint i).writes s.dmem t.dmem

/-- A command writes none of the parameter registers, nor CTRL, OVERRUN, host_race or the host's side; only CONFIG writes the
latched coder (10_state.md R57, R52). -/
def Obligations.CommandsKeepParametersAndControl : Prop :=
  ∀ (i : Instr) (s t : State), exec i s = .next t →
    t.params = s.params ∧ t.irqEn = s.irqEn ∧ t.status.overrun = s.status.overrun ∧ t.hostRace = s.hostRace ∧
    t.memBytes = s.memBytes ∧ t.rstLow = s.rstLow ∧ t.aborted = s.aborted ∧
    t.abortedCommand = s.abortedCommand ∧ t.schedule = s.schedule ∧
    t.portData = s.portData ∧ t.dmemData = s.dmemData ∧ (i ≠ .config → t.coder = s.coder)

/-- RESULT holds the byte written by the last successful GFMUL or GFINV: no other command writes it, a failed GFINV leaves it,
reads return it in [7:0] at offset 0x04C, and it is 0 at reset (10_state.md R44). -/
def Obligations.ResultIsWrittenOnlyByScalarCommands : Prop :=
  (∀ (i : Instr) (s t : State), exec i s = .next t → i ≠ .gfmul → i ≠ .gfinv → t.result = s.result) ∧
  (∀ s t : State, exec .gfinv s = .next t → t.status.err = true → t.result = s.result) ∧
  (∀ s t : State, exec .gfmul s = .next t → t.result = gmul s.operands.params.opa s.operands.params.opb) ∧
  (∀ s t : State, exec .gfinv s = .next t → t.status.err = false → gmul t.result s.operands.params.opa = 1#8) ∧
  (∀ s : State, (s.readReg .result).toNat = s.result.toNat ∧ ∀ v, s.writeReg .result v = s) ∧
  State.reset.result = 0#8 ∧ registerAt 0x04C#12 = some .result

/-- The state left by a command that fails with a code other than SINGULAR: no DMEM byte, RESULT, CODER_K, CODER_M or CODER_WS
has changed, and CFG_VALID only by CONFIG, which clears it (60_exceptions.md R202). -/
def Obligations.FailedCommandsChangeOnlyStatus : Prop :=
  ∀ (i : Instr) (s t : State), exec i s = .next t → t.status.err = true →
    t.result = s.result ∧ t.coder.k = s.coder.k ∧ t.coder.m = s.coder.m ∧ t.coder.ws = s.coder.ws ∧
    t.params = s.params ∧ t.status.done = true ∧ t.running = none ∧
    (t.coder.valid = if i = .config then false else s.coder.valid) ∧
    (t.status.errCode ≠ .singular → t.dmem = s.dmem ∧ t.freeCount = s.freeCount)

/-- The codes each command can report, and BAD_CMD for every illegal word (60_exceptions.md R192). -/
def Obligations.CommandsReportOnlyTheirCodes : Prop :=
  (∀ (s : State) (r : Running), s.running = some r → s.rstLow = false → (∀ i, decode r.snap.word ≠ .instr i) →
    ∃ t, s.engineTurn = .next t ∧ t.status.errCode = .badCmd) ∧
  ∀ (i : Instr) (s t : State), exec i s = .next t → t.status.errCode ∈ (match i with
    | .gfmul => [ErrCode.none]
    | .gfinv => [.none, .invZero]
    | .rmul => [.none, .bus]
    | .rmulacc => [.none, .bus]
    | .rxor => [.none, .bus]
    | .config => [.none, .config, .bus]
    | .matinv => [.none, .param, .bus, .singular]
    | .lincomb => [.none, .notConfigured, .param, .bus]
    | .lincombId => [.none, .notConfigured, .param, .bus]
    | .encode => [.none, .notConfigured, .bus]
    | .decode => [.none, .notConfigured, .bus, .erasures, .singular])

/-- A command that fails with any code but SINGULAR has an empty FP.W (60_exceptions.md R195). -/
def Obligations.FailingCommandsHaveAnEmptyWriteFootprint : Prop :=
  ∀ (i : Instr) (s t : State), exec i s = .next t → t.status.err = true → t.status.errCode ≠ .singular →
    (s.footprint i).writes = []

/-- The overlap test of the model is the overlap rule's: some byte lies in a written region and in a read region, or in two
written regions at different places of the list (20_memory.md R79). -/
def Obligations.OverlapMeansASharedByte : Prop :=
  ∀ fp : Footprint, fp.overlaps = true ↔ ∃ a,
    (inRegions fp.writes a = true ∧ inRegions fp.reads a = true) ∨
    (∃ p q : Nat, p < q ∧ ∃ (rp rq : Region), fp.writes[p]? = some rp ∧ fp.writes[q]? = some rq ∧
      rp.contains a = true ∧ rq.contains a = true)

/-- A host write outside FP.R ∪ FP.W "takes effect; the command does not see it": the command's outcome is the same, with that
one byte written (20_memory.md R80, R85). -/
def Obligations.HostWriteOutsideTheFootprintIsUnseen : Prop :=
  ∀ (i : Instr) (s t : State) (a : Nat) (v : Byte), s.dmem.wf = true →
    inRegions ((s.footprint i).reads ++ (s.footprint i).writes) a = false → exec i s = .next t →
    exec i { s with dmem := s.dmem.write a v } = .next { t with dmem := t.dmem.write a v }

/-- A write to a parameter register while BUSY "changes the register but not the running command" and sets no OVERRUN
(10_state.md R49). -/
def Obligations.ParameterWritesDoNotReachTheRunningCommand : Prop :=
  ∀ (i : Instr) (s t : State) (r : Running) (p : Params), s.running = some r → exec i s = .next t →
    exec i (s.setParams p) = .next (t.setParams p)

/-! ## Invariants -/

/-- Every step keeps the invariant, from every state that meets it. -/
def Obligations.StepKeepsTheInvariant : Prop :=
  ∀ s t : State, s.Inv → step s = .next t → t.Inv

/-- The machine right after reset meets the invariant (its model's own values are those of logs 1, 2, 3, 4, 6, 14 and 22). -/
def Obligations.ResetMeetsTheInvariant : Prop := State.reset.Inv

/-- While no race has happened, the footprint latched at launch is the one the command's rule gives in the present DMEM, so
checking overlap at completion is checking it at launch (log 12): every step from a state that meets the invariant keeps
this (10_state.md R53; 60_exceptions.md R195). -/
def Obligations.RunningFootprintStaysThatOfTheCommand : Prop :=
  ∀ s t : State, s.Inv → step s = .next t → t.hostRace = false →
    (∀ r, s.running = some r → r.fp = wordFootprint r.snap.word s.memBytes r.snap.operands s.dmem) →
    ∀ r, t.running = some r → r.fp = wordFootprint r.snap.word t.memBytes r.snap.operands t.dmem

/-! ## The register port, launch and status -/

/-- A CMD write while IDLE is a launch: the snapshot holds the word, every parameter register and the latched coder, DONE, ERR
and ERRCODE are cleared, the phase is BUSY, the footprint is that of the command, and nothing else changes (60_exceptions.md
R195; 10_state.md R28, R51). -/
def Obligations.CmdWriteWhileIdleLaunches : Prop :=
  ∀ (s : State) (w : Word), s.running = none →
    s.writeReg .cmd w = { s with
      status := { s.status with done := false, err := false, errCode := .none }
      running := some {
        snap := { word := w, operands := { params := s.params, coder := s.coder } }
        fp := wordFootprint w s.memBytes { params := s.params, coder := s.coder } s.dmem } } ∧
    (s.writeReg .cmd w).busy = true ∧ (s.writeReg .cmd w).operands = { params := s.params, coder := s.coder }

/-- A CMD write while BUSY is dropped and sets OVERRUN; nothing else changes, neither a launch nor a completion clears OVERRUN,
and a host write of 1 or a reset does (60_exceptions.md R197). -/
def Obligations.CmdWriteWhileBusyIsDroppedWithOverrun : Prop :=
  (∀ (s : State) (r : Running) (w : Word), s.running = some r →
    s.writeReg .cmd w = { s with status := { s.status with overrun := true } }) ∧
  (∀ (s : State) (w : Word), s.running = none → (s.writeReg .cmd w).status.overrun = s.status.overrun) ∧
  (∀ s t : State, s.engineTurn = .next t → t.status.overrun = s.status.overrun) ∧
  (∀ (s : State) (v : Word), (s.writeReg .status v).status.overrun = (s.status.overrun && !v.getLsbD 3)) ∧
  (∀ s : State, s.resetEvent.status.overrun = false)

/-- A host write of v to STATUS (10_state.md R27): DONE, ERR with ERRCODE, and OVERRUN are cleared where v has a 1, and nothing
else changes, in every phase. -/
def Obligations.StatusWriteClearsWhereOne : Prop :=
  ∀ (s : State) (v : Word), ∃ st, s.writeReg .status v = { s with status := st } ∧
    st.done = (if v.getLsbD 1 then false else s.status.done) ∧
    st.err = (if v.getLsbD 2 then false else s.status.err) ∧
    st.errCode = (if v.getLsbD 2 then .none else s.status.errCode) ∧
    st.overrun = (if v.getLsbD 3 then false else s.status.overrun)

/-- The bits of STATUS (10_state.md R26) and the numbers of the error codes (60_exceptions.md R191). -/
def Obligations.StatusWordHasTheBitsOfItsFields : Prop :=
  (∀ s : State, (s.readReg .status).toNat =
    s.busy.toNat + 2 * s.status.done.toNat + 4 * s.status.err.toNat + 8 * s.status.overrun.toNat +
      16 * s.coder.valid.toNat + 256 * s.status.errCode.bits.toNat) ∧
  ErrCode.none.bits = 0#4 ∧ ErrCode.badCmd.bits = 1#4 ∧ ErrCode.config.bits = 2#4 ∧ ErrCode.notConfigured.bits = 3#4 ∧
  ErrCode.param.bits = 4#4 ∧ ErrCode.bus.bits = 5#4 ∧ ErrCode.invZero.bits = 6#4 ∧ ErrCode.erasures.bits = 7#4 ∧
  ErrCode.singular.bits = 8#4

/-- The register port (10_state.md R21): offset bits [1:0] are ignored, and an offset the map does not list reads 0 and ignores
writes; every multiple of 4 from 0x000 to 0x078 reaches the register that 10_state.md R23 lists there. A host access while rst_n is high goes through the port. -/
def Obligations.PortIgnoresLowOffsetBitsAndReservedOffsets : Prop :=
  (∀ (s : State) (o q : BitVec 12) (v : Word), o >>> 2 = q >>> 2 →
    s.readOffset o = s.readOffset q ∧ s.writeOffset o v = s.writeOffset q v) ∧
  (∀ (s : State) (o : BitVec 12) (v : Word), 0x07C ≤ o.toNat → s.readOffset o = 0#32 ∧ s.writeOffset o v = s) ∧
  (∀ row ∈
    [(0x000#12, Reg.id), (0x004#12, .ctrl), (0x008#12, .status), (0x00C#12, .cmd), (0x010#12, .k), (0x014#12, .m),
     (0x018#12, .wsBase), (0x01C#12, .wsSize), (0x020#12, .shardTbl), (0x024#12, .size), (0x028#12, .src), (0x02C#12, .dst),
     (0x030#12, .scalar), (0x034#12, .coefPtr), (0x038#12, .idsPtr), (0x03C#12, .destId), (0x040#12, .matN),
     (0x044#12, .opa), (0x048#12, .opb), (0x04C#12, .result), (0x050#12, .erasure0), (0x054#12, .erasure1),
     (0x058#12, .erasure2), (0x05C#12, .erasure3), (0x060#12, .erasure4), (0x064#12, .erasure5), (0x068#12, .erasure6),
     (0x06C#12, .erasure7), (0x070#12, .coderK), (0x074#12, .coderM), (0x078#12, .coderWs)],
    ∀ (s : State) (v : Word), s.readOffset row.1 = s.readReg row.2 ∧ s.writeOffset row.1 v = s.writeReg row.2 v) ∧
  (∀ (s : State) (o : BitVec 12) (v : Word), s.rstLow = false →
    s.hostTurn (.regWrite o v) = .next (s.writeOffset o v) ∧
    s.hostTurn (.regRead o) = .next { s with portData := s.readOffset o })

/-- A parameter register, and CTRL, read back what was written, cut to the bits of the field (10_state.md R22, R25, R29-R45),
and every other register but WS_SIZE, which follows K and M, reads as before. Each register reads the field of its name: a
parameter register that of the parameters a launch snapshots, CTRL IRQ_EN, and CODER_K, CODER_M and CODER_WS the latched
coder (R46-R48, R51). -/
def Obligations.WritableRegistersKeepTheirFieldBits : Prop :=
  (∀ s : State, (s.readReg .ctrl).toNat = s.irqEn.toNat ∧ (s.readReg .k).toNat = s.params.k.toNat ∧
    (s.readReg .m).toNat = s.params.m.toNat ∧ s.readReg .wsBase = s.params.wsBase ∧
    s.readReg .shardTbl = s.params.shardTbl ∧ s.readReg .size = s.params.size ∧ s.readReg .src = s.params.src ∧
    s.readReg .dst = s.params.dst ∧ (s.readReg .scalar).toNat = s.params.scalar.toNat ∧
    s.readReg .coefPtr = s.params.coefPtr ∧ s.readReg .idsPtr = s.params.idsPtr ∧
    (s.readReg .destId).toNat = s.params.destId.toNat ∧ (s.readReg .matN).toNat = s.params.matN.toNat ∧
    (s.readReg .opa).toNat = s.params.opa.toNat ∧ (s.readReg .opb).toNat = s.params.opb.toNat ∧
    s.readReg .erasure0 = s.params.erasure0 ∧ s.readReg .erasure1 = s.params.erasure1 ∧
    s.readReg .erasure2 = s.params.erasure2 ∧ s.readReg .erasure3 = s.params.erasure3 ∧
    s.readReg .erasure4 = s.params.erasure4 ∧ s.readReg .erasure5 = s.params.erasure5 ∧
    s.readReg .erasure6 = s.params.erasure6 ∧ s.readReg .erasure7 = s.params.erasure7 ∧
    (s.readReg .coderK).toNat = s.coder.k.toNat ∧ (s.readReg .coderM).toNat = s.coder.m.toNat ∧
    s.readReg .coderWs = s.coder.ws) ∧
  ∀ (row : Reg × Nat), row ∈
    [(Reg.ctrl, 1), (Reg.k, 9), (Reg.m, 9), (Reg.wsBase, 32), (Reg.shardTbl, 32), (Reg.size, 32), (Reg.src, 32),
     (Reg.dst, 32), (Reg.scalar, 8), (Reg.coefPtr, 32), (Reg.idsPtr, 32), (Reg.destId, 8), (Reg.matN, 9),
     (Reg.opa, 8), (Reg.opb, 8), (Reg.erasure0, 32), (Reg.erasure1, 32), (Reg.erasure2, 32), (Reg.erasure3, 32),
     (Reg.erasure4, 32), (Reg.erasure5, 32), (Reg.erasure6, 32), (Reg.erasure7, 32)] →
    ∀ (s : State) (v : Word),
      ((s.writeReg row.1 v).readReg row.1).toNat = v.toNat % 2 ^ row.2 ∧
      (∀ q : Reg, q ≠ row.1 → q ≠ .wsSize → (s.writeReg row.1 v).readReg q = s.readReg q) ∧
      (s.writeReg row.1 v).running = s.running ∧ (s.writeReg row.1 v).dmem = s.dmem

/-- Writes to the read-only registers are ignored, ID reads 0x45430001 and CMD reads 0 (10_state.md R22, R24, R28). -/
def Obligations.ReadOnlyRegistersIgnoreWrites : Prop :=
  ∀ (s : State) (v : Word),
    (∀ r ∈ [Reg.id, Reg.wsSize, Reg.result, Reg.coderK, Reg.coderM, Reg.coderWs], s.writeReg r v = s) ∧
    s.readReg .id = 0x45430001#32 ∧ s.readReg .cmd = 0#32

/-- `irq` is CTRL.IRQ_EN AND STATUS.DONE: a completion raises it if enabled, a host write of 1 to DONE, a write of 0 to IRQ_EN,
a launch and a reset lower it (60_exceptions.md R196). -/
def Obligations.IrqFollowsEnableAndDone : Prop :=
  (∀ s : State, s.irq = (s.irqEn && s.status.done)) ∧
  (∀ s t : State, s.busy = true → s.rstLow = false → s.engineTurn = .next t → t.irq = s.irqEn) ∧
  (∀ (s : State) (w : Word), s.running = none → (s.writeReg .cmd w).irq = false) ∧
  (∀ (s : State) (v : Word), v.getLsbD 1 = true → (s.writeReg .status v).irq = false) ∧
  (∀ (s : State) (v : Word), (s.writeReg .ctrl v).irq = (v.getLsbD 0 && s.status.done)) ∧
  (∀ s : State, s.resetEvent.irq = false)

/-! ## DMEM, races and reset -/

/-- InRange and Region, with a region of length 0 in range at any base and with no byte in it (20_memory.md R71). -/
def Obligations.RangePredicateIsUnbounded : Prop :=
  (∀ memBytes b len : Nat, inRange memBytes b len = true ↔ (len = 0 ∨ b + len ≤ memBytes)) ∧
  (∀ (r : Region) (a : Nat), r.contains a = true ↔ (r.base ≤ a ∧ a < r.base + r.len)) ∧
  (∀ memBytes b : Nat, inRange memBytes b 0 = true ∧ ∀ a, ({ base := b, len := 0 } : Region).contains a = false)

/-- MemRead32 is little-endian (20_memory.md R74), and the address of shard i is the table's entry at T + 4i (R76). -/
def Obligations.ShardTableEntriesAreLittleEndian : Prop :=
  ∀ (mem : Memory) (a : Nat), (mem.read32 a).toNat =
    (mem.read a).toNat + 256 * (mem.read (a + 1)).toNat + 65536 * (mem.read (a + 2)).toNat +
      16777216 * (mem.read (a + 3)).toNat ∧
    ∀ (o : Operands) (i : Nat), o.params.shardTbl.toNat + 4 * i = a → o.shardAddr mem i = (mem.read32 a).toNat

/-- The host's DMEM accesses (20_memory.md R80, R83). At an address below MEM_BYTES a write while IDLE, or while BUSY outside
the footprint, stores the byte and no other byte changes; while BUSY in FP.R ∪ FP.W it sets host_race. A read in FP.W while
BUSY, or in what a reset under way has aborted (log 7), uses up a free draw; any other returns the current byte. At MEM_BYTES
or above no byte is populated: a write does nothing and a read returns a free draw (log 9), and the core goes on
(70_reset_and_hazards.md R229). -/
def Obligations.HostDmemAccessesFollowTheTable : Prop :=
  (∀ (s : State) (a : Word), a.toNat < s.memBytes →
    (∀ v : Byte, (∀ r, s.running = some r → inRegions (r.fp.reads ++ r.fp.writes) a.toNat = false) →
      ∃ mem, s.hostTurn (.memWrite a v) = .next { s with dmem := mem } ∧ mem.read a.toNat = v ∧
        ∀ b, b ≠ a.toNat → mem.read b = s.dmem.read b) ∧
    (∀ (v : Byte) (r : Running), s.running = some r → inRegions (r.fp.reads ++ r.fp.writes) a.toNat = true →
      ∃ t, s.hostTurn (.memWrite a v) = .next t ∧ t.hostRace = true) ∧
    ((∀ r, s.running = some r → inRegions r.fp.writes a.toNat = false) → inRegions s.aborted a.toNat = false →
      s.hostTurn (.memRead a) = .next { s with dmemData := s.dmem.read a.toNat }) ∧
    (∀ r : Running, s.running = some r → inRegions r.fp.writes a.toNat = true →
      ∃ v, s.hostTurn (.memRead a) = .next { s with dmemData := v, freeCount := s.freeCount + 1 }) ∧
    (inRegions s.aborted a.toNat = true →
      ∃ v, s.hostTurn (.memRead a) = .next { s with dmemData := v, freeCount := s.freeCount + 1 })) ∧
  (∀ (s : State) (a : Word), s.memBytes ≤ a.toNat →
    (∀ v : Byte, s.hostTurn (.memWrite a v) = .next s) ∧
    ∃ v, s.hostTurn (.memRead a) = .next { s with dmemData := v, freeCount := s.freeCount + 1 })

/-- "Nothing ever clears it: not a launch, not a completion, not a reset" (10_state.md R54): no command and no host operation
clears host_race; and from a state with host_race = 1 the model stops (log 8). -/
def Obligations.NothingClearsTheRaceFault : Prop :=
  (∀ (i : Instr) (s t : State), exec i s = .next t → t.hostRace = s.hostRace) ∧
  (∀ (op : HostOp) (s t : State), s.hostTurn op = .next t → s.hostRace = true → t.hostRace = true) ∧
  (∀ s : State, s.hostRace = true → step s = .fault .hostRace)

/-- On reset every register takes its reset value, ID reads 0x45430001 and every other register 0, the phase is IDLE, the coder
is cleared, irq is low, host_race and MEM_BYTES are kept, and that a command was aborted is recorded (10_state.md R60;
70_reset_and_hazards.md R220; log 22). -/
def Obligations.ResetGivesTheResetValues : Prop :=
  ∀ s : State, s.resetEvent.readReg .id = 0x45430001#32 ∧ (∀ r, r ≠ .id → s.resetEvent.readReg r = 0#32) ∧
    s.resetEvent.running = none ∧ s.resetEvent.coder = { valid := false, k := 0#9, m := 0#9, ws := 0#32 } ∧
    s.resetEvent.params = .reset ∧ s.resetEvent.irq = false ∧ s.resetEvent.hostRace = s.hostRace ∧
    s.resetEvent.memBytes = s.memBytes ∧ s.resetEvent.rstLow = false ∧
    s.resetEvent.abortedCommand = (s.abortedCommand || s.busy) ∧
    s.hostTurn .reset = .next s.resetEvent

/-- A reset leaves DMEM as it was, except FP.W of a command it aborts (70_reset_and_hazards.md R221; 10_state.md R61): with no
command running and no reset in progress no byte changes at all. -/
def Obligations.ResetKeepsDmemOutsideTheAbortedFootprint : Prop :=
  ∀ s : State, s.aborted = [] →
    (s.running = none → s.resetEvent.dmem = s.dmem) ∧
    (∀ r, s.running = some r → SameOutside r.fp.writes s.dmem s.resetEvent.dmem) ∧
    s.resetEvent.status = { done := false, err := false, overrun := false, errCode := .none }

/-- While rst_n is low the register port ignores writes, reads return 0, and the engine does nothing (70_reset_and_hazards.md
R220). -/
def Obligations.PortAndEngineAreDeadWhileResetIsLow : Prop :=
  ∀ s : State, s.rstLow = true →
    (∀ o v, s.hostTurn (.regWrite o v) = .next s) ∧
    (∀ o, s.hostTurn (.regRead o) = .next { s with portData := 0#32 }) ∧
    s.engineTurn = .next s
end

