-- ==== Sys2Proof/Laws/Gf.lean ====
section
/-! SUPPORT. The multiply loop as a linear map: how one doubling and the loop act on XORs. -/

namespace Sys2Proof.Machine

/-- Doubling is linear over XOR. -/
theorem gfDouble_xor (a b : Byte) : gfDouble (a ^^^ b) = gfDouble a ^^^ gfDouble b := by
  have key : ∀ x : Byte, gfDouble x = (x <<< 1) ^^^ (if x.getLsbD 7 then 0x1D#8 else 0#8) := by
    intro x; unfold gfDouble; split <;> simp
  rw [key, key, key, BitVec.getLsbD_xor, BitVec.shiftLeft_xor_distrib]
  have cancel : ∀ x y c : Byte, (x ^^^ c) ^^^ (y ^^^ c) = x ^^^ y := by
    intro x y c
    rw [show (x ^^^ c) ^^^ (y ^^^ c) = (x ^^^ y) ^^^ (c ^^^ c) by ac_rfl]
    simp
  cases a.getLsbD 7 <;> cases b.getLsbD 7
  · simp
  · simp [BitVec.xor_assoc]
  · simp only [Bool.true_bne, Bool.not_false, if_true, Bool.false_eq_true, if_false, BitVec.xor_zero]
    ac_rfl
  · simp [cancel]

@[simp] theorem gfDouble_zero : gfDouble 0#8 = 0#8 := by decide

/-- The accumulator of the loop is only added to. -/
theorem gmulLoop_acc (n : Nat) (a b p : Byte) : gmulLoop n a b p = p ^^^ gmulLoop n a b 0#8 := by
  induction n generalizing a b p with
  | zero => simp [gmulLoop]
  | succ n ih =>
    rw [gmulLoop, gmulLoop, ih, ih (p := if b.getLsbD 0 then 0#8 ^^^ a else 0#8)]
    split
    · simp [BitVec.xor_assoc]
    · simp

/-- The loop is linear in its first operand. -/
theorem gmulLoop_xor_left (n : Nat) (a a' b : Byte) :
    gmulLoop n (a ^^^ a') b 0#8 = gmulLoop n a b 0#8 ^^^ gmulLoop n a' b 0#8 := by
  induction n generalizing a a' b with
  | zero => simp [gmulLoop]
  | succ n ih =>
    simp only [gmulLoop]
    rw [gmulLoop_acc, gmulLoop_acc (p := if b.getLsbD 0 then 0#8 ^^^ a else 0#8),
      gmulLoop_acc (p := if b.getLsbD 0 then 0#8 ^^^ a' else 0#8), gfDouble_xor, ih]
    split
    · simp only [BitVec.zero_xor]
      ac_rfl
    · simp

/-- The loop on a zero first operand gives zero, as the early return does (40_field.md R120). -/
theorem gmulLoop_zero_left (n : Nat) (b : Byte) : gmulLoop n 0#8 b 0#8 = 0#8 := by
  induction n generalizing b with
  | zero => rfl
  | succ n ih => simp [gmulLoop, ih]

/-- The loop on a zero second operand gives zero (40_field.md R120). -/
theorem gmulLoop_zero_right (n : Nat) (a : Byte) : gmulLoop n a 0#8 0#8 = 0#8 := by
  induction n generalizing a with
  | zero => rfl
  | succ n ih => simp [gmulLoop, ih]

/-- "The early return for a zero operand gives the same value as the loop" (40_field.md R120). -/
theorem gmul_eq_loop (a b : Byte) : gmul a b = gmulLoop 8 a b 0#8 := by
  unfold gmul
  split
  · rename_i h
    rcases Bool.or_eq_true_iff.1 h with h | h
    · rw [eq_of_beq h, gmulLoop_zero_left]
    · rw [eq_of_beq h, gmulLoop_zero_right]
  · rfl

end Sys2Proof.Machine
end

