-- ==== Sys2Proof/Laws/Memory.lean ====
section
/-! SUPPORT. The laws of DMEM: reading after writing, runs of bytes, ANY, and the canonical form. Callers cite these and do
not unfold the operations. -/

namespace Sys2Proof.Machine

/-! ### One byte -/

theorem Memory.written?_write (mem : Memory) (a b : Nat) (v : Byte) :
    (mem.write a v).written? b = if b = a then some v else mem.written? b := by
  induction mem with
  | nil => simp [Memory.write, Memory.written?, eq_comm]
  | cons c rest ih =>
    unfold Memory.write
    by_cases h1 : a < c.1
    · rw [if_pos h1]
      simp [Memory.written?, eq_comm]
    · rw [if_neg h1]
      by_cases h2 : a = c.1
      · rw [if_pos h2]
        by_cases hb : b = a
        · simp [Memory.written?, hb]
        · rw [if_neg hb, Memory.written?, Memory.written?, if_neg (Ne.symm hb), if_neg (by omega)]
      · rw [if_neg h2]
        by_cases hc : c.1 = b
        · rw [Memory.written?, if_pos hc, if_neg (by omega), Memory.written?, if_pos hc]
        · rw [Memory.written?, if_neg hc, ih, Memory.written?, if_neg hc]

theorem Memory.read_write (mem : Memory) (a b : Nat) (v : Byte) :
    (mem.write a v).read b = if b = a then v else mem.read b := by
  unfold Memory.read
  rw [Memory.written?_write]
  split_ifs <;> simp

@[simp] theorem Memory.read_write_self (mem : Memory) (a : Nat) (v : Byte) : (mem.write a v).read a = v := by
  simp [Memory.read_write]

theorem Memory.read_write_of_ne (mem : Memory) {a b : Nat} (v : Byte) (h : b ≠ a) :
    (mem.write a v).read b = mem.read b := by
  simp [Memory.read_write, h]

/-! ### Runs of bytes -/

@[simp] theorem Memory.writeBytes_nil (mem : Memory) (a : Nat) : mem.writeBytes a [] = mem := rfl

theorem Memory.read_writeBytes (mem : Memory) (a b : Nat) (vs : List Byte) :
    (mem.writeBytes a vs).read b =
      if a ≤ b ∧ b < a + vs.length then vs.getD (b - a) 0#8 else mem.read b := by
  induction vs generalizing mem a with
  | nil =>
    rw [if_neg (by simp)]
    rfl
  | cons v vs ih =>
    simp only [Memory.writeBytes, ih, Memory.read_write, List.length_cons]
    by_cases h0 : b = a
    · subst h0; simp
    · by_cases h1 : a + 1 ≤ b ∧ b < a + 1 + vs.length
      · rw [if_pos h1, if_pos (by omega)]
        obtain ⟨d, rfl⟩ : ∃ d, b = a + 1 + d := ⟨b - (a + 1), by omega⟩
        rw [show a + 1 + d - (a + 1) = d by omega, show a + 1 + d - a = d + 1 by omega]
        rfl
      · rw [if_neg h1, if_neg h0, if_neg (by omega)]

theorem Memory.read_writeBytes_inside (mem : Memory) (a n : Nat) (vs : List Byte) (h : n < vs.length) :
    (mem.writeBytes a vs).read (a + n) = vs.getD n 0#8 := by
  rw [Memory.read_writeBytes, if_pos ⟨by omega, by omega⟩, show a + n - a = n by omega]

theorem Memory.read_writeBytes_outside (mem : Memory) (a b : Nat) (vs : List Byte) (h : b < a ∨ a + vs.length ≤ b) :
    (mem.writeBytes a vs).read b = mem.read b := by
  rw [Memory.read_writeBytes, if_neg (by omega)]

@[simp] theorem Memory.length_readBytes (mem : Memory) (a len : Nat) : (mem.readBytes a len).length = len := by
  simp [Memory.readBytes]

theorem Memory.getD_readBytes (mem : Memory) (a len n : Nat) (h : n < len) (d : Byte) :
    (mem.readBytes a len).getD n d = mem.read (a + n) := by
  simp [Memory.readBytes, List.getD_eq_getElem?_getD, h]

/-! ### Regions -/

theorem Region.contains_iff (r : Region) (a : Nat) : r.contains a = true ↔ r.base ≤ a ∧ a < r.base + r.len := by
  simp [Region.contains]

theorem Region.meets_iff (r q : Region) : r.meets q = true ↔ ∃ a, r.contains a = true ∧ q.contains a = true := by
  simp only [Region.meets, Region.contains, Bool.and_eq_true, decide_eq_true_eq]
  constructor
  · intro h
    rcases Nat.le_total r.base q.base with hb | hb
    · exact ⟨q.base, by omega, by omega⟩
    · exact ⟨r.base, by omega, by omega⟩
  · rintro ⟨a, h1, h2⟩
    omega

theorem inRegions_cons (r : Region) (rs : List Region) (a : Nat) :
    inRegions (r :: rs) a = (r.contains a || inRegions rs a) := rfl

@[simp] theorem inRegions_nil (a : Nat) : inRegions [] a = false := rfl

@[simp] theorem inRegions_append (rs qs : List Region) (a : Nat) :
    inRegions (rs ++ qs) a = (inRegions rs a || inRegions qs a) := by
  simp [inRegions]

theorem inRegions_eq_false_iff (rs : List Region) (a : Nat) :
    inRegions rs a = false ↔ ∀ r ∈ rs, r.contains a = false := by
  simp [inRegions]

/-! ### ANY -/

@[simp] theorem length_drawBytes (n len : Nat) : (drawBytes n len).length = len := by
  simp [drawBytes]

@[simp] theorem Memory.fillAny_nil (mem : Memory) (n : Nat) : mem.fillAny n [] = mem := rfl

@[simp] theorem drawCount_nil : drawCount [] = 0 := rfl

theorem Memory.fillAny_sameOutside (rs : List Region) (mem : Memory) (n : Nat) :
    SameOutside rs mem (mem.fillAny n rs) := by
  intro a h
  induction rs generalizing mem n with
  | nil => rfl
  | cons r rs ih =>
    rw [inRegions_cons, Bool.or_eq_false_iff] at h
    have hr := h.1
    simp only [Region.contains, Bool.and_eq_false_iff, decide_eq_false_iff_not] at hr
    rw [Memory.fillAny, ih _ _ h.2, Memory.read_writeBytes_outside]
    rw [length_drawBytes]
    omega

theorem SameOutside.refl (rs : List Region) (mem : Memory) : SameOutside rs mem mem := fun _ _ => rfl

theorem SameOutside.trans {rs : List Region} {m₁ m₂ m₃ : Memory} (h : SameOutside rs m₁ m₂)
    (h' : SameOutside rs m₂ m₃) : SameOutside rs m₁ m₃ := fun a ha => (h' a ha).trans (h a ha)

theorem SameOutside.mono {rs qs : List Region} {m₁ m₂ : Memory} (h : SameOutside rs m₁ m₂)
    (hs : ∀ r ∈ rs, r ∈ qs) : SameOutside qs m₁ m₂ := by
  intro a ha
  rw [inRegions_eq_false_iff] at ha
  exact h a ((inRegions_eq_false_iff _ _).2 fun r hr => ha r (hs r hr))

theorem Memory.writeBytes_sameOutside (mem : Memory) (a : Nat) (vs : List Byte) :
    SameOutside [{ base := a, len := vs.length }] mem (mem.writeBytes a vs) := by
  intro b hb
  apply Memory.read_writeBytes_outside
  simp [inRegions, Region.contains] at hb
  omega

/-! ### The canonical form -/

theorem Memory.wf_iff (mem : Memory) : mem.wf = true ↔ mem.Pairwise fun c d => c.1 < d.1 := by
  induction mem with
  | nil => simp [Memory.wf]
  | cons c rest ih =>
    cases rest with
    | nil => simp [Memory.wf]
    | cons d rest =>
      rw [Memory.wf, Bool.and_eq_true, decide_eq_true_eq, ih, List.pairwise_cons (a := c)]
      refine ⟨fun ⟨h, hp⟩ => ⟨?_, hp⟩, fun ⟨h, hp⟩ => ⟨h d (by simp), hp⟩⟩
      intro e he
      rcases List.mem_cons.1 he with rfl | he
      · exact h
      · exact h.trans ((List.pairwise_cons.1 hp).1 e he)

theorem Memory.mem_write {mem : Memory} {a : Nat} {v : Byte} {c : Host.Cell} (h : c ∈ mem.write a v) :
    c = (a, v) ∨ c ∈ mem := by
  induction mem with
  | nil => simpa [Memory.write] using h
  | cons d rest ih =>
    unfold Memory.write at h
    split_ifs at h with h1 h2
    · simpa using h
    · rcases List.mem_cons.1 h with h | h <;> simp [h]
    · rcases List.mem_cons.1 h with h | h
      · simp [h]
      · rcases ih h with h | h <;> simp [h]

/-- A write keeps the canonical form. -/
theorem Memory.wf_write (mem : Memory) (a : Nat) (v : Byte) (h : mem.wf = true) : (mem.write a v).wf = true := by
  rw [Memory.wf_iff] at h ⊢
  induction mem with
  | nil => simp [Memory.write]
  | cons c rest ih =>
    obtain ⟨hc, hr⟩ := List.pairwise_cons.1 h
    unfold Memory.write
    split_ifs with h1 h2
    · refine List.pairwise_cons.2 ⟨fun d hd => ?_, h⟩
      rcases List.mem_cons.1 hd with rfl | hd
      · exact h1
      · exact h1.trans (hc d hd)
    · exact List.pairwise_cons.2 ⟨fun d hd => by have := hc d hd; simp only; omega, hr⟩
    · refine List.pairwise_cons.2 ⟨fun d hd => ?_, ih hr⟩
      rcases Memory.mem_write hd with rfl | hd
      · simp only; omega
      · exact hc d hd

theorem Memory.wf_writeBytes (mem : Memory) (a : Nat) (vs : List Byte) (h : mem.wf = true) :
    (mem.writeBytes a vs).wf = true := by
  induction vs generalizing mem a with
  | nil => exact h
  | cons v vs ih => exact ih _ _ (Memory.wf_write mem a v h)

theorem Memory.wf_fillAny (rs : List Region) (mem : Memory) (n : Nat) (h : mem.wf = true) :
    (mem.fillAny n rs).wf = true := by
  induction rs generalizing mem n with
  | nil => exact h
  | cons r rs ih => exact ih _ _ (Memory.wf_writeBytes _ _ _ h)

theorem Memory.mem_writeBytes {vs : List Byte} {mem : Memory} {a : Nat} {c : Host.Cell}
    (h : c ∈ mem.writeBytes a vs) : (a ≤ c.1 ∧ c.1 < a + vs.length) ∨ c ∈ mem := by
  induction vs generalizing mem a with
  | nil => exact Or.inr h
  | cons v vs ih =>
    rcases ih h with h | h
    · left; simp only [List.length_cons]; omega
    · rcases Memory.mem_write h with rfl | h
      · left; simp
      · exact Or.inr h

theorem Memory.mem_fillAny {rs : List Region} {mem : Memory} {n : Nat} {c : Host.Cell} (h : c ∈ mem.fillAny n rs) :
    inRegions rs c.1 = true ∨ c ∈ mem := by
  induction rs generalizing mem n with
  | nil => exact Or.inr h
  | cons r rs ih =>
    rw [inRegions_cons]
    rcases ih h with h | h
    · simp [h]
    · rcases Memory.mem_writeBytes h with h | h
      · left
        rw [length_drawBytes] at h
        simp [Region.contains, h]
      · exact Or.inr h

theorem Memory.written?_eq_none_of_lt {mem : Memory} {a : Nat} (h : ∀ c ∈ mem, a < c.1) : mem.written? a = none := by
  induction mem with
  | nil => rfl
  | cons c rest ih =>
    have hc := h c (by simp)
    rw [Memory.written?, if_neg (by omega)]
    exact ih fun d hd => h d (by simp [hd])

/-- Two canonical memories that list the same bytes are the same list. -/
theorem Memory.ext_of_wf {m₁ m₂ : Memory} (h₁ : m₁.wf = true) (h₂ : m₂.wf = true)
    (h : ∀ a, m₁.written? a = m₂.written? a) : m₁ = m₂ := by
  rw [Memory.wf_iff] at h₁ h₂
  induction m₁ generalizing m₂ with
  | nil =>
    cases m₂ with
    | nil => rfl
    | cons d _ => have := h d.1; simp [Memory.written?] at this
  | cons c r₁ ih =>
    cases m₂ with
    | nil => have := h c.1; simp [Memory.written?] at this
    | cons d r₂ =>
      obtain ⟨hc, hr₁⟩ := List.pairwise_cons.1 h₁
      obtain ⟨hd, hr₂⟩ := List.pairwise_cons.1 h₂
      have hkey : c.1 = d.1 := by
        rcases Nat.lt_trichotomy c.1 d.1 with hlt | heq | hgt
        · have := h c.1
          rw [Memory.written?_eq_none_of_lt (mem := d :: r₂)] at this
          · simp [Memory.written?] at this
          · intro e he
            rcases List.mem_cons.1 he with rfl | he
            · exact hlt
            · exact hlt.trans (hd e he)
        · exact heq
        · have := h d.1
          rw [Memory.written?_eq_none_of_lt (mem := c :: r₁)] at this
          · simp [Memory.written?] at this
          · intro e he
            rcases List.mem_cons.1 he with rfl | he
            · exact hgt
            · exact hgt.trans (hc e he)
      have hval : c = d := by
        have := h c.1
        simp only [Memory.written?, hkey, if_true] at this
        exact Prod.ext hkey (Option.some.inj this)
      subst hval
      congr 1
      refine ih hr₁ hr₂ fun a => ?_
      by_cases ha : c.1 = a
      · subst ha
        rw [Memory.written?_eq_none_of_lt hc, Memory.written?_eq_none_of_lt hd]
      · have := h a
        simpa [Memory.written?, ha] using this

/-- Writes at different addresses commute on canonical memories. -/
theorem Memory.write_comm (mem : Memory) {a b : Nat} (v w : Byte) (hab : a ≠ b) (h : mem.wf = true) :
    (mem.write a v).write b w = (mem.write b w).write a v := by
  refine Memory.ext_of_wf (Memory.wf_write _ _ _ (Memory.wf_write _ _ _ h))
    (Memory.wf_write _ _ _ (Memory.wf_write _ _ _ h)) fun c => ?_
  simp only [Memory.written?_write]
  split_ifs <;> simp_all

end Sys2Proof.Machine
end

