-- ==== Sys2Proof/Laws/State.lean ====
section
/-! SUPPORT. One lemma per field and per update of State: what `complete`, `setParams`, `fillAny`, `launch`, `assertReset`,
`releaseReset`, `commit`, `regionCommit` and `doneWith` do to it. -/

namespace Sys2Proof.Machine

/-! ### Completion -/

@[simp] theorem State.complete_params (s : State) (code : ErrCode) : (s.complete code).params = s.params := rfl
@[simp] theorem State.complete_irqEn (s : State) (code : ErrCode) : (s.complete code).irqEn = s.irqEn := rfl
@[simp] theorem State.complete_status (s : State) (code : ErrCode) : (s.complete code).status = s.status.completed code :=
  rfl
@[simp] theorem State.complete_result (s : State) (code : ErrCode) : (s.complete code).result = s.result := rfl
@[simp] theorem State.complete_coder (s : State) (code : ErrCode) : (s.complete code).coder = s.coder := rfl
@[simp] theorem State.complete_running (s : State) (code : ErrCode) : (s.complete code).running = none := rfl
@[simp] theorem State.complete_hostRace (s : State) (code : ErrCode) : (s.complete code).hostRace = s.hostRace := rfl
@[simp] theorem State.complete_dmem (s : State) (code : ErrCode) : (s.complete code).dmem = s.dmem := rfl
@[simp] theorem State.complete_rstLow (s : State) (code : ErrCode) : (s.complete code).rstLow = s.rstLow := rfl
@[simp] theorem State.complete_aborted (s : State) (code : ErrCode) : (s.complete code).aborted = s.aborted := rfl
@[simp] theorem State.complete_abortedCommand (s : State) (code : ErrCode) : (s.complete code).abortedCommand = s.abortedCommand :=
  rfl
@[simp] theorem State.complete_memBytes (s : State) (code : ErrCode) : (s.complete code).memBytes = s.memBytes := rfl
@[simp] theorem State.complete_freeCount (s : State) (code : ErrCode) : (s.complete code).freeCount = s.freeCount :=
  rfl
@[simp] theorem State.complete_schedule (s : State) (code : ErrCode) : (s.complete code).schedule = s.schedule := rfl
@[simp] theorem State.complete_portData (s : State) (code : ErrCode) : (s.complete code).portData = s.portData := rfl
@[simp] theorem State.complete_dmemData (s : State) (code : ErrCode) : (s.complete code).dmemData = s.dmemData := rfl

@[simp] theorem Status.completed_done (st : Status) (code : ErrCode) : (st.completed code).done = true := rfl
@[simp] theorem Status.completed_err (st : Status) (code : ErrCode) : (st.completed code).err = (code != .none) := rfl
@[simp] theorem Status.completed_overrun (st : Status) (code : ErrCode) : (st.completed code).overrun = st.overrun := rfl
@[simp] theorem Status.completed_errCode (st : Status) (code : ErrCode) : (st.completed code).errCode = code := rfl

/-! ### Parameter registers -/

@[simp] theorem State.setParams_params (s : State) (p : Params) : (s.setParams p).params = p := rfl
@[simp] theorem State.setParams_irqEn (s : State) (p : Params) : (s.setParams p).irqEn = s.irqEn := rfl
@[simp] theorem State.setParams_status (s : State) (p : Params) : (s.setParams p).status = s.status := rfl
@[simp] theorem State.setParams_result (s : State) (p : Params) : (s.setParams p).result = s.result := rfl
@[simp] theorem State.setParams_coder (s : State) (p : Params) : (s.setParams p).coder = s.coder := rfl
@[simp] theorem State.setParams_running (s : State) (p : Params) : (s.setParams p).running = s.running := rfl
@[simp] theorem State.setParams_hostRace (s : State) (p : Params) : (s.setParams p).hostRace = s.hostRace := rfl
@[simp] theorem State.setParams_dmem (s : State) (p : Params) : (s.setParams p).dmem = s.dmem := rfl
@[simp] theorem State.setParams_rstLow (s : State) (p : Params) : (s.setParams p).rstLow = s.rstLow := rfl
@[simp] theorem State.setParams_aborted (s : State) (p : Params) : (s.setParams p).aborted = s.aborted := rfl
@[simp] theorem State.setParams_abortedCommand (s : State) (p : Params) : (s.setParams p).abortedCommand = s.abortedCommand :=
  rfl
@[simp] theorem State.setParams_memBytes (s : State) (p : Params) : (s.setParams p).memBytes = s.memBytes := rfl
@[simp] theorem State.setParams_freeCount (s : State) (p : Params) : (s.setParams p).freeCount = s.freeCount := rfl
@[simp] theorem State.setParams_schedule (s : State) (p : Params) : (s.setParams p).schedule = s.schedule := rfl
@[simp] theorem State.setParams_portData (s : State) (p : Params) : (s.setParams p).portData = s.portData := rfl
@[simp] theorem State.setParams_dmemData (s : State) (p : Params) : (s.setParams p).dmemData = s.dmemData := rfl

/-! ### ANY -/

@[simp] theorem State.fillAny_params (s : State) (rs : List Region) : (s.fillAny rs).params = s.params := rfl
@[simp] theorem State.fillAny_irqEn (s : State) (rs : List Region) : (s.fillAny rs).irqEn = s.irqEn := rfl
@[simp] theorem State.fillAny_status (s : State) (rs : List Region) : (s.fillAny rs).status = s.status := rfl
@[simp] theorem State.fillAny_result (s : State) (rs : List Region) : (s.fillAny rs).result = s.result := rfl
@[simp] theorem State.fillAny_coder (s : State) (rs : List Region) : (s.fillAny rs).coder = s.coder := rfl
@[simp] theorem State.fillAny_running (s : State) (rs : List Region) : (s.fillAny rs).running = s.running := rfl
@[simp] theorem State.fillAny_hostRace (s : State) (rs : List Region) : (s.fillAny rs).hostRace = s.hostRace := rfl
@[simp] theorem State.fillAny_dmem (s : State) (rs : List Region) : (s.fillAny rs).dmem = s.dmem.fillAny s.freeCount rs :=
  rfl
@[simp] theorem State.fillAny_rstLow (s : State) (rs : List Region) : (s.fillAny rs).rstLow = s.rstLow := rfl
@[simp] theorem State.fillAny_aborted (s : State) (rs : List Region) : (s.fillAny rs).aborted = s.aborted := rfl
@[simp] theorem State.fillAny_abortedCommand (s : State) (rs : List Region) : (s.fillAny rs).abortedCommand = s.abortedCommand :=
  rfl
@[simp] theorem State.fillAny_memBytes (s : State) (rs : List Region) : (s.fillAny rs).memBytes = s.memBytes := rfl
@[simp] theorem State.fillAny_freeCount (s : State) (rs : List Region) : (s.fillAny rs).freeCount = s.freeCount + drawCount rs :=
  rfl
@[simp] theorem State.fillAny_schedule (s : State) (rs : List Region) : (s.fillAny rs).schedule = s.schedule := rfl
@[simp] theorem State.fillAny_portData (s : State) (rs : List Region) : (s.fillAny rs).portData = s.portData := rfl
@[simp] theorem State.fillAny_dmemData (s : State) (rs : List Region) : (s.fillAny rs).dmemData = s.dmemData := rfl

/-! ### Launch -/

@[simp] theorem State.launch_params (s : State) (w : Word) : (s.launch w).params = s.params := rfl
@[simp] theorem State.launch_irqEn (s : State) (w : Word) : (s.launch w).irqEn = s.irqEn := rfl
@[simp] theorem State.launch_status (s : State) (w : Word) : (s.launch w).status = s.status.launched := rfl
@[simp] theorem State.launch_result (s : State) (w : Word) : (s.launch w).result = s.result := rfl
@[simp] theorem State.launch_coder (s : State) (w : Word) : (s.launch w).coder = s.coder := rfl
@[simp] theorem State.launch_running (s : State) (w : Word) : (s.launch w).running = some ⟨⟨w, ⟨s.params, s.coder⟩⟩, wordFootprint w s.memBytes ⟨s.params, s.coder⟩ s.dmem⟩ :=
  rfl
@[simp] theorem State.launch_hostRace (s : State) (w : Word) : (s.launch w).hostRace = s.hostRace := rfl
@[simp] theorem State.launch_dmem (s : State) (w : Word) : (s.launch w).dmem = s.dmem := rfl
@[simp] theorem State.launch_rstLow (s : State) (w : Word) : (s.launch w).rstLow = s.rstLow := rfl
@[simp] theorem State.launch_aborted (s : State) (w : Word) : (s.launch w).aborted = s.aborted := rfl
@[simp] theorem State.launch_abortedCommand (s : State) (w : Word) : (s.launch w).abortedCommand = s.abortedCommand :=
  rfl
@[simp] theorem State.launch_memBytes (s : State) (w : Word) : (s.launch w).memBytes = s.memBytes := rfl
@[simp] theorem State.launch_freeCount (s : State) (w : Word) : (s.launch w).freeCount = s.freeCount := rfl
@[simp] theorem State.launch_schedule (s : State) (w : Word) : (s.launch w).schedule = s.schedule := rfl
@[simp] theorem State.launch_portData (s : State) (w : Word) : (s.launch w).portData = s.portData := rfl
@[simp] theorem State.launch_dmemData (s : State) (w : Word) : (s.launch w).dmemData = s.dmemData := rfl

@[simp] theorem Status.launched_done (st : Status) : st.launched.done = false := rfl
@[simp] theorem Status.launched_err (st : Status) : st.launched.err = false := rfl
@[simp] theorem Status.launched_overrun (st : Status) : st.launched.overrun = st.overrun := rfl
@[simp] theorem Status.launched_errCode (st : Status) : st.launched.errCode = .none := rfl

/-! ### Reset -/

@[simp] theorem State.assertReset_params (s : State) : s.assertReset.params = .reset := rfl
@[simp] theorem State.assertReset_irqEn (s : State) : s.assertReset.irqEn = false := rfl
@[simp] theorem State.assertReset_status (s : State) : s.assertReset.status = .reset := rfl
@[simp] theorem State.assertReset_result (s : State) : s.assertReset.result = 0#8 := rfl
@[simp] theorem State.assertReset_coder (s : State) : s.assertReset.coder = .reset := rfl
@[simp] theorem State.assertReset_running (s : State) : s.assertReset.running = none := rfl
@[simp] theorem State.assertReset_hostRace (s : State) : s.assertReset.hostRace = s.hostRace := rfl
@[simp] theorem State.assertReset_dmem (s : State) : s.assertReset.dmem = s.dmem := rfl
@[simp] theorem State.assertReset_rstLow (s : State) : s.assertReset.rstLow = true := rfl
@[simp] theorem State.assertReset_aborted (s : State) : s.assertReset.aborted = s.pendingWrites := rfl
@[simp] theorem State.assertReset_abortedCommand (s : State) : s.assertReset.abortedCommand = (s.abortedCommand || s.running.isSome) :=
  rfl
@[simp] theorem State.assertReset_memBytes (s : State) : s.assertReset.memBytes = s.memBytes := rfl
@[simp] theorem State.assertReset_freeCount (s : State) : s.assertReset.freeCount = s.freeCount := rfl
@[simp] theorem State.assertReset_schedule (s : State) : s.assertReset.schedule = s.schedule := rfl
@[simp] theorem State.assertReset_portData (s : State) : s.assertReset.portData = s.portData := rfl
@[simp] theorem State.assertReset_dmemData (s : State) : s.assertReset.dmemData = s.dmemData := rfl

@[simp] theorem State.releaseReset_params (s : State) : s.releaseReset.params = s.params := rfl
@[simp] theorem State.releaseReset_irqEn (s : State) : s.releaseReset.irqEn = s.irqEn := rfl
@[simp] theorem State.releaseReset_status (s : State) : s.releaseReset.status = s.status := rfl
@[simp] theorem State.releaseReset_result (s : State) : s.releaseReset.result = s.result := rfl
@[simp] theorem State.releaseReset_coder (s : State) : s.releaseReset.coder = s.coder := rfl
@[simp] theorem State.releaseReset_running (s : State) : s.releaseReset.running = s.running := rfl
@[simp] theorem State.releaseReset_hostRace (s : State) : s.releaseReset.hostRace = s.hostRace := rfl
@[simp] theorem State.releaseReset_dmem (s : State) : s.releaseReset.dmem = s.dmem.fillAny s.freeCount s.aborted :=
  rfl
@[simp] theorem State.releaseReset_rstLow (s : State) : s.releaseReset.rstLow = false := rfl
@[simp] theorem State.releaseReset_aborted (s : State) : s.releaseReset.aborted = [] := rfl
@[simp] theorem State.releaseReset_abortedCommand (s : State) : s.releaseReset.abortedCommand = s.abortedCommand :=
  rfl
@[simp] theorem State.releaseReset_memBytes (s : State) : s.releaseReset.memBytes = s.memBytes := rfl
@[simp] theorem State.releaseReset_freeCount (s : State) : s.releaseReset.freeCount = s.freeCount + drawCount s.aborted :=
  rfl
@[simp] theorem State.releaseReset_schedule (s : State) : s.releaseReset.schedule = s.schedule := rfl
@[simp] theorem State.releaseReset_portData (s : State) : s.releaseReset.portData = s.portData := rfl
@[simp] theorem State.releaseReset_dmemData (s : State) : s.releaseReset.dmemData = s.dmemData := rfl

/-! ### A completed command -/

@[simp] theorem State.doneWith_params (s : State) (code : ErrCode) (mem : Memory) (draws : Nat) : (s.doneWith code mem draws).params = s.params :=
  rfl
@[simp] theorem State.doneWith_irqEn (s : State) (code : ErrCode) (mem : Memory) (draws : Nat) : (s.doneWith code mem draws).irqEn = s.irqEn :=
  rfl
@[simp] theorem State.doneWith_status (s : State) (code : ErrCode) (mem : Memory) (draws : Nat) : (s.doneWith code mem draws).status = { s.status with done := true, err := code != .none, errCode := code } :=
  rfl
@[simp] theorem State.doneWith_result (s : State) (code : ErrCode) (mem : Memory) (draws : Nat) : (s.doneWith code mem draws).result = s.result :=
  rfl
@[simp] theorem State.doneWith_coder (s : State) (code : ErrCode) (mem : Memory) (draws : Nat) : (s.doneWith code mem draws).coder = s.coder :=
  rfl
@[simp] theorem State.doneWith_running (s : State) (code : ErrCode) (mem : Memory) (draws : Nat) : (s.doneWith code mem draws).running = none :=
  rfl
@[simp] theorem State.doneWith_hostRace (s : State) (code : ErrCode) (mem : Memory) (draws : Nat) : (s.doneWith code mem draws).hostRace = s.hostRace :=
  rfl
@[simp] theorem State.doneWith_dmem (s : State) (code : ErrCode) (mem : Memory) (draws : Nat) : (s.doneWith code mem draws).dmem = mem :=
  rfl
@[simp] theorem State.doneWith_rstLow (s : State) (code : ErrCode) (mem : Memory) (draws : Nat) : (s.doneWith code mem draws).rstLow = s.rstLow :=
  rfl
@[simp] theorem State.doneWith_aborted (s : State) (code : ErrCode) (mem : Memory) (draws : Nat) : (s.doneWith code mem draws).aborted = s.aborted :=
  rfl
@[simp] theorem State.doneWith_abortedCommand (s : State) (code : ErrCode) (mem : Memory) (draws : Nat) : (s.doneWith code mem draws).abortedCommand = s.abortedCommand :=
  rfl
@[simp] theorem State.doneWith_memBytes (s : State) (code : ErrCode) (mem : Memory) (draws : Nat) : (s.doneWith code mem draws).memBytes = s.memBytes :=
  rfl
@[simp] theorem State.doneWith_freeCount (s : State) (code : ErrCode) (mem : Memory) (draws : Nat) : (s.doneWith code mem draws).freeCount = s.freeCount + draws :=
  rfl
@[simp] theorem State.doneWith_schedule (s : State) (code : ErrCode) (mem : Memory) (draws : Nat) : (s.doneWith code mem draws).schedule = s.schedule :=
  rfl
@[simp] theorem State.doneWith_portData (s : State) (code : ErrCode) (mem : Memory) (draws : Nat) : (s.doneWith code mem draws).portData = s.portData :=
  rfl
@[simp] theorem State.doneWith_dmemData (s : State) (code : ErrCode) (mem : Memory) (draws : Nat) : (s.doneWith code mem draws).dmemData = s.dmemData :=
  rfl

/-! ### The DMEM effect of a command -/

@[simp] theorem State.commit_params (s : State) (fp : Footprint) (mem : Memory) (any : List Region) : (s.commit fp mem any).params = s.params :=
  by
  unfold State.commit; split <;> rfl
@[simp] theorem State.commit_irqEn (s : State) (fp : Footprint) (mem : Memory) (any : List Region) : (s.commit fp mem any).irqEn = s.irqEn :=
  by
  unfold State.commit; split <;> rfl
@[simp] theorem State.commit_status (s : State) (fp : Footprint) (mem : Memory) (any : List Region) : (s.commit fp mem any).status = s.status :=
  by
  unfold State.commit; split <;> rfl
@[simp] theorem State.commit_result (s : State) (fp : Footprint) (mem : Memory) (any : List Region) : (s.commit fp mem any).result = s.result :=
  by
  unfold State.commit; split <;> rfl
@[simp] theorem State.commit_coder (s : State) (fp : Footprint) (mem : Memory) (any : List Region) : (s.commit fp mem any).coder = s.coder :=
  by
  unfold State.commit; split <;> rfl
@[simp] theorem State.commit_running (s : State) (fp : Footprint) (mem : Memory) (any : List Region) : (s.commit fp mem any).running = s.running :=
  by
  unfold State.commit; split <;> rfl
@[simp] theorem State.commit_hostRace (s : State) (fp : Footprint) (mem : Memory) (any : List Region) : (s.commit fp mem any).hostRace = s.hostRace :=
  by
  unfold State.commit; split <;> rfl
@[simp] theorem State.commit_rstLow (s : State) (fp : Footprint) (mem : Memory) (any : List Region) : (s.commit fp mem any).rstLow = s.rstLow :=
  by
  unfold State.commit; split <;> rfl
@[simp] theorem State.commit_aborted (s : State) (fp : Footprint) (mem : Memory) (any : List Region) : (s.commit fp mem any).aborted = s.aborted :=
  by
  unfold State.commit; split <;> rfl
@[simp] theorem State.commit_abortedCommand (s : State) (fp : Footprint) (mem : Memory) (any : List Region) : (s.commit fp mem any).abortedCommand = s.abortedCommand :=
  by
  unfold State.commit; split <;> rfl
@[simp] theorem State.commit_memBytes (s : State) (fp : Footprint) (mem : Memory) (any : List Region) : (s.commit fp mem any).memBytes = s.memBytes :=
  by
  unfold State.commit; split <;> rfl
@[simp] theorem State.commit_schedule (s : State) (fp : Footprint) (mem : Memory) (any : List Region) : (s.commit fp mem any).schedule = s.schedule :=
  by
  unfold State.commit; split <;> rfl
@[simp] theorem State.commit_portData (s : State) (fp : Footprint) (mem : Memory) (any : List Region) : (s.commit fp mem any).portData = s.portData :=
  by
  unfold State.commit; split <;> rfl
@[simp] theorem State.commit_dmemData (s : State) (fp : Footprint) (mem : Memory) (any : List Region) : (s.commit fp mem any).dmemData = s.dmemData :=
  by
  unfold State.commit; split <;> rfl

@[simp] theorem State.regionCommit_params (s : State) (f : Byte → Byte → Byte) : (s.regionCommit f).params = s.params :=
  by
  unfold State.regionCommit; split <;> simp
@[simp] theorem State.regionCommit_irqEn (s : State) (f : Byte → Byte → Byte) : (s.regionCommit f).irqEn = s.irqEn :=
  by
  unfold State.regionCommit; split <;> simp
@[simp] theorem State.regionCommit_status (s : State) (f : Byte → Byte → Byte) : (s.regionCommit f).status = s.status :=
  by
  unfold State.regionCommit; split <;> simp
@[simp] theorem State.regionCommit_result (s : State) (f : Byte → Byte → Byte) : (s.regionCommit f).result = s.result :=
  by
  unfold State.regionCommit; split <;> simp
@[simp] theorem State.regionCommit_coder (s : State) (f : Byte → Byte → Byte) : (s.regionCommit f).coder = s.coder :=
  by
  unfold State.regionCommit; split <;> simp
@[simp] theorem State.regionCommit_running (s : State) (f : Byte → Byte → Byte) : (s.regionCommit f).running = s.running :=
  by
  unfold State.regionCommit; split <;> simp
@[simp] theorem State.regionCommit_hostRace (s : State) (f : Byte → Byte → Byte) : (s.regionCommit f).hostRace = s.hostRace :=
  by
  unfold State.regionCommit; split <;> simp
@[simp] theorem State.regionCommit_rstLow (s : State) (f : Byte → Byte → Byte) : (s.regionCommit f).rstLow = s.rstLow :=
  by
  unfold State.regionCommit; split <;> simp
@[simp] theorem State.regionCommit_aborted (s : State) (f : Byte → Byte → Byte) : (s.regionCommit f).aborted = s.aborted :=
  by
  unfold State.regionCommit; split <;> simp
@[simp] theorem State.regionCommit_abortedCommand (s : State) (f : Byte → Byte → Byte) : (s.regionCommit f).abortedCommand = s.abortedCommand :=
  by
  unfold State.regionCommit; split <;> simp
@[simp] theorem State.regionCommit_memBytes (s : State) (f : Byte → Byte → Byte) : (s.regionCommit f).memBytes = s.memBytes :=
  by
  unfold State.regionCommit; split <;> simp
@[simp] theorem State.regionCommit_schedule (s : State) (f : Byte → Byte → Byte) : (s.regionCommit f).schedule = s.schedule :=
  by
  unfold State.regionCommit; split <;> simp
@[simp] theorem State.regionCommit_portData (s : State) (f : Byte → Byte → Byte) : (s.regionCommit f).portData = s.portData :=
  by
  unfold State.regionCommit; split <;> simp
@[simp] theorem State.regionCommit_dmemData (s : State) (f : Byte → Byte → Byte) : (s.regionCommit f).dmemData = s.dmemData :=
  by
  unfold State.regionCommit; split <;> simp

end Sys2Proof.Machine
end

