-- ==== Sys2Proof/Laws/Ops.lean ====
section
/-! SUPPORT. What the shared operations do, said once: the DMEM effect of a command, its checks, the snapshot, reset. -/

namespace Sys2Proof.Machine

/-- The DMEM effect of a command that computes a memory differing only in FP.W stays in FP.W (20_memory.md R79, R89). -/
theorem State.commit_sameOutside (s : State) (fp : Footprint) (mem : Memory) (any : List Region)
    (hmem : SameOutside fp.writes s.dmem mem) (hany : ∀ r ∈ any, r ∈ fp.writes) :
    SameOutside fp.writes s.dmem (s.commit fp mem any).dmem := by
  unfold State.commit
  split
  · exact Memory.fillAny_sameOutside _ _ _
  · exact hmem.trans ((Memory.fillAny_sameOutside any mem s.freeCount).mono hany)

/-- Without an overlap and with no region left ANY, the effect is the memory computed. -/
theorem State.commit_of_not_overlaps (s : State) (fp : Footprint) (mem : Memory) (h : fp.overlaps = false) :
    s.commit fp mem [] = { s with dmem := mem } := by
  simp [State.commit, h, State.fillAny]

/-- With an overlap, every byte of FP.W is drawn. -/
theorem State.commit_of_overlaps (s : State) (fp : Footprint) (mem : Memory) (any : List Region)
    (h : fp.overlaps = true) : s.commit fp mem any = s.fillAny fp.writes := by
  simp [State.commit, h]

/-- The one way a command with checks ends: with its failing check's code and nothing else changed, or by running. -/
theorem State.finish_cases {α : Type} (s t : State) (checked : Checked α) (run : α → State)
    (h : s.finish checked run = .next t) :
    (∃ code readBefore, checked = .fail code readBefore ∧ t = s.complete code) ∨
      ∃ job, checked = .ok job ∧ t = run job := by
  cases checked with
  | fail code rb =>
    have h' : Host.Outcome.next (s.complete code) = Host.Outcome.next t := h
    exact Or.inl ⟨code, rb, rfl, by injection h' with h'; exact h'.symm⟩
  | ok job =>
    have h' : Host.Outcome.next (run job) = Host.Outcome.next t := h
    exact Or.inr ⟨job, rfl, by injection h' with h'; exact h'.symm⟩

@[simp] theorem State.finish_fail {α : Type} (s : State) (code : ErrCode) (rb : List Region) (run : α → State) :
    s.finish (.fail code rb) run = .next (s.complete code) := rfl

@[simp] theorem State.finish_ok {α : Type} (s : State) (job : α) (run : α → State) :
    s.finish (.ok job) run = .next (run job) := rfl

@[simp] theorem Checked.footprint_fail {α : Type} (f : α → Footprint) (code : ErrCode) (rb : List Region) :
    (Checked.fail code rb).footprint f = { reads := rb, writes := [] } := rfl

@[simp] theorem Checked.footprint_ok {α : Type} (f : α → Footprint) (job : α) : (Checked.ok job).footprint f = f job := rfl

/-- A running command reads its snapshot (10_state.md R51). -/
theorem State.operands_of_running (s : State) (r : Running) (h : s.running = some r) :
    s.operands = r.snap.operands := by
  simp [State.operands, h]

/-- With no command running, the operands are the registers as they are (log 5). -/
theorem State.operands_of_idle (s : State) (h : s.running = none) :
    s.operands = { params := s.params, coder := s.coder } := by
  simp [State.operands, h]

/-- Launching and then completing is what exec does on the idle machine: it takes the same operands (log 5). -/
theorem State.operands_launch (s : State) (w : Word) : (s.launch w).operands = ⟨s.params, s.coder⟩ := rfl

/-- The regions of FP.W of the running command, beside those of a reset in progress. -/
theorem State.pendingWrites_of_running (s : State) (r : Running) (h : s.running = some r) :
    s.pendingWrites = r.fp.writes ++ s.aborted := by
  simp [State.pendingWrites, h]

theorem State.pendingWrites_of_idle (s : State) (h : s.running = none) : s.pendingWrites = s.aborted := by
  simp [State.pendingWrites, h]

/-- The reset event: every register and the hidden state at their reset values, FP.W of an aborted command drawn, host_race
and the rest kept. -/
theorem State.resetEvent_eq (s : State) :
    s.resetEvent = { State.reset with
      hostRace := s.hostRace
      dmem := s.dmem.fillAny s.freeCount s.pendingWrites
      abortedCommand := s.abortedCommand || s.running.isSome
      memBytes := s.memBytes
      freeCount := s.freeCount + drawCount s.pendingWrites
      schedule := s.schedule
      portData := s.portData
      dmemData := s.dmemData } := rfl

/-- A host DMEM write does nothing where DMEM is not populated (log 9), raises the race in the footprint of the running
command, and writes its byte everywhere else (20_memory.md R80). -/
theorem State.hostMemWrite_cases (s : State) (a : Nat) (v : Byte) :
    (s.hostMemWrite a v = s ∧ s.memBytes ≤ a) ∨
    (s.hostMemWrite a v = { s with hostRace := true } ∧ a < s.memBytes ∧
      ∃ r, s.running = some r ∧ inRegions (r.fp.reads ++ r.fp.writes) a = true) ∨
    (s.hostMemWrite a v = { s with dmem := s.dmem.write a v } ∧ a < s.memBytes ∧
      ∀ r, s.running = some r → inRegions (r.fp.reads ++ r.fp.writes) a = false) := by
  unfold State.hostMemWrite
  by_cases hp : s.memBytes ≤ a
  · exact Or.inl ⟨if_pos hp, hp⟩
  · simp only [if_neg hp]
    have hlt : a < s.memBytes := Nat.lt_of_not_le hp
    cases hr : s.running with
    | none => right; right; simpa using hlt
    | some r =>
      cases hin : inRegions (r.fp.reads ++ r.fp.writes) a with
      | true => right; left; exact ⟨by simp [hin], hlt, r, rfl, hin⟩
      | false => right; right; refine ⟨by simp [hin], hlt, ?_⟩; rintro q hq; cases hq; exact hin

/-- A host DMEM read either draws its byte or returns the current one (20_memory.md R80; logs 7, 9). -/
theorem State.hostMemRead_cases (s : State) (a : Nat) :
    (s.hostMemRead a = { s with dmemData := Config.freeByte s.freeCount, freeCount := s.freeCount + 1 } ∧
      (s.memBytes ≤ a ∨ inRegions s.pendingWrites a = true)) ∨
    (s.hostMemRead a = { s with dmemData := s.dmem.read a } ∧ a < s.memBytes ∧ inRegions s.pendingWrites a = false) := by
  unfold State.hostMemRead
  by_cases h : (decide (s.memBytes ≤ a) || inRegions s.pendingWrites a) = true
  · left; rw [if_pos h]; exact ⟨rfl, by simpa using h⟩
  · right; rw [if_neg h]
    simp only [Bool.or_eq_true, decide_eq_true_eq, not_or, Nat.not_le, Bool.not_eq_true] at h
    exact ⟨rfl, h⟩

/-- The invariant does not look at the schedule. -/
theorem State.Inv.withSchedule {s : State} (h : s.Inv) (turns : List Turn) : { s with schedule := turns }.Inv :=
  ⟨h.memBytesLegal, h.dmemCanonical, h.dmemPopulated, h.coderLegal, h.errIffCode, h.busyStatus, h.snapshotCoderLegal,
    h.footprintInRange, h.abortedInRange, h.resetIdle, h.abortedRecorded, h.abortedInReset⟩

end Sys2Proof.Machine
end

