-- ==== Sys2Proof/Laws/PerInstr.lean ====
section
/-! SUPPORT. Families of statements about every command as syntax. -/

namespace Sys2Proof.Laws

/-- The fields a command encodes with are legal by the checks of 30_encoding.md R100. -/
def EncodesLegal.Statement (i : Instr) : Prop := (splitWord (encode i)).wellFormed = true

theorem EncodesLegal.gfmul : EncodesLegal.Statement .gfmul := by unfold EncodesLegal.Statement; decide
theorem EncodesLegal.gfinv : EncodesLegal.Statement .gfinv := by unfold EncodesLegal.Statement; decide
theorem EncodesLegal.rmul : EncodesLegal.Statement .rmul := by unfold EncodesLegal.Statement; decide
theorem EncodesLegal.rmulacc : EncodesLegal.Statement .rmulacc := by unfold EncodesLegal.Statement; decide
theorem EncodesLegal.rxor : EncodesLegal.Statement .rxor := by unfold EncodesLegal.Statement; decide
theorem EncodesLegal.config : EncodesLegal.Statement .config := by unfold EncodesLegal.Statement; decide
theorem EncodesLegal.matinv : EncodesLegal.Statement .matinv := by unfold EncodesLegal.Statement; decide
theorem EncodesLegal.lincomb : EncodesLegal.Statement .lincomb := by unfold EncodesLegal.Statement; decide
theorem EncodesLegal.lincombId : EncodesLegal.Statement .lincombId := by unfold EncodesLegal.Statement; decide
theorem EncodesLegal.encode : EncodesLegal.Statement .encode := by unfold EncodesLegal.Statement; decide
theorem EncodesLegal.decode : EncodesLegal.Statement .decode := by unfold EncodesLegal.Statement; decide

end Sys2Proof.Laws
end

