-- ==== Sys2Proof/Laws/Units.lean ====
section
/-! SUPPORT. What the units' procedures leave in DMEM, read byte by byte: the region commands, APPLY_ROW, and a matrix written
row by row. -/

namespace Sys2Proof.Machine

/-! ### Regions and rows -/

/-- A region command: byte n of DST is f of the two old bytes, and nothing else changes (40_field.md R125-R128). -/
theorem read_regionRun (f : Byte → Byte → Byte) (o : Operands) (mem : Memory) (b : Nat) :
    (regionRun f o mem).read b =
      if o.params.dst.toNat ≤ b ∧ b < o.params.dst.toNat + o.len then
        f (mem.read b) (mem.read (o.params.src.toNat + (b - o.params.dst.toNat)))
      else mem.read b := by
  unfold regionRun
  rw [Memory.read_writeBytes]
  simp only [List.length_map, List.length_range, Operands.dstRegion, Operands.srcRegion]
  split_ifs with h
  · rw [List.getD_eq_getElem?_getD, List.getElem?_map, List.getElem?_range (by omega)]
    simp [show o.params.dst.toNat + (b - o.params.dst.toNat) = b by omega]
  · rfl

/-- APPLY_ROW: nothing for an all-zero row, else the combination in the destination alone (43_lincomb.md R160, R161). -/
theorem read_applyRow (mem : Memory) (coefs : List Byte) (srcs : List Nat) (dst len b : Nat) :
    (applyRow mem coefs srcs dst len).read b =
      if allZero coefs = false ∧ dst ≤ b ∧ b < dst + len then rowByte mem coefs srcs (b - dst) else mem.read b := by
  unfold applyRow
  cases hz : allZero coefs with
  | true => simp
  | false =>
    simp only [Bool.false_eq_true, if_false, true_and]
    rw [Memory.read_writeBytes]
    simp only [List.length_map, List.length_range]
    split_ifs with h
    · rw [List.getD_eq_getElem?_getD, List.getElem?_map, List.getElem?_range (by omega)]
      rfl
    · rfl

theorem applyRow_sameOutside (mem : Memory) (coefs : List Byte) (srcs : List Nat) (dst len : Nat) :
    SameOutside [{ base := dst, len := len }] mem (applyRow mem coefs srcs dst len) := by
  intro b hb
  rw [read_applyRow, if_neg]
  rintro ⟨-, h1, h2⟩
  simp [inRegions, Region.contains] at hb
  omega

theorem wf_applyRow (mem : Memory) (coefs : List Byte) (srcs : List Nat) (dst len : Nat) (h : mem.wf = true) :
    (applyRow mem coefs srcs dst len).wf = true := by
  unfold applyRow
  split_ifs
  · exact h
  · exact Memory.wf_writeBytes _ _ _ h

/-! ### Matrices in DMEM (20_memory.md R75) -/

/-- Entry (r, c) of a matrix with rows of n bytes stands at r·n + c of the rows joined. -/
theorem getD_flatten (n : Nat) (a : Matrix) (r c : Nat) (ha : ∀ row ∈ a, row.length = n) (hr : r < a.length)
    (hc : c < n) : a.flatten.getD (r * n + c) 0#8 = matrixEntry a r c := by
  induction a generalizing r with
  | nil => simp at hr
  | cons row rest ih =>
    have hrow : row.length = n := ha row (by simp)
    cases r with
    | zero =>
      simp only [List.flatten_cons, Nat.zero_mul, Nat.zero_add, matrixEntry, List.getD_cons_zero]
      rw [List.getD_append _ _ _ _ (by omega)]
    | succ r =>
      rw [List.flatten_cons, List.getD_append_right _ _ _ _ (by rw [hrow, Nat.succ_mul]; omega),
        show (r + 1) * n + c - row.length = r * n + c by rw [hrow, Nat.succ_mul]; omega,
        ih r (fun q hq => ha q (by simp [hq])) (by simpa using hr)]
      rfl

theorem length_flatten (n : Nat) (a : Matrix) (ha : ∀ row ∈ a, row.length = n) : a.flatten.length = a.length * n := by
  induction a with
  | nil => simp
  | cons row rest ih =>
    rw [List.flatten_cons, List.length_append, ha row (by simp), ih fun q hq => ha q (by simp [hq]), List.length_cons,
      Nat.succ_mul, Nat.add_comm]

/-- A matrix written at a base reads back entry by entry. -/
theorem read_writeBytes_flatten (n : Nat) (a : Matrix) (mem : Memory) (base r c : Nat)
    (ha : ∀ row ∈ a, row.length = n) (hr : r < a.length) (hc : c < n) :
    (mem.writeBytes base a.flatten).read (base + r * n + c) = matrixEntry a r c := by
  have hlt : r * n + c < a.flatten.length := by
    rw [length_flatten n a ha]
    calc r * n + c < r * n + n := by omega
      _ = (r + 1) * n := (Nat.succ_mul r n).symm
      _ ≤ a.length * n := Nat.mul_le_mul_right n hr
  rw [Nat.add_assoc, Memory.read_writeBytes_inside _ _ _ _ hlt, getD_flatten n a r c ha hr hc]

/-- A matrix read from DMEM is the bytes at its places. -/
theorem matrixEntry_readMatrix (mem : Memory) (base rows ncols r c : Nat) (hr : r < rows) (hc : c < ncols) :
    matrixEntry (mem.readMatrix base rows ncols) r c = mem.read (base + r * ncols + c) := by
  unfold matrixEntry Memory.readMatrix
  rw [List.getD_eq_getElem?_getD (l := List.map _ _), List.getElem?_map, List.getElem?_range hr]
  exact Memory.getD_readBytes _ _ _ _ hc _

end Sys2Proof.Machine
end

