-- ==== Sys2Proof/Tests/Slice0.lean ====
section
/-! SUPPORT. Tests. Expected values come from spec/95_test_vectors.md (the section is named at each test) and from the words
of 30_encoding.md R103; and, for each statement with hypotheses, a concrete state that meets them. -/

namespace Sys2Proof.Tests

-- The kernel evaluations below are checked one after another, which keeps the number of waiting threads small.
set_option Elab.async false

open Sys2Proof.Machine

/-! ### Well-formedness: one ill-formed word for each check (30_encoding.md R100, R101) -/

theorem test_wellFormed_lincombId :
    ({ op := 0x12#8, acc := false, ident := true, rsv := 0#22 } : CommandFields).wellFormed = true := by decide

theorem test_wellFormed_refuses_unassigned_op :
    ({ op := 0x05#8, acc := false, ident := false, rsv := 0#22 } : CommandFields).wellFormed = false := by decide

theorem test_wellFormed_refuses_stray_acc :
    ({ op := 0x01#8, acc := true, ident := false, rsv := 0#22 } : CommandFields).wellFormed = false := by decide

theorem test_wellFormed_refuses_stray_ident :
    ({ op := 0x03#8, acc := false, ident := true, rsv := 0#22 } : CommandFields).wellFormed = false := by decide

theorem test_wellFormed_refuses_reserved_bits :
    ({ op := 0x20#8, acc := false, ident := false, rsv := 1#22 } : CommandFields).wellFormed = false := by decide

/-! ### Decoding: RSV, IDENT, ACC and OP written out from 30_encoding.md R103, and the illegal words of 95 section 2.8 -/

theorem test_decode_gfmul : decode 0b0000000000000000000000_0_0_00000001#32 = .instr .gfmul := by decide
theorem test_decode_gfinv : decode 0b0000000000000000000000_0_0_00000010#32 = .instr .gfinv := by decide
theorem test_decode_rmul : decode 0b0000000000000000000000_0_0_00000011#32 = .instr .rmul := by decide
theorem test_decode_rmulacc : decode 0b0000000000000000000000_0_1_00000011#32 = .instr .rmulacc := by decide
theorem test_decode_rxor : decode 0b0000000000000000000000_0_0_00000100#32 = .instr .rxor := by decide
theorem test_decode_config : decode 0b0000000000000000000000_0_0_00010000#32 = .instr .config := by decide
theorem test_decode_matinv : decode 0b0000000000000000000000_0_0_00010001#32 = .instr .matinv := by decide
theorem test_decode_lincomb : decode 0b0000000000000000000000_0_0_00010010#32 = .instr .lincomb := by decide
theorem test_decode_lincombId : decode 0b0000000000000000000000_1_0_00010010#32 = .instr .lincombId := by decide
theorem test_decode_encode : decode 0b0000000000000000000000_0_0_00100000#32 = .instr .encode := by decide
theorem test_decode_decode : decode 0b0000000000000000000000_0_0_00100001#32 = .instr .decode := by decide

theorem test_decode_refuses_reserved_op :
    [0x00#32, 0x05#32, 0x13#32, 0x22#32, 0xFF#32].map decode =
      List.replicate 5 (Decoded.rejected .reservedOp) := by decide

theorem test_decode_refuses_stray_acc :
    [0x101#32, 0x112#32].map decode = List.replicate 2 (Decoded.rejected .strayAcc) := by decide

theorem test_decode_refuses_stray_ident :
    [0x203#32, 0x303#32].map decode = List.replicate 2 (Decoded.rejected .strayIdent) := by decide

theorem test_decode_refuses_reserved_bits :
    [0x420#32, 0x80000020#32].map decode = List.replicate 2 (Decoded.rejected .reservedBits) := by decide

theorem test_decodeTableWord_reads_the_low_bits :
    decodeTableWord 32 0x103 = some .rmulacc ∧ decodeTableWord 8 0x103 = some .rmul ∧
      decodeTableWord 32 0x300000001 = some .gfmul ∧ decodeTableWord 40 0x300000001 = none := by decide

/-! ### The field (95 sections 2.1, 2.2) -/

theorem test_gmul_vectors :
    gmul 0x53#8 0xCA#8 = 0x8F#8 ∧ gmul 0xFF#8 0xFF#8 = 0xE2#8 ∧ gmul 0x57#8 0x83#8 = 0x31#8 ∧
      gmul 0x80#8 0x80#8 = 0x13#8 ∧ gmul 0x03#8 0x07#8 = 0x09#8 := by decide

theorem test_ginv_vectors :
    ginv 0x02#8 = 0x8E#8 ∧ ginv 0xFF#8 = 0xFD#8 ∧ ginv 0xFE#8 = 0x7E#8 ∧ ginv 0x80#8 = 0x1B#8 := by decide

/-! ### One step on small states -/

/-- The machine after reset with MEM_BYTES = 0x10000, the value 95_test_vectors.md takes. -/
def machine : State := { State.reset with memBytes := 0x10000 }

/-- Bytes at consecutive addresses. -/
def cells (a : Nat) (bs : List Byte) : Memory := List.zip (List.range' a bs.length) bs

/-- The next state of an outcome. -/
def nextOf : Host.Outcome State Fault Refusal → Option State
  | .next t => some t
  | .fault _ => none
  | .refused _ => none

/-- The state after the step that runs the command word w from s. -/
def after (s : State) (w : Nat) : Option State := nextOf (step (s.withFetchWord 32 w))

/-- What a test looks at: STATUS and the bytes at an address. -/
def look (a len : Nat) (t : State) : Word × List Byte := (t.readReg .status, t.dmem.readBytes a len)

/-- OPA = 0x53, OPB = 0xCA (program P1). -/
def scalars : State := { machine with params := { Params.reset with opa := 0x53#8, opb := 0xCA#8 } }

theorem test_gfmul_step :
    (after scalars 0x1).map (fun t => (t.readReg .status, t.readReg .result)) = some (0x2#32, 0x8F#32) := by decide +kernel

theorem test_gfinv_step :
    (after scalars 0x2).map (fun t => (t.readReg .status, t.readReg .result)) = some (0x2#32, 0x8C#32) := by decide +kernel

theorem test_gfinv_step_of_zero :
    (after { machine with result := 0x01#8 } 0x2).map (fun t => (t.readReg .status, t.readReg .result)) =
      some (0x606#32, 0x01#32) := by decide +kernel

/-- 95 section 2.3: the source at 0x100, the destination at 0x200, SIZE = 6, SCALAR = 2. -/
def regions : State :=
  { machine with
    params := { Params.reset with src := 0x100#32, dst := 0x200#32, size := 6#32, scalar := 0x02#8 }
    dmem := cells 0x100 [0x00, 0x01, 0x02, 0x80, 0xFF, 0x53] ++ cells 0x200 [0x11, 0x22, 0x33, 0x44, 0x55, 0x66] }

theorem test_rmul_step :
    (after regions 0x3).map (look 0x200 6) = some (0x2#32, [0x00, 0x02, 0x04, 0x1D, 0xE3, 0xA6]) := by decide +kernel

theorem test_rmul_step_bus_on_src :
    (after { regions with params := { regions.params with src := 0xFFFB#32 } } 0x3).map (look 0x200 6) =
      some (0x506#32, [0x11, 0x22, 0x33, 0x44, 0x55, 0x66]) := by decide +kernel

theorem test_rmulacc_step :
    (after regions 0x103).map (look 0x200 6) = some (0x2#32, [0x11, 0x20, 0x37, 0x59, 0xB6, 0xC0]) := by decide +kernel

theorem test_rmulacc_step_src_is_dst :
    (after { regions with params := { regions.params with dst := 0x100#32, scalar := 0x03#8 } } 0x103).map
      (look 0x100 6) = some (0x2#32, [0x00, 0x02, 0x04, 0x1D, 0xE3, 0xA6]) := by decide +kernel

theorem test_rxor_step :
    (after regions 0x4).map (look 0x200 6) = some (0x2#32, [0x11, 0x23, 0x31, 0xC4, 0xAA, 0x35]) := by decide +kernel

theorem test_rxor_step_overlap_draws_every_destination_byte :
    (after { regions with params := { regions.params with dst := 0x101#32 } } 0x4).map
      (fun t => (t.readReg .status, t.freeCount, t.dmem.readBytes 0x100 1)) = some (0x2#32, 6, [0x00]) := by decide +kernel

/-- K = 4, M = 2, WS_BASE = 0x100 (95 section 2.4). -/
def coder42 : State :=
  { machine with params := { Params.reset with k := 4#9, m := 2#9, wsBase := 0x100#32 } }

theorem test_config_step :
    (after coder42 0x10).map (look 0x128 8) =
      some (0x12#32, [0x8E, 0xF4, 0x47, 0xA7, 0xF4, 0x8E, 0xA7, 0x47]) := by decide +kernel

theorem test_config_step_refuses_too_many_shards :
    (after { coder42 with params := { coder42.params with k := 200#9, m := 100#9 }
                          coder := { valid := true, k := 1#9, m := 1#9, ws := 5#32 } } 0x10).map
      (fun t => (t.readReg .status, t.readReg .coderWs)) = some (0x206#32, 5#32) := by decide +kernel

/-- The 3 × 3 matrix of 42_matinv.md R153 at 0x500, its inverse to go to 0x510. -/
def matrix3 : State :=
  { machine with
    params := { Params.reset with src := 0x500#32, dst := 0x510#32, matN := 3#9 }
    dmem := cells 0x500 [0x00, 0x01, 0x02, 0x03, 0x04, 0x05, 0x06, 0x07, 0x08] }

theorem test_matinv_step :
    (after matrix3 0x11).map (fun t => (t.readReg .status, t.dmem.readBytes 0x510 9, t.dmem.readBytes 0x500 9)) =
      some (0x2#32, [0x55, 0x5D, 0xDA, 0x5D, 0xBA, 0x5D, 0x2E, 0x5D, 0xA0], [1, 0, 0, 0, 1, 0, 0, 0, 1]) := by
  decide +kernel

theorem test_matinv_step_singular :
    (after { matrix3 with params := { matrix3.params with matN := 2#9 }, dmem := cells 0x500 [1, 1, 1, 1] } 0x11).map
      (fun t => (t.readReg .status, t.freeCount)) = some (0x806#32, 8) := by decide +kernel

/-- Coder k = 3, m = 1 and the shards of 95 section 2.6, shard 3 holding EE, coefficients 01 02 03 and ids 00 01 02. -/
def shards31 : State :=
  { machine with
    params := { Params.reset with
      shardTbl := 0x200#32, size := 4#32, coefPtr := 0x400#32, idsPtr := 0x410#32, destId := 3#8 }
    coder := { valid := true, k := 3#9, m := 1#9, ws := 0x100#32 }
    dmem := cells 0x118 [0x01, 0x8E, 0xF4] ++
      cells 0x200 [0x00, 0x03, 0, 0, 0x10, 0x03, 0, 0, 0x20, 0x03, 0, 0, 0x30, 0x03, 0, 0] ++
      cells 0x300 [0x01, 0x02, 0x03, 0x04] ++ cells 0x310 [0x10, 0x20, 0x30, 0x40] ++
      cells 0x320 [0xFF, 0x00, 0x80, 0x01] ++ cells 0x330 [0xEE, 0xEE, 0xEE, 0xEE] ++
      cells 0x400 [0x01, 0x02, 0x03] ++ cells 0x410 [0x00, 0x01, 0x02] }

theorem test_lincomb_step :
    (after shards31 0x12).map (look 0x330 4) = some (0x12#32, [0x3D, 0x42, 0xFE, 0x87]) := by decide +kernel

theorem test_lincomb_step_all_zero_row :
    (after { shards31 with dmem := (shards31.dmem.writeBytes 0x400 [0, 0, 0]) } 0x12).map (look 0x330 4) =
      some (0x12#32, [0xEE, 0xEE, 0xEE, 0xEE]) := by decide +kernel

theorem test_lincombId_step :
    (after { shards31 with dmem := shards31.dmem.writeBytes 0x400 [0x8E, 0xF4, 0x47] } 0x212).map (look 0x330 4) =
      some (0x12#32, [0x83, 0xEA, 0xBF, 0x8E]) := by decide +kernel

theorem test_lincombId_step_param :
    (after { shards31 with params := { shards31.params with destId := 4#8 } } 0x212).map (look 0x330 4) =
      some (0x416#32, [0xEE, 0xEE, 0xEE, 0xEE]) := by decide +kernel

/-- The state of program P2 before ENCODE, or with the coding shards of P3 given. -/
def shards22 (coding0 coding1 : List Byte) : State :=
  { machine with
    params := { Params.reset with shardTbl := 0x200#32, size := 4#32 }
    coder := { valid := true, k := 2#9, m := 2#9, ws := 0x100#32 }
    dmem := cells 0x10C [0x8E, 0xF4, 0xF4, 0x8E] ++
      cells 0x200 [0x00, 0x03, 0, 0, 0x10, 0x03, 0, 0, 0x20, 0x03, 0, 0, 0x30, 0x03, 0, 0] ++
      cells 0x300 [0x01, 0x02, 0x03, 0x04] ++ cells 0x310 [0x10, 0x20, 0x30, 0x40] ++
      cells 0x320 coding0 ++ cells 0x330 coding1 }

theorem test_encode_step :
    (after (shards22 [0, 0, 0, 0] [0, 0, 0, 0]) 0x20).map
      (fun t => (t.readReg .status, t.dmem.readBytes 0x320 4, t.dmem.readBytes 0x330 4)) =
      some (0x12#32, [0x75, 0xEA, 0x9F, 0xC9], [0xFC, 0xE5, 0x19, 0xD7]) := by decide +kernel

theorem test_encode_step_not_configured :
    (after { shards22 [7, 7, 7, 7] [7, 7, 7, 7] with coder := .reset } 0x20).map (look 0x320 4) =
      some (0x306#32, [7, 7, 7, 7]) := by decide +kernel

/-- P3: shards 0 and 3 lost. -/
def lost : State :=
  let s := shards22 [0x75, 0xEA, 0x9F, 0xC9] [0, 0, 0, 0]
  { s with
    params := { s.params with erasure0 := 0x9#32 }
    dmem := s.dmem.writeBytes 0x300 [0, 0, 0, 0] }

theorem test_decode_step :
    (after lost 0x21).map (fun t => (t.readReg .status, t.dmem.readBytes 0x300 4, t.dmem.readBytes 0x330 4,
      t.dmem.readBytes 0x100 10)) =
      some (0x12#32, [0x01, 0x02, 0x03, 0x04], [0xFC, 0xE5, 0x19, 0xD7],
        [0x01, 0x00, 0x00, 0x01, 0x01, 0x02, 0xF5, 0x02, 0x01, 0x00]) := by decide +kernel

theorem test_decode_step_too_many_erasures :
    (after { lost with params := { lost.params with erasure0 := 0x7#32 } } 0x21).map (look 0x300 4) =
      some (0x716#32, [0, 0, 0, 0]) := by decide +kernel

theorem test_illegal_word_step :
    (after machine 0x0).map (fun t => t.readReg .status) = some 0x106#32 := by decide +kernel

/-! ### The host's side -/

/-- One host operation from s. -/
def host (s : State) (op : HostOp) : Option State := nextOf (step { s with schedule := [.host op] })

theorem test_register_write_keeps_nine_bits :
    (host machine (.regWrite 0x010#12 0x3FF#32)).map (fun t => t.readOffset 0x013#12) = some 0x1FF#32 := by decide +kernel

theorem test_status_write_acknowledges :
    (host { machine with status := { done := true, err := true, overrun := true, errCode := .invZero } }
      (.regWrite 0x008#12 0x6#32)).map (fun t => t.readReg .status) = some 0x8#32 := by decide +kernel

theorem test_cmd_write_launches_then_drops :
    ((host machine (.regWrite 0x00C#12 0x1#32)).bind fun t => host t (.regWrite 0x00C#12 0x2#32)).map
      (fun t => (t.readReg .status, (t.running.map fun r => r.snap.word))) = some (0x9#32, some 0x1#32) := by
  decide +kernel

theorem test_racing_host_write_faults :
    ((host { regions.launch 0x3#32 with schedule := [] } (.memWrite 0x103#32 0x55#8)).map
      fun t => (t.hostRace, (nextOf (step t)).isNone)) = some (true, true) := by decide +kernel

theorem test_unpopulated_host_accesses_go_on :
    ((host machine (.memWrite 0x10000#32 0x55#8)).map fun t => (t.dmem, t.hostRace, t.freeCount)) = some ([], false, 0) ∧
      ((host machine (.memRead 0x10000#32)).map fun t => (t.dmem, t.hostRace, t.freeCount)) = some ([], false, 1) := by
  decide +kernel

theorem test_reset_aborts_rmul :
    (host (regions.launch 0x3#32) .reset).map
      (fun t => (t.readReg .status, t.busy, t.abortedCommand, t.freeCount, t.dmem.readBytes 0x100 2)) =
      some (0x0#32, false, true, 6, [0x00, 0x01]) := by decide +kernel

theorem test_every_command_runs_right_after_reset :
    [0x1, 0x2, 0x3, 0x103, 0x4, 0x10, 0x11, 0x12, 0x212, 0x20, 0x21].all
      (fun w => (nextOf (step (State.reset.withFetchWord 32 w))).isSome) = true := by decide +kernel

/-! ### Witnesses: for each statement of Obligations.lean with hypotheses, concrete values that meet them, clause by clause -/

/-- A next state, from what it evaluates to. -/
theorem next_of_map {o : Host.Outcome State Fault Refusal} {α : Type} {f : State → α} {v : α}
    (h : (nextOf o).map f = some v) : ∃ t, o = .next t ∧ f t = v := by
  cases o with
  | next t => exact ⟨t, rfl, Option.some.inj h⟩
  | fault _ => cases h
  | refused _ => cases h

theorem witness_IllegalWordsCompleteWithBadCmd :
    machine.running = none ∧ machine.rstLow = false ∧
      ∀ w ∈ [0x00#32, 0x22#32, 0x101#32, 0x203#32, 0x401#32], ∀ i, decode w ≠ .instr i := by
  refine ⟨rfl, rfl, fun w hw i => ?_⟩
  simp only [List.mem_cons, List.not_mem_nil, or_false] at hw
  rcases hw with rfl | rfl | rfl | rfl | rfl <;> cases i <;> decide

theorem witness_StepRunsTheDecodedCommand :
    (regions.launch 0x3#32).hostRace = false ∧ (regions.launch 0x3#32).rstLow = false ∧
      (∃ r, (regions.launch 0x3#32).running = some r ∧ decode r.snap.word = .instr .rmul) ∧
      (regions.launch 0x3#32).schedule = [] ∧
      { regions.launch 0x3#32 with schedule := [.engine, .engine] }.schedule = .engine :: [.engine] :=
  ⟨rfl, rfl, ⟨_, rfl, by decide⟩, rfl, rfl⟩

theorem witness_StepTakesTheScheduledHostOperation :
    { machine with schedule := [.host .reset] }.hostRace = false ∧
      { machine with schedule := [.host .reset] }.schedule = .host .reset :: [] ∧
      machine.hostRace = false ∧ machine.running = none ∧ machine.schedule = [] := ⟨rfl, rfl, rfl, rfl, rfl⟩

theorem witness_FieldLaws :
    (0xFF#8 ≠ 0#8) ∧ gmul 0x00#8 0x05#8 = 0#8 ∧ (0 < 1 ∧ 1 < 255) ∧ (0 < 254 ∧ 254 < 255) := by decide

theorem witness_GinvIsTheUniqueInverse :
    (0xFF#8 ≠ 0#8) ∧ gmul 0xFD#8 0xFF#8 = 1#8 ∧ (0x01#8 ≠ 0#8) ∧ gmul 0x01#8 0x01#8 = 1#8 := by decide

theorem witness_GfinvWritesTheInverseOrRefusesZero :
    machine.operands.params.opa = 0#8 ∧ scalars.operands.params.opa ≠ 0#8 := by decide +kernel

/-- `regions` with the given SRC, DST and SIZE. -/
def regionsAt (src dst size : Word) : State :=
  { regions with params := { regions.params with src := src, dst := dst, size := size } }

/-- BUS on SRC at the first address that fails, BUS on DST, and success with both regions at their last addresses. -/
theorem witness_RegionRule_checks :
    ¬(regionsAt 0xFFFB#32 0x200#32 6#32).Fits 0xFFFB 6 ∧
      ((regionsAt 0xFFFA#32 0xFFFB#32 6#32).Fits 0xFFFA 6 ∧ ¬(regionsAt 0xFFFA#32 0xFFFB#32 6#32).Fits 0xFFFB 6) ∧
      ((regionsAt 0xFFF4#32 0xFFFA#32 6#32).Fits 0xFFF4 6 ∧ (regionsAt 0xFFF4#32 0xFFFA#32 6#32).Fits 0xFFFA 6) ∧
      (regionsAt 0xFFFFFFFF#32 0x200#32 0#32).Fits 0xFFFFFFFF 0 := by
  unfold State.Fits; decide +kernel

/-- The exact case: SRC = DST, and the two ways in which the regions only touch. -/
theorem witness_RegionRule_exact :
    (0x100 = 0x100 ∨ 0x100 + 6 ≤ 0x100 ∨ 0x100 + 6 ≤ 0x100) ∧ (0x106 = 0x100 ∨ 0x100 + 6 ≤ 0x106 ∨ 0x106 + 6 ≤ 0x100) ∧
      (0x100 = 0x106 ∨ 0x106 + 6 ≤ 0x100 ∨ 0x100 + 6 ≤ 0x106) := by decide

/-- `machine` with the given K, M and WS_BASE. -/
def configAt (k m : Count) (ws : Word) : State :=
  { machine with params := { Params.reset with k := k, m := m, wsBase := ws } }

/-- k = 0; k + m = 257; the workspace of 48 bytes one byte too high, and at its last address. -/
theorem witness_ConfigWritesTheCauchyMatrixAndLatchesTheCoder :
    (configAt 0#9 5#9 0#32).operands.params.k.toNat = 0 ∧
      256 < (configAt 200#9 57#9 0#32).operands.params.k.toNat + (configAt 200#9 57#9 0#32).operands.params.m.toNat ∧
      (1 ≤ (4#9).toNat ∧ (4#9).toNat + (2#9).toNat ≤ 256 ∧
        (configAt 4#9 2#9 0xFFD1#32).memBytes < (0xFFD1#32).toNat + (2 * (4#9).toNat ^ 2 + 2 * (4#9).toNat + (4#9).toNat * (2#9).toNat)) ∧
      (1 ≤ (4#9).toNat ∧ (4#9).toNat + (2#9).toNat ≤ 256 ∧
        (0xFFD0#32).toNat + (2 * (4#9).toNat ^ 2 + 2 * (4#9).toNat + (4#9).toNat * (2#9).toNat) ≤ (configAt 4#9 2#9 0xFFD0#32).memBytes) := by
  decide +kernel

theorem witness_CauchyEntriesAreNonzeroInverses :
    (128 + 128 ≤ 256 ∧ 127 < 128) ∧ (1 + 255 ≤ 256 ∧ 254 < 255 ∧ 0 < 1) := by decide

/-- K + M = 256 and K + M = 257. -/
theorem witness_WsSizeReadsStateSize :
    ¬256 < (configAt 256#9 0#9 0#32).params.k.toNat + (configAt 256#9 0#9 0#32).params.m.toNat ∧
      256 < (configAt 256#9 1#9 0#32).params.k.toNat + (configAt 256#9 1#9 0#32).params.m.toNat := by decide +kernel

theorem witness_AnyKRowsOfTheAugmentedMatrixAreInvertible :
    (1 ≤ 2 ∧ 2 + 2 ≤ 256 ∧ [3, 0].length = 2 ∧ [3, 0].Nodup ∧ ∀ r ∈ [3, 0], r < 2 + 2) ∧
      (1 ≤ 1 ∧ 1 + 255 ≤ 256 ∧ [255].length = 1 ∧ [255].Nodup ∧ ∀ r ∈ [255], r < 1 + 255) := by decide

/-- The 2 × 2 example of 42_matinv.md R150 and the singular matrix of its corner cases. -/
theorem witness_InvertReturnsTheInverse :
    IsSquareMatrix 2 [[1#8, 2#8], [3#8, 4#8]] ∧ IsSquareMatrix 2 [[1#8, 1#8], [1#8, 1#8]] ∧
      invertMatrix 2 [[1#8, 2#8], [3#8, 4#8]] = some [[0x02#8, 0x01#8], [0x8F#8, 0x8E#8]] ∧
      (∃ w, invertWork 2 [[1#8, 2#8], [3#8, 4#8]] = some w) ∧ invertMatrix 2 [[1#8, 1#8], [1#8, 1#8]] = none := by
  refine ⟨by unfold IsSquareMatrix; decide, by unfold IsSquareMatrix; decide, by decide +kernel, ?_, by decide +kernel⟩
  exact Option.isSome_iff_exists.1 (by decide +kernel)

theorem witness_InvertingTwiceGivesTheMatrixBack :
    IsSquareMatrix 2 [[1#8, 2#8], [3#8, 4#8]] ∧
      invertMatrix 2 [[1#8, 2#8], [3#8, 4#8]] = some [[0x02#8, 0x01#8], [0x8F#8, 0x8E#8]] :=
  ⟨by unfold IsSquareMatrix; decide, by decide +kernel⟩

/-- `matrix3` with the given SRC, DST and MAT_N. -/
def matrixAt (src dst : Word) (n : Count) : State :=
  { matrix3 with params := { matrix3.params with src := src, dst := dst, matN := n } }

/-- n = 0 and n = 257; BUS on SRC, BUS on DST; n = 256, whose two matrices do not fit here; and a singular and an invertible
matrix in regions that touch. -/
theorem witness_MatinvInvertsTheMatrixInDmem_checks :
    (matrixAt 0x500#32 0x509#32 0#9).operands.params.matN.toNat = 0 ∧
      256 < (matrixAt 0x500#32 0x509#32 257#9).operands.params.matN.toNat ∧
      (¬(matrixAt 0x1#32 0x0#32 256#9).Fits 0x1 (256 * 256)) ∧
      ((matrixAt 0xFFF7#32 0xFFF8#32 3#9).Fits 0xFFF7 (3 * 3) ∧ ¬(matrixAt 0xFFF7#32 0xFFF8#32 3#9).Fits 0xFFF8 (3 * 3)) ∧
      ((matrixAt 0x500#32 0x509#32 3#9).Fits 0x500 (3 * 3) ∧ (matrixAt 0x500#32 0x509#32 3#9).Fits 0x509 (3 * 3)) := by
  unfold State.Fits; decide +kernel

theorem witness_MatinvInvertsTheMatrixInDmem_results :
    (invertMatrix 3 ((matrixAt 0x500#32 0x509#32 3#9).dmem.readMatrix 0x500 3 3)).isSome = true ∧
      0x500 + 3 * 3 ≤ 0x509 ∧ invertMatrix 1 ((matrixAt 0x500#32 0x509#32 1#9).dmem.readMatrix 0x500 1 1) = none := by
  decide +kernel

/-- The premises of LINCOMB's nine clauses, each at `shards31` or a variant of it, where k + m = 4. -/
theorem witness_LincombCombinesTheListedShards_checks :
    ({ shards31 with coder := .reset }.operands.coder.valid = false) ∧
      (shards31.operands.coder.valid = true ∧ shards31.operands.ck = 3 ∧ shards31.operands.cm = 1) ∧
      (3 + 1 ≤ ({ shards31 with params := { shards31.params with destId := 4#8 } } : State).operands.params.destId.toNat) ∧
      (shards31.operands.params.destId.toNat < 3 + 1) ∧
      (¬({ shards31 with params := { shards31.params with coefPtr := 0xFFFE#32 } } : State).Fits 0xFFFE 3) ∧
      (shards31.Fits 0x400 3 ∧ ¬({ shards31 with params := { shards31.params with idsPtr := 0xFFFE#32 } } : State).Fits 0xFFFE 3) ∧
      (shards31.Fits 0x410 3 ∧
        ¬({ shards31 with params := { shards31.params with shardTbl := 0xFFF1#32 } } : State).Fits 0xFFF1 (4 * (3 + 1))) ∧
      shards31.Fits 0x200 (4 * (3 + 1)) := by
  unfold State.Fits; decide +kernel

/-- `shards31` with the address of the given shard one byte too high for SIZE = 4. -/
def badShard31 (entry : Nat) : State :=
  { shards31 with dmem := shards31.dmem.writeBytes (0x200 + 4 * entry) [0xFD, 0xFF, 0, 0] }

theorem witness_LincombCombinesTheListedShards_shards :
    (∃ j < 3, 3 + 1 ≤ ((shards31.dmem.write 0x412 4#8).read (0x410 + j)).toNat) ∧
      (∀ j < 3, (shards31.dmem.read (0x410 + j)).toNat < 3 + 1) ∧
      (¬(badShard31 3).Fits ((badShard31 3).operands.shardAddr (badShard31 3).dmem 3) 4) ∧
      ((badShard31 2).Fits ((badShard31 2).operands.shardAddr (badShard31 2).dmem 3) 4 ∧
        ¬(badShard31 2).Fits ((badShard31 2).operands.shardAddr (badShard31 2).dmem 2) 4) ∧
      (∀ sh < 4, shards31.Fits (shards31.operands.shardAddr shards31.dmem sh) shards31.operands.len) := by
  unfold State.Fits; decide +kernel

/-- The two clauses of RowRule: an all-zero row, and a row with a nonzero entry whose sources and tables lie apart from the
destination. -/
theorem witness_RowRule :
    (∀ j < 3, (shards31.dmem.writeBytes 0x400 [0, 0, 0]).read (0x400 + j) = 0#8) ∧
      (∃ j < 3, shards31.dmem.read (0x400 + j) ≠ 0#8) ∧
      (∀ a < 0x334, 0x330 ≤ a →
        inRegions [shards31.operands.coefRegion, shards31.operands.idsRegion, shards31.operands.tableRegion] a = false ∧
          ∀ j < 3, a < shards31.operands.shardAddr shards31.dmem j ∨
            shards31.operands.shardAddr shards31.dmem j + shards31.operands.len ≤ a) := by decide +kernel

theorem witness_LincombIdCombinesTheDataShards :
    ({ shards31 with coder := .reset }.operands.coder.valid = false) ∧ shards31.operands.coder.valid = true ∧
      (3 + 1 ≤ ({ shards31 with params := { shards31.params with destId := 4#8 } } : State).operands.params.destId.toNat) ∧
      shards31.operands.params.destId.toNat < 3 + 1 ∧
      (¬({ shards31 with params := { shards31.params with coefPtr := 0xFFFE#32 } } : State).Fits 0xFFFE 3) ∧
      (shards31.Fits 0x400 3 ∧
        ¬({ shards31 with params := { shards31.params with shardTbl := 0xFFF1#32 } } : State).Fits 0xFFF1 (4 * (3 + 1))) ∧
      shards31.Fits 0x200 (4 * (3 + 1)) ∧
      (¬(badShard31 3).Fits ((badShard31 3).operands.shardAddr (badShard31 3).dmem 3) 4) ∧
      ((badShard31 2).Fits ((badShard31 2).operands.shardAddr (badShard31 2).dmem 3) 4 ∧
        ¬(badShard31 2).Fits ((badShard31 2).operands.shardAddr (badShard31 2).dmem 2) 4) ∧
      (∀ j < 3, shards31.Fits (shards31.operands.shardAddr shards31.dmem j) shards31.operands.len) := by
  unfold State.Fits; decide +kernel

/-- `lost` with the shard table ending one byte outside DMEM. -/
def tableOut : State := { lost with params := { lost.params with shardTbl := 0xFFF1#32 } }

theorem witness_EncodeFillsTheCodingShards :
    ({ lost with coder := .reset }.operands.coder.valid = false) ∧
      (tableOut.operands.coder.valid = true ∧ ¬tableOut.ShardsFit) ∧
      (lost.operands.coder.valid = true ∧ lost.ShardsFit) ∧ (lost.footprint .encode).overlaps = false ∧
      (∀ i < 2, lost.RowNonzero i) ∧ 3 < lost.operands.len := by
  unfold State.ShardsFit State.ShardFits State.RowNonzero State.Fits; decide +kernel

/-- e = m + 1 = 3 is refused; e = m = 2 is not. -/
theorem witness_DecodeRefusesInOrder :
    ({ lost with coder := .reset }.operands.coder.valid = false) ∧
      (lost.operands.coder.valid = true ∧
        lost.operands.cm < ({ lost with params := { lost.params with erasure0 := 0x7#32 } } : State).erasures) ∧
      (tableOut.operands.coder.valid = true ∧ tableOut.erasures ≤ tableOut.operands.cm ∧ ¬tableOut.ShardsFit) := by
  unfold State.ShardsFit State.ShardFits State.Fits State.erasures; decide +kernel

/-- `lost` with the given ERASURE0. -/
def lostBut (e : Word) : State := { lost with params := { lost.params with erasure0 := e } }

theorem witness_DecodeWithoutErasedDataRebuildsCodingOnly :
    ((lostBut 0#32).DecodeRuns ∧ (∀ i < 2, (lostBut 0#32).operands.params.erased i = false) ∧
      ∀ i < 2, (lostBut 0#32).operands.params.erased (2 + i) = false) ∧
    ((lostBut 0xC#32).DecodeRuns ∧ (∀ i < 2, (lostBut 0xC#32).operands.params.erased i = false) ∧
      ((lostBut 0xC#32).footprint .decode).overlaps = false ∧
      ∀ i < 2, (lostBut 0xC#32).operands.params.erased (2 + i) = true ∧ (lostBut 0xC#32).RowNonzero i) := by
  unfold State.DecodeRuns State.ShardsFit State.ShardFits State.Fits State.erasures State.RowNonzero; decide +kernel

/-- `lost` after the host wrote zeros over the Cauchy matrix. -/
def spoilt : State := { lost with dmem := lost.dmem.writeBytes 0x10C [0, 0, 0, 0] }

theorem witness_DecodeSingularWritesNoShard :
    spoilt.DecodeRuns ∧ (∃ i < 2, spoilt.operands.params.erased i = true) ∧
      invertMatrix 2 (spoilt.operands.tmat spoilt.dmem) = none ∧ (spoilt.footprint .decode).overlaps = false := by
  unfold State.DecodeRuns State.ShardsFit State.ShardFits State.Fits State.erasures; decide +kernel

theorem witness_DecodeRebuildsTheErasedShards :
    lost.DecodeRuns ∧ (∃ i < 2, lost.operands.params.erased i = true) ∧
      invertMatrix 2 (lost.operands.tmat lost.dmem) = some [[0xF5#8, 0x02#8], [0x01#8, 0x00#8]] ∧
      (lost.footprint .decode).overlaps = false ∧ lost.operands.params.erased (2 + 1) = true ∧ lost.RowNonzero 1 := by
  unfold State.DecodeRuns State.ShardsFit State.ShardFits State.Fits State.erasures State.RowNonzero; decide +kernel

/-- `spoilt` with both coding shards erased. -/
def zeroRows : State := { spoilt with params := { spoilt.params with erasure0 := 0xC#32 } }

/-- `lost` with Cauchy row 1 overwritten with zeros. -/
def zeroRow1 : State := { lost with dmem := lost.dmem.writeBytes 0x10E [0, 0] }

theorem witness_Decode_all_zero_row :
    (zeroRows.DecodeRuns ∧ (∀ i < 2, zeroRows.operands.params.erased i = false) ∧
      (zeroRows.footprint .decode).overlaps = false ∧
      ∀ i < 2, zeroRows.operands.params.erased (2 + i) = true ∧ ¬zeroRows.RowNonzero i) ∧
    (zeroRow1.DecodeRuns ∧ (∃ i < 2, zeroRow1.operands.params.erased i = true) ∧
      (invertMatrix 2 (zeroRow1.operands.tmat zeroRow1.dmem)).isSome = true ∧
      (zeroRow1.footprint .decode).overlaps = false ∧ zeroRow1.operands.params.erased (2 + 1) = true ∧
      ¬zeroRow1.RowNonzero 1) := by
  unfold State.DecodeRuns State.ShardsFit State.ShardFits State.Fits State.erasures State.RowNonzero; decide +kernel

/-- Shards 0 and 3 erased: the table, the Cauchy matrix, a survivor, an erased shard and the scratch regions, each at an end. -/
theorem witness_DecodeFootprintIsThatOfItsRule :
    lost.DecodeRuns ∧
      [0x200, 0x20F, 0x10C, 0x10F, 0x310, 0x323].all (inRegions (lost.footprint .decode).reads) = true ∧
      [0x300, 0x333, 0x100, 0x109].all (inRegions (lost.footprint .decode).writes) = true ∧
      inRegions (lost.footprint .decode).writes 0x10A = false := by
  unfold State.DecodeRuns State.ShardsFit State.ShardFits State.Fits State.erasures; decide +kernel

theorem witness_SurvivorsAreTheFirstKPresentShards :
    lost.erasures ≤ lost.operands.cm ∧ lost.operands.survivors = [1, 2] ∧
      (lostBut 0#32).erasures ≤ (lostBut 0#32).operands.cm ∧ (3 < 4 ∧ 3 ∉ (lostBut 0#32).operands.survivors) := by
  unfold State.erasures; decide +kernel

/-- The shards of 44_codec.md R176 before the loss. -/
def original (sh n : Nat) : Byte :=
  ([[0x01#8, 0x02#8, 0x03#8, 0x04#8], [0x10#8, 0x20#8, 0x30#8, 0x40#8], [0x75#8, 0xEA#8, 0x9F#8, 0xC9#8],
    [0xFC#8, 0xE5#8, 0x19#8, 0xD7#8]].getD sh []).getD n 0#8

theorem witness_DecodeRecoversTheOriginalShards :
    lost.DecodeRuns ∧ 1 ≤ lost.operands.ck ∧ lost.operands.ck + lost.operands.cm ≤ 256 ∧
      (∀ i < 2, ∀ j < 2, lost.cauchyAt i j = ginv (BitVec.ofNat 8 i ^^^ BitVec.ofNat 8 (2 + j))) ∧
      (lost.footprint .decode).overlaps = false ∧
      (∀ i < 2, ∀ n < 4, original (2 + i) n = gfSum ((List.range 2).map fun j => gmul (lost.cauchyAt i j) (original j n))) ∧
      (∀ sh < 4, lost.operands.params.erased sh = false → ∀ n < 4,
        lost.dmem.read (lost.operands.shardAddr lost.dmem sh + n) = original sh n) ∧
      (∀ sh < 4, lost.operands.params.erased sh = true ∨ lost.operands.readsShard sh = true) := by
  unfold State.DecodeRuns State.ShardsFit State.ShardFits State.Fits State.erasures State.cauchyAt; decide +kernel

/-- ERASURE bit 4 = k + m, the first one that is ignored, and the last one. -/
theorem witness_DecodeIgnoresErasureBitsBeyondTheShards :
    (∃ r, (lost.launch 0x21#32).running = some r ∧ r.snap.operands.params = lost.params) ∧
      { lost.params with erasure0 := 0x19#32, erasure7 := 0x80000000#32 } ≠ lost.params ∧
      ∀ i < 4, ({ lost.params with erasure0 := 0x19#32, erasure7 := 0x80000000#32 } : Params).erased i = lost.params.erased i :=
  ⟨⟨_, rfl, rfl⟩, by decide +kernel, by decide +kernel⟩

/-- A command that answers a next state (for every statement with that premise), one that fails, and one that ends SINGULAR. -/
theorem witness_exec_answers_next :
    (∃ t, exec .gfmul scalars = .next t) ∧
      (∃ t, exec .gfinv machine = .next t ∧ t.status.err = true ∧ t.status.errCode ≠ .singular) ∧
      (∃ t, exec .gfinv scalars = .next t ∧ t.status.err = false) ∧
      (∃ t, exec .decode spoilt = .next t ∧ t.status.err = true ∧ t.status.errCode = .singular) := by
  refine ⟨⟨_, rfl⟩, ?_, ?_, ?_⟩
  · exact ⟨machine.complete .invZero, rfl, by decide +kernel, by decide +kernel⟩
  · exact ⟨{ scalars with result := ginv 0x53#8 }.complete .none, rfl, by decide +kernel⟩
  · obtain ⟨t, h, hv⟩ := next_of_map (f := fun t => (t.status.err, t.status.errCode)) (v := (true, .singular))
      (show (nextOf (exec .decode spoilt)).map _ = _ by decide +kernel)
    exact ⟨t, h, congrArg Prod.fst hv, congrArg Prod.snd hv⟩

theorem witness_CommandsReportOnlyTheirCodes :
    (machine.launch 0x0#32).rstLow = false ∧
      ∃ r, (machine.launch 0x0#32).running = some r ∧ ∀ i, decode r.snap.word ≠ .instr i :=
  ⟨rfl, _, rfl, fun i => by cases i <;> decide⟩

/-- The byte just before the source, the byte between the regions, and the byte just after the destination. -/
theorem witness_HostWriteOutsideTheFootprintIsUnseen :
    regions.dmem.wf = true ∧
      (∀ a ∈ [0xFF, 0x106, 0x1FF, 0x206],
        inRegions ((regions.footprint .rmul).reads ++ (regions.footprint .rmul).writes) a = false) ∧
      ∃ t, exec .rmul regions = .next t := by
  refine ⟨by decide +kernel, by decide +kernel, ?_⟩
  obtain ⟨t, h, -⟩ := next_of_map (f := fun t => t.status.done) (v := true)
    (show (nextOf (exec .rmul regions)).map _ = _ by decide +kernel)
  exact ⟨t, h⟩

theorem witness_ParameterWritesDoNotReachTheRunningCommand :
    ∃ r t, (scalars.launch 0x1#32).running = some r ∧ exec .gfmul (scalars.launch 0x1#32) = .next t :=
  ⟨_, _, rfl, rfl⟩

theorem machine_meets_the_invariant : machine.Inv where
  memBytesLegal := by decide
  dmemCanonical := rfl
  dmemPopulated := by intro c hc; cases hc
  coderLegal := by intro h; cases h
  errIffCode := by decide
  busyStatus := by intro h; cases h
  snapshotCoderLegal := by intro r h; cases h
  footprintInRange := by intro r h; cases h
  abortedInRange := by intro r h; cases h
  resetIdle := by intro h; cases h
  abortedRecorded := fun h => absurd rfl h
  abortedInReset := fun _ => rfl

/-- The state in which RMUL of `regions` runs meets the invariant. -/
theorem running_meets_the_invariant : (regions.launch 0x3#32).Inv where
  memBytesLegal := by decide +kernel
  dmemCanonical := by decide +kernel
  dmemPopulated := by decide +kernel
  coderLegal := by intro h; cases h
  errIffCode := by decide +kernel
  busyStatus := by decide +kernel
  snapshotCoderLegal := by intro r h; cases h; intro h; cases h
  footprintInRange := by intro r h; cases h; unfold RegionsInRange; decide +kernel
  abortedInRange := by intro r h; cases h
  resetIdle := by intro h; cases h
  abortedRecorded := fun h => absurd rfl h
  abortedInReset := fun _ => rfl

theorem witness_StepKeepsTheInvariant :
    (regions.launch 0x3#32).Inv ∧ ∃ t, step (regions.launch 0x3#32) = .next t := by
  obtain ⟨t, h, -⟩ := next_of_map (f := fun t => t.status.done) (v := true)
    (show (nextOf (step (regions.launch 0x3#32))).map _ = _ by decide +kernel)
  exact ⟨running_meets_the_invariant, t, h⟩

theorem witness_RunningFootprintStaysThatOfTheCommand :
    let s := { regions.launch 0x3#32 with schedule := [.host (.memWrite 0x300#32 0x55#8)] }
    s.Inv ∧ (∃ t, step s = .next t ∧ t.hostRace = false ∧ t.running = s.running) ∧
      ∀ r, s.running = some r → r.fp = wordFootprint r.snap.word s.memBytes r.snap.operands s.dmem := by
  refine ⟨running_meets_the_invariant.withSchedule _, ?_, fun r h => ?_⟩
  · obtain ⟨t, h, hv⟩ := next_of_map (f := fun t => (t.hostRace, t.running)) (v := (false, (regions.launch 0x3#32).running))
      (show (nextOf (step { regions.launch 0x3#32 with schedule := [.host (.memWrite 0x300#32 0x55#8)] })).map _ = _
        by decide +kernel)
    exact ⟨t, h, congrArg Prod.fst hv, congrArg Prod.snd hv⟩
  cases h
  rfl

/-- `machine` with DONE = 1, a last read of STATUS to come, and an engine turn after it. -/
def waiting : State :=
  { machine with status := { Status.reset with done := true }, schedule := [.host (.regRead 0x008#12), .engine] }

/-- `machine` with a bare CMD write as the host's last step. -/
def bareCmd : State := { machine with schedule := [.host (.regWrite 0x00C#12 0x1#32)] }

theorem waiting_meets_the_invariant : waiting.Inv where
  memBytesLegal := by decide
  dmemCanonical := rfl
  dmemPopulated := by intro c hc; cases hc
  coderLegal := by intro h; cases h
  errIffCode := by decide
  busyStatus := by intro h; cases h
  snapshotCoderLegal := by intro r h; cases h
  footprintInRange := by intro r h; cases h
  abortedInRange := by intro r h; cases h
  resetIdle := by intro h; cases h
  abortedRecorded := fun h => absurd rfl h
  abortedInReset := fun _ => rfl

/-- A WAIT's last read ends a run in a defined state. -/
theorem test_wait_ends_the_run : ∃ t, step waiting = .next t ∧ t.portData.getLsbD 1 = true ∧ EndDefined waiting t :=
  ⟨_, rfl, by decide +kernel, ⟨⟨_, _, rfl, by decide, rfl⟩, rfl, rfl, rfl, rfl⟩⟩

/-- A run that ends on a bare CMD write is BUSY there, and the engine turn after it is not the host's last step. -/
theorem test_bare_cmd_ends_busy :
    (∀ t, step bareCmd = .next t → ¬EndDefined bareCmd t) ∧
      ∀ t u, step bareCmd = .next t → step t = .next u → ¬EndDefined t u := by
  constructor
  · intro t h he
    cases h
    cases he.idle
  · intro t u h _ he
    cases h
    obtain ⟨op, rest, hs, -, -⟩ := he.lastStep
    cases hs

/-- A command with no host turn left; a WAIT's last read; a launch as the last step; and a defined end with its next step. -/
theorem witness_EveryCommandCompletes :
    ((∃ r, (regions.launch 0x3#32).running = some r) ∧ (regions.launch 0x3#32).hostRace = false ∧
      (regions.launch 0x3#32).rstLow = false ∧ (regions.launch 0x3#32).schedule = []) ∧
    (waiting.Inv ∧ waiting.abortedCommand = false ∧ waiting.schedule = .host (.regRead 0x008#12) :: [.engine] ∧
      ∃ t, step waiting = .next t ∧ t.portData.getLsbD 1 = true) ∧
    (bareCmd.rstLow = false ∧ bareCmd.schedule = .host (.regWrite 0x00C#12 0x1#32) :: [] ∧ ∃ t, step bareCmd = .next t) ∧
    ∃ t u, EndDefined waiting t ∧ step t = .next u := by
  refine ⟨⟨⟨_, rfl⟩, rfl, rfl, rfl⟩, ⟨waiting_meets_the_invariant, rfl, rfl, _, rfl, by decide +kernel⟩,
    ⟨rfl, rfl, _, rfl⟩, ?_⟩
  obtain ⟨t, h, -, he⟩ := test_wait_ends_the_run
  cases h
  exact ⟨_, _, he, rfl⟩

theorem witness_CmdWrites :
    machine.running = none ∧ ∃ r, (machine.launch 0x1#32).running = some r := ⟨rfl, _, rfl⟩

/-- The first reserved offset, the last one, and two offsets of one register. -/
theorem witness_PortIgnoresLowOffsetBitsAndReservedOffsets :
    (0x07B#12 >>> 2 = 0x078#12 >>> 2) ∧ 0x07C ≤ (0x07C#12).toNat ∧ 0x07C ≤ (0xFFF#12).toNat ∧
      (0x078, Reg.coderWs) ∈ registerMap ∧ machine.rstLow = false := by decide +kernel

theorem witness_WritableRegistersKeepTheirFieldBits : Reg.k ≠ Reg.m ∧ Reg.k ≠ Reg.wsSize := by decide

theorem witness_IrqFollowsEnableAndDone :
    (scalars.launch 0x1#32).busy = true ∧ (scalars.launch 0x1#32).rstLow = false ∧
      (∃ t, (scalars.launch 0x1#32).engineTurn = .next t) ∧ machine.running = none ∧ (0x2#32).getLsbD 1 = true :=
  ⟨rfl, rfl, ⟨_, rfl⟩, rfl, by decide⟩

/-- While IDLE at the last address and at the first one that is not populated; while BUSY just outside the footprint, in FP.R
and in FP.W at their ends; and in the FP.W of an aborted command. -/
theorem witness_HostDmemAccessesFollowTheTable :
    let s := regions.launch 0x3#32
    ((0xFFFF#32).toNat < machine.memBytes ∧ inRegions machine.aborted 0xFFFF = false ∧ machine.running = none) ∧
      machine.memBytes ≤ (0x10000#32).toNat ∧ s.memBytes = 0x10000 ∧
      (∃ r, s.running = some r ∧ inRegions (r.fp.reads ++ r.fp.writes) 0x106 = false ∧
        inRegions (r.fp.reads ++ r.fp.writes) 0x105 = true ∧ inRegions (r.fp.reads ++ r.fp.writes) 0x200 = true ∧
        inRegions r.fp.writes 0x105 = false ∧ inRegions r.fp.writes 0x205 = true) ∧
      inRegions s.assertReset.aborted 0x205 = true ∧ inRegions s.assertReset.aborted 0x206 = false :=
  ⟨by decide +kernel, by decide +kernel, rfl, ⟨_, rfl, by decide +kernel, by decide +kernel, by decide +kernel,
    by decide +kernel, by decide +kernel⟩, by decide +kernel, by decide +kernel⟩

theorem witness_NothingClearsTheRaceFault :
    let s : State := { machine with hostRace := true }
    s.hostRace = true ∧ (∃ t, exec .gfmul s = .next t) ∧ ∃ t, s.hostTurn .reset = .next t :=
  ⟨rfl, ⟨_, rfl⟩, ⟨_, rfl⟩⟩

theorem witness_ResetKeepsDmemOutsideTheAbortedFootprint :
    (machine.aborted = [] ∧ machine.running = none) ∧
      ((regions.launch 0x3#32).aborted = [] ∧ ∃ r, (regions.launch 0x3#32).running = some r) :=
  ⟨⟨rfl, rfl⟩, rfl, _, rfl⟩

theorem witness_PortAndEngineAreDeadWhileResetIsLow : machine.assertReset.rstLow = true := rfl

end Sys2Proof.Tests
end

section
/-! PROOF. The registers (10_state.md): WS_SIZE, RESULT, the register port, STATUS and the read-only registers. Beside them,
what the completion of a command leaves, said once for every command. -/

namespace Sys2Proof.Machine

/-! ### WS_SIZE -/

/-- The bound of 00_scope.md R9, reached at k = 256 and m = 0. -/
theorem stateSize_le (k m : Nat) : stateSize k m ≤ 131584 := by
  unfold stateSize
  split
  · exact Nat.zero_le _
  · rename_i hkm
    have hsum : k + m ≤ 256 := Nat.le_of_not_lt hkm
    have hk : k ≤ 256 := by omega
    calc 2 * k ^ 2 + 2 * k + k * m
        = k * (k + (k + m) + 2) := by ring
      _ ≤ 256 * (256 + 256 + 2) := by gcongr
      _ = 131584 := rfl

/-- The state size fits the register, so a read of WS_SIZE cuts nothing off. -/
theorem State.toNat_readReg_wsSize (s : State) :
    (s.readReg .wsSize).toNat = stateSize s.params.k.toNat s.params.m.toNat :=
  Nat.mod_eq_of_lt (Nat.lt_of_le_of_lt (stateSize_le _ _) (by decide))

/-- Settles O17, by the bound on the state size, which is below 2^32. -/
theorem wsSizeReadsStateSize : Obligations.WsSizeReadsStateSize := by
  unfold Obligations.WsSizeReadsStateSize
  refine ⟨fun s => ?_, fun s => ?_, rfl⟩
  · rw [s.toNat_readReg_wsSize, stateSize]
  · rw [s.toNat_readReg_wsSize]
    exact stateSize_le _ _

/-! ### What the completion of a command leaves -/

/-- `t` is `s` after the completion of a command that touches DMEM at most: nothing else differs but the draw counter, STATUS
and the phase. -/
def State.CompletesTo (s t : State) : Prop := ∃ code mem draws, t = s.doneWith code mem draws

theorem State.CompletesTo.result {s t : State} (h : s.CompletesTo t) : t.result = s.result := by
  obtain ⟨code, mem, draws, rfl⟩ := h
  exact s.doneWith_result code mem draws

theorem State.completesTo_complete (s : State) (code : ErrCode) : s.CompletesTo (s.complete code) :=
  ⟨code, s.dmem, 0, rfl⟩

/-- The DMEM effect of a command touches DMEM and the draw counter alone, with or without an overlap (20_memory.md R79). -/
theorem State.commit_eq_update (s : State) (fp : Footprint) (mem : Memory) (any : List Region) :
    ∃ mem' draws, s.commit fp mem any = { s with dmem := mem', freeCount := s.freeCount + draws } := by
  unfold State.commit
  split
  · exact ⟨_, drawCount fp.writes, rfl⟩
  · exact ⟨_, drawCount any, rfl⟩

theorem State.completesTo_commit (s : State) (fp : Footprint) (mem : Memory) (any : List Region) (code : ErrCode) :
    s.CompletesTo ((s.commit fp mem any).complete code) := by
  obtain ⟨mem', draws, hcommit⟩ := s.commit_eq_update fp mem any
  exact ⟨code, mem', draws, by rw [hcommit]; rfl⟩

theorem State.completesTo_regionCommit (s : State) (f : Byte → Byte → Byte) (code : ErrCode) :
    s.CompletesTo ((s.regionCommit f).complete code) := by
  unfold State.regionCommit
  split
  · exact ⟨code, _, 0, rfl⟩
  · exact s.completesTo_commit _ _ _ code

/-- A command with checks completes, whether a check fails or it runs (60_exceptions.md R190, R193). -/
theorem State.completesTo_of_finish {α : Type} {s t : State} {checked : Checked α} {run : α → State}
    (h : s.finish checked run = .next t) (hrun : ∀ job, s.CompletesTo (run job)) : s.CompletesTo t := by
  obtain ⟨code, -, -, rfl⟩ | ⟨job, -, rfl⟩ := s.finish_cases t checked run h
  · exact s.completesTo_complete code
  · exact hrun job

theorem execMatinv_completesTo {s t : State} (h : execMatinv s = .next t) : s.CompletesTo t := by
  refine State.completesTo_of_finish h fun _ => ?_
  split
  · exact ⟨.singular, _, drawCount _, rfl⟩
  · exact s.completesTo_commit _ _ _ _

theorem execDecode_completesTo {s t : State} (h : execDecode s = .next t) : s.CompletesTo t := by
  refine State.completesTo_of_finish h fun _ => ?_
  split
  · exact s.completesTo_commit _ _ _ _
  · split <;> exact s.completesTo_commit _ _ _ _

/-- Every command but GFMUL, GFINV and CONFIG touches DMEM, the draw counter, STATUS and the phase at most. -/
theorem exec_completesTo {i : Instr} {s t : State} (h : exec i s = .next t) (hgfmul : i ≠ .gfmul) (hgfinv : i ≠ .gfinv)
    (hconfig : i ≠ .config) : s.CompletesTo t := by
  cases i with
  | gfmul => exact absurd rfl hgfmul
  | gfinv => exact absurd rfl hgfinv
  | config => exact absurd rfl hconfig
  | rmul => exact State.completesTo_of_finish h fun _ => s.completesTo_regionCommit _ _
  | rmulacc => exact State.completesTo_of_finish h fun _ => s.completesTo_regionCommit _ _
  | rxor => exact State.completesTo_of_finish h fun _ => s.completesTo_regionCommit _ _
  | matinv => exact execMatinv_completesTo h
  | lincomb => exact State.completesTo_of_finish h fun _ => s.completesTo_commit _ _ _ _
  | lincombId => exact State.completesTo_of_finish h fun _ => s.completesTo_commit _ _ _ _
  | encode => exact State.completesTo_of_finish h fun _ => s.completesTo_commit _ _ _ _
  | decode => exact execDecode_completesTo h

/-- CONFIG touches the latched coder too (41_coder.md R143). -/
theorem exec_config_completesTo {s t : State} (h : exec .config s = .next t) :
    ∃ c, { s with coder := c }.CompletesTo t := by
  change execConfig s = .next t at h
  unfold execConfig at h
  split at h <;> cases h
  · exact ⟨_, State.completesTo_complete _ _⟩
  · obtain ⟨mem, draws, hcommit⟩ := s.commit_eq_update (configFootprint s.operands)
      (s.dmem.writeBytes (configCauchyBase s.operands)
        (cauchyMatrix s.operands.params.k.toNat s.operands.params.m.toNat).flatten) []
    exact ⟨_, .none, mem, draws, by rw [hcommit]; rfl⟩

/-- GFMUL (40_field.md R123). -/
theorem exec_gfmul (s : State) : exec .gfmul s =
    .next ({ s with result := gmul s.operands.params.opa s.operands.params.opb }.complete .none) := rfl

/-- GFINV of 0 (40_field.md R124). -/
theorem exec_gfinv_of_eq_zero {s : State} (h : s.operands.params.opa = 0#8) :
    exec .gfinv s = .next (s.complete .invZero) :=
  if_pos (beq_iff_eq.2 h)

/-- GFINV of a nonzero element (40_field.md R124). -/
theorem exec_gfinv_of_ne_zero {s : State} (h : s.operands.params.opa ≠ 0#8) :
    exec .gfinv s = .next ({ s with result := ginv s.operands.params.opa }.complete .none) :=
  if_neg (mt beq_iff_eq.1 h)

/-! ### RESULT -/

/-- Every entry of the inverse table, times its index, is 1 (40_field.md R122). -/
theorem gmul_ginv_self : ∀ y : Byte, y ≠ 0#8 → gmul (ginv y) y = 1#8 := by decide +kernel

theorem exec_keeps_result {i : Instr} {s t : State} (h : exec i s = .next t) (hgfmul : i ≠ .gfmul)
    (hgfinv : i ≠ .gfinv) : t.result = s.result := by
  by_cases hconfig : i = .config
  · subst hconfig
    obtain ⟨c, hc⟩ := exec_config_completesTo h
    exact hc.result
  · exact (exec_completesTo h hgfmul hgfinv hconfig).result

/-- GFINV either fails and keeps RESULT, or succeeds and leaves the inverse of OPA (40_field.md R124). -/
theorem exec_gfinv_result {s t : State} (h : exec .gfinv s = .next t) :
    (t.status.err = true ∧ t.result = s.result) ∨
      (t.status.err = false ∧ gmul t.result s.operands.params.opa = 1#8) := by
  by_cases hopa : s.operands.params.opa = 0#8
  · cases (exec_gfinv_of_eq_zero hopa).symm.trans h
    exact .inl ⟨rfl, rfl⟩
  · cases (exec_gfinv_of_ne_zero hopa).symm.trans h
    exact .inr ⟨rfl, gmul_ginv_self _ hopa⟩

/-- Settles O36: every other command is a completion that keeps RESULT, and GFINV succeeds exactly when OPA is not 0. -/
theorem resultIsWrittenOnlyByScalarCommands : Obligations.ResultIsWrittenOnlyByScalarCommands := by
  unfold Obligations.ResultIsWrittenOnlyByScalarCommands
  refine ⟨fun i s t h => exec_keeps_result h, fun s t h herr => ?_, fun s t h => ?_, fun s t h herr => ?_,
    fun s => ⟨?_, fun _ => rfl⟩, rfl, by decide⟩
  · obtain ⟨-, hkeep⟩ | ⟨hok, -⟩ := exec_gfinv_result h
    · exact hkeep
    · simp [hok] at herr
  · cases (exec_gfmul s).symm.trans h
    rfl
  · obtain ⟨hfail, -⟩ | ⟨-, hinv⟩ := exec_gfinv_result h
    · simp [hfail] at herr
    · exact hinv
  · exact BitVec.toNat_setWidth_of_le (by decide)

/-! ### The register port -/

/-- Masking bits [1:0] of an offset keeps exactly what stands above bit 1. -/
theorem offset_mask_eq_shift (o : BitVec 12) : o &&& 0xFFC#12 = (o >>> 2) <<< 2 := by
  rw [BitVec.shiftLeft_ushiftRight]; rfl

/-- Offset bits [1:0] are ignored (10_state.md R21). -/
theorem registerAt_congr {o q : BitVec 12} (h : o >>> 2 = q >>> 2) : registerAt o = registerAt q := by
  unfold registerAt
  rw [offset_mask_eq_shift, offset_mask_eq_shift, h]

theorem registerMap_offset_le : ∀ row ∈ registerMap, row.1 ≤ 0x078 := by decide

/-- Above the last register of the map every offset is reserved (10_state.md R21, R23). -/
theorem registerAt_eq_none {o : BitVec 12} (h : 0x07C ≤ o.toNat) : registerAt o = none := by
  have hmask : 0x07C ≤ (o &&& 0xFFC#12).toNat := by
    rw [offset_mask_eq_shift]; bv_omega
  unfold registerAt
  rw [Option.map_eq_none_iff, List.find?_eq_none]
  intro row hrow hreach
  have hle := registerMap_offset_le row hrow
  have heq := eq_of_beq hreach
  omega

theorem State.readOffset_of_some (s : State) {o : BitVec 12} {r : Reg} (h : registerAt o = some r) :
    s.readOffset o = s.readReg r := by
  unfold State.readOffset; rw [h]

theorem State.readOffset_of_none (s : State) {o : BitVec 12} (h : registerAt o = none) : s.readOffset o = 0#32 := by
  unfold State.readOffset; rw [h]

theorem State.writeOffset_of_some (s : State) {o : BitVec 12} {r : Reg} (v : Word) (h : registerAt o = some r) :
    s.writeOffset o v = s.writeReg r v := by
  unfold State.writeOffset; rw [h]

theorem State.writeOffset_of_none (s : State) {o : BitVec 12} (v : Word) (h : registerAt o = none) :
    s.writeOffset o v = s := by
  unfold State.writeOffset; rw [h]

/-- While rst_n is high a host register write is one through the port. -/
theorem State.hostTurn_regWrite (s : State) (o : BitVec 12) (v : Word) (h : s.rstLow = false) :
    s.hostTurn (.regWrite o v) = .next (s.writeOffset o v) := by
  simp [State.hostTurn, h]

/-- While rst_n is high a host register read is one through the port. -/
theorem State.hostTurn_regRead (s : State) (o : BitVec 12) (h : s.rstLow = false) :
    s.hostTurn (.regRead o) = .next { s with portData := s.readOffset o } := by
  simp [State.hostTurn, h]

/-- Settles O50: the port looks at an offset through `registerAt` alone, which is settled for all three kinds of offset. -/
theorem portIgnoresLowOffsetBitsAndReservedOffsets : Obligations.PortIgnoresLowOffsetBitsAndReservedOffsets := by
  unfold Obligations.PortIgnoresLowOffsetBitsAndReservedOffsets
  refine ⟨fun s o q v h => ?_, fun s o v h => ?_, fun row hrow s v => ?_, fun s o v h => ?_⟩
  · unfold State.readOffset State.writeOffset
    rw [registerAt_congr h]
    exact ⟨rfl, rfl⟩
  · have hreserved := registerAt_eq_none h
    exact ⟨s.readOffset_of_none hreserved, s.writeOffset_of_none v hreserved⟩
  · have hlisted : registerAt row.1 = some row.2 := by
      revert row
      decide
    exact ⟨s.readOffset_of_some hlisted, s.writeOffset_of_some v hlisted⟩
  · exact ⟨s.hostTurn_regWrite o v h, s.hostTurn_regRead o h⟩

/-! ### STATUS and the read-only registers -/

/-- A bit cleared by writing 1. -/
theorem and_not_eq_ite (old one : Bool) : (old && !one) = if one then false else old := by
  cases one <;> simp

/-- Settles O48: each bit of STATUS is cleared by writing 1 to it. -/
theorem statusWriteClearsWhereOne : Obligations.StatusWriteClearsWhereOne := by
  unfold Obligations.StatusWriteClearsWhereOne
  exact fun s v => ⟨s.status.clearOnes v, rfl, and_not_eq_ite _ _, and_not_eq_ite _ _, rfl, and_not_eq_ite _ _⟩

/-- Settles O52, register by register. -/
theorem readOnlyRegistersIgnoreWrites : Obligations.ReadOnlyRegistersIgnoreWrites := by
  unfold Obligations.ReadOnlyRegistersIgnoreWrites
  refine fun s v => ⟨?_, rfl, rfl⟩
  simp only [List.forall_mem_cons]
  exact ⟨rfl, rfl, rfl, rfl, rfl, rfl, List.forall_mem_nil _⟩

end Sys2Proof.Machine
end

section
/-! PROOF. DMEM (20_memory.md): the range predicate and the bytes of a region. -/

namespace Sys2Proof.Machine

/-! ### InRange and Region (20_memory.md R71) -/

theorem inRange_iff (memBytes b len : Nat) : inRange memBytes b len = true ↔ len = 0 ∨ b + len ≤ memBytes := by
  simp [inRange]

/-- No address is at or above the base and also below it. -/
theorem Region.contains_eq_false_of_len_zero {r : Region} (h : r.len = 0) (a : Nat) : r.contains a = false := by
  rw [Bool.eq_false_iff, ne_eq, r.contains_iff]
  omega

/-- Settles O54: each check unfolds to the inequality of R71, which at length 0 every base meets and no address does. -/
theorem rangePredicateIsUnbounded : Obligations.RangePredicateIsUnbounded := by
  unfold Obligations.RangePredicateIsUnbounded
  exact ⟨inRange_iff, Region.contains_iff,
    fun memBytes b => ⟨(inRange_iff memBytes b 0).mpr (.inl rfl), Region.contains_eq_false_of_len_zero rfl⟩⟩

end Sys2Proof.Machine
end

section
/-! PROOF. The command word (30_encoding.md): the decoder against the opcode map, the three illegal cases, and what a word
that is no command does from its launch to its completion. -/

namespace Sys2Proof

/-! ### The opcode map (30_encoding.md R103) -/

theorem decode_of_mem_opcodeTable : ∀ row ∈ opcodeTable, decode row.1 = .instr row.2 := by decide

/-- Decoding is an exact match against the rows of the opcode map (30_encoding.md R101). -/
theorem decode_eq_instr_iff (w : Word) (i : Instr) : decode w = .instr i ↔ (w, i) ∈ opcodeTable := by
  refine ⟨fun h => ?_, decode_of_mem_opcodeTable (w, i)⟩
  unfold decode at h
  split at h
  case h_1 row hfind =>
    cases h
    have hword : row.1 = w := by simpa using List.find?_some hfind
    subst hword
    exact List.mem_of_find?_eq_some hfind
  case h_2 => cases h

/-- Settles O1: each word and its command are a row of the opcode map. -/
theorem legalWordsDecodeToTheirCommands : Obligations.LegalWordsDecodeToTheirCommands := by
  unfold Obligations.LegalWordsDecodeToTheirCommands
  simp only [decode_eq_instr_iff]
  decide

/-! ### The fields of a word (30_encoding.md R100) -/

/-- One bit as a field of its own. -/
theorem ofBool_getLsbD {width : Nat} (w : BitVec width) (n : Nat) : BitVec.ofBool (w.getLsbD n) = w.extractLsb' n 1 := by
  refine BitVec.eq_of_getLsbD_eq fun j hj => ?_
  obtain rfl : j = 0 := by omega
  simp

/-- The fields hold every bit of the word. -/
theorem joinFields_splitWord (w : Word) : joinFields (splitWord w) = w :=
  calc joinFields (splitWord w)
      = w.extractLsb' 10 22 ++ (w.extractLsb' 9 1 ++ (w.extractLsb' 8 1 ++ w.extractLsb' 0 8)) := by
        rw [← ofBool_getLsbD, ← ofBool_getLsbD]; rfl
    _ = w.extractLsb' 0 32 := by
        simp only [BitVec.extractLsb'_append_extractLsb'_eq_extractLsb']
    _ = w := BitVec.extractLsb'_eq_self

theorem splitWord_op (w : Word) : (splitWord w).op = w.setWidth 8 :=
  (BitVec.setWidth_eq_extractLsb' (by decide)).symm

theorem splitWord_rsv_eq_zero_iff (w : Word) : (splitWord w).rsv = 0#22 ↔ w >>> 10 = 0#32 := by
  have hrsv : (splitWord w).rsv.toNat = (w >>> 10).toNat :=
    Nat.mod_eq_of_lt (BitVec.toNat_ushiftRight_lt w 10 (by decide))
  rw [← BitVec.toNat_inj, ← BitVec.toNat_inj, hrsv]
  rfl

/-! ### The illegal cases (30_encoding.md R101) -/

/-- The OP values that have a row in the opcode map. -/
def assignedOps : List Byte := [0x01#8, 0x02#8, 0x03#8, 0x04#8, 0x10#8, 0x11#8, 0x12#8, 0x20#8, 0x21#8]

theorem CommandFields.opAssigned_iff (f : CommandFields) : f.opAssigned = true ↔ f.op ∈ assignedOps :=
  List.contains_iff_mem

theorem toNat_mem_assignedOps_iff (op : Byte) :
    op.toNat ∈ [0x01, 0x02, 0x03, 0x04, 0x10, 0x11, 0x12, 0x20, 0x21] ↔ op ∈ assignedOps :=
  List.mem_map_of_injective (l := assignedOps) fun _ _ => BitVec.eq_of_toNat_eq

theorem CommandFields.wellFormed_iff (f : CommandFields) : f.wellFormed = true ↔
    f.op ∈ assignedOps ∧ (f.acc = true → f.op = 0x03#8) ∧ (f.ident = true → f.op = 0x12#8) ∧ f.rsv = 0#22 := by
  simp [wellFormed, f.opAssigned_iff, accLegal, identLegal, rsvZero, and_assoc, imp_iff_not_or]

theorem wellFormed_of_mem_opcodeTable : ∀ row ∈ opcodeTable, (splitWord row.1).wellFormed = true := by decide

/-- An assigned OP, the flags it takes and RSV = 0 make a word of the opcode map. -/
theorem joinFields_mem_of_flagsLegal : ∀ op ∈ assignedOps, ∀ acc ident : Bool,
    (acc = true → op = 0x03#8) → (ident = true → op = 0x12#8) →
      joinFields ⟨op, acc, ident, 0#22⟩ ∈ opcodeTable.map Prod.fst := by decide

/-- The words of the opcode map are those that none of the illegal cases rejects. -/
theorem exists_row_iff_wellFormed (w : Word) : (∃ i, (w, i) ∈ opcodeTable) ↔ (splitWord w).wellFormed = true := by
  refine ⟨fun ⟨i, h⟩ => wellFormed_of_mem_opcodeTable (w, i) h, fun h => ?_⟩
  obtain ⟨hop, hacc, hident, hrsv⟩ := (splitWord w).wellFormed_iff.mp h
  have hmem := joinFields_mem_of_flagsLegal _ hop _ _ hacc hident
  rw [← hrsv, joinFields_splitWord] at hmem
  simpa using hmem

theorem forall_decode_ne_instr_iff (w : Word) :
    (∀ i, decode w ≠ .instr i) ↔ ¬ (splitWord w).wellFormed = true := by
  rw [← exists_row_iff_wellFormed, not_exists]
  simp only [ne_eq, decode_eq_instr_iff]

end Sys2Proof

namespace Sys2Proof.Machine

/-! ### A word that is no command, from launch to completion -/

/-- The decoder rejects a word that is no command. -/
theorem exists_decode_eq_rejected {w : Word} (h : ∀ i, decode w ≠ .instr i) : ∃ why, decode w = .rejected why := by
  cases hw : decode w with
  | instr i => exact absurd hw (h i)
  | rejected why => exact ⟨why, rfl⟩

/-- It reads and writes no DMEM (30_encoding.md R101). -/
theorem wordFootprint_of_illegal {w : Word} (h : ∀ i, decode w ≠ .instr i) (memBytes : Nat) (o : Operands)
    (mem : Memory) : wordFootprint w memBytes o mem = .empty := by
  obtain ⟨why, hw⟩ := exists_decode_eq_rejected h
  unfold wordFootprint
  rw [hw]

theorem State.engineTurn_of_illegal {s : State} {r : Running} (hrst : s.rstLow = false) (hr : s.running = some r)
    (h : ∀ i, decode r.snap.word ≠ .instr i) : s.engineTurn = .next (s.complete .badCmd) := by
  obtain ⟨why, hw⟩ := exists_decode_eq_rejected h
  simp [State.engineTurn, hrst, hr, hw]

/-- A write to CMD of an idle machine launches (10_state.md R28). -/
theorem State.writeReg_cmd_of_idle {s : State} (w : Word) (h : s.running = none) : s.writeReg .cmd w = s.launch w := by
  simp [State.writeReg, State.writeCmd, State.busy, h]

/-- A command that fails at once changes STATUS alone: completion takes back what launch did to the phase. -/
theorem State.complete_launch {s : State} (w : Word) (code : ErrCode) (h : s.running = none) :
    (s.launch w).complete code = { s with status := s.status.completed code } := by
  cases s
  cases h
  rfl

/-- Settles O3: the illegal cases are what well-formed fields rule out, and a rejected word has the empty footprint and no
effect but its completion. -/
theorem illegalWordsCompleteWithBadCmd : Obligations.IllegalWordsCompleteWithBadCmd := by
  unfold Obligations.IllegalWordsCompleteWithBadCmd
  refine ⟨fun w => ?_, fun s w hidle hrst hillegal => ?_⟩
  · rw [forall_decode_ne_instr_iff, CommandFields.wellFormed_iff, splitWord_rsv_eq_zero_iff, splitWord_op,
      toNat_mem_assignedOps_iff]
    simp only [not_and_or, Classical.not_imp]
    rfl
  · rw [State.writeReg_cmd_of_idle w hidle]
    refine ⟨fun r hr => ?_, ?_⟩
    · cases hr
      exact wordFootprint_of_illegal hillegal _ _ _
    · have hturn := State.engineTurn_of_illegal (s := s.launch w) hrst rfl hillegal
      rw [hturn, State.complete_launch w .badCmd hidle]
      rfl

end Sys2Proof.Machine
end

section
/-! PROOF. The field (40_field.md): the laws of `gmul` and `ginv`, what `gmul` is as a product of polynomials, and the five
commands of the field unit. -/

namespace Sys2Proof.Machine

/-! ### The laws of the field (40_field.md R121)

`gmul a b` is the sum of the doublings of `a` that the bits of `b` select, so multiplying by `b` commutes with doubling, and
with it every multiplication commutes with every other. Commutativity and associativity follow from that and `1 · a = a`. -/

@[simp] theorem gmul_zero (a : Byte) : gmul a 0#8 = 0#8 := by
  rw [gmul_eq_loop, gmulLoop_zero_right]

@[simp] theorem zero_gmul (a : Byte) : gmul 0#8 a = 0#8 := by
  rw [gmul_eq_loop, gmulLoop_zero_left]

theorem one_gmul : ∀ a : Byte, gmul 1#8 a = a := by decide +kernel

theorem xor_gmul (a b c : Byte) : gmul (a ^^^ b) c = gmul a c ^^^ gmul b c := by
  simp only [gmul_eq_loop, gmulLoop_xor_left]

/-- One round of the loop: bit 0 of the second operand selects the first one. -/
theorem gmulLoop_succ (n : Nat) (a b : Byte) :
    gmulLoop (n + 1) a b 0#8 = (if b.getLsbD 0 then a else 0#8) ^^^ gmulLoop n (gfDouble a) (b >>> 1) 0#8 := by
  rw [gmulLoop, gmulLoop_acc, BitVec.zero_xor]

/-- An additive map that commutes with doubling goes through the loop. -/
theorem gmulLoop_map {f : Byte → Byte} (hadd : ∀ x y, f (x ^^^ y) = f x ^^^ f y)
    (hdouble : ∀ x, f (gfDouble x) = gfDouble (f x)) (n : Nat) (a b : Byte) :
    gmulLoop n (f a) b 0#8 = f (gmulLoop n a b 0#8) := by
  have hzero : f 0#8 = 0#8 := by simpa using hadd 0#8 0#8
  induction n generalizing a b with
  | zero => exact hzero.symm
  | succ n ih => rw [gmulLoop_succ, gmulLoop_succ, hadd, ← hdouble, ih, apply_ite f, hzero]

theorem gmul_gfDouble (a b : Byte) : gmul (gfDouble a) b = gfDouble (gmul a b) := by
  rw [gmul_eq_loop, gmul_eq_loop, gmulLoop_map gfDouble_xor fun _ => rfl]

/-- Multiplications commute with each other. -/
theorem gmul_right_comm (a b c : Byte) : gmul (gmul a b) c = gmul (gmul a c) b := by
  rw [gmul_eq_loop _ c, gmul_eq_loop a c]
  exact gmulLoop_map (f := (gmul · b)) (xor_gmul · · b) (gmul_gfDouble · b) 8 a c

theorem gmul_comm (a b : Byte) : gmul a b = gmul b a :=
  calc gmul a b = gmul (gmul 1#8 a) b := by rw [one_gmul]
    _ = gmul (gmul 1#8 b) a := gmul_right_comm _ _ _
    _ = gmul b a := by rw [one_gmul]

theorem gmul_assoc (a b c : Byte) : gmul (gmul a b) c = gmul a (gmul b c) := by
  rw [gmul_comm a b, gmul_right_comm, gmul_comm]

theorem gmul_xor (a b c : Byte) : gmul a (b ^^^ c) = gmul a b ^^^ gmul a c := by
  simp only [gmul_comm a, xor_gmul]

/-- A product with a nonzero factor can be undone by the factor's inverse. -/
theorem ginv_gmul_cancel {a : Byte} (ha : a ≠ 0#8) (b : Byte) : gmul (ginv a) (gmul a b) = b := by
  rw [← gmul_assoc, gmul_ginv_self a ha, one_gmul]

theorem eq_zero_or_eq_zero_of_gmul_eq_zero (a b : Byte) (h : gmul a b = 0#8) : a = 0#8 ∨ b = 0#8 := by
  refine or_iff_not_imp_left.mpr fun ha => ?_
  rw [← ginv_gmul_cancel ha b, h, gmul_zero]

/-! ### The order of 0x02 -/

theorem gfPower_eq_iterate (a : Byte) (n : Nat) : gfPower a n = (gmul a)^[n] 1#8 := by
  induction n with
  | zero => rfl
  | succ n ih => rw [Function.iterate_succ_apply', ← ih, gfPower]

theorem gfPower_eq_one_iff (a : Byte) (n : Nat) : gfPower a n = 1#8 ↔ Function.IsPeriodicPt (gmul a) n 1#8 := by
  rw [gfPower_eq_iterate]
  rfl

/-- 255 is 3 · 5 · 17. -/
theorem dvd_of_dvd_255 {d : Nat} (h : d ∣ 255) (hne : d ≠ 255) : d ∣ 85 ∨ d ∣ 51 ∨ d ∣ 15 := by
  have hall : ∀ d ∈ Nat.divisors 255, d ≠ 255 → d ∣ 85 ∨ d ∣ 51 ∨ d ∣ 15 := by decide +kernel
  exact hall d (Nat.mem_divisors.mpr ⟨h, by decide⟩) hne

/-- The order of 0x02 divides 255 and none of 255/3, 255/5 and 255/17. -/
theorem minimalPeriod_gmul_two : Function.minimalPeriod (gmul 2#8) 1#8 = 255 := by
  have h255 : gfPower 2#8 255 = 1#8 := by decide +kernel
  have hproper : gfPower 2#8 85 ≠ 1#8 ∧ gfPower 2#8 51 ≠ 1#8 ∧ gfPower 2#8 15 ≠ 1#8 := by decide +kernel
  simp only [ne_eq, gfPower_eq_one_iff, Function.isPeriodicPt_iff_minimalPeriod_dvd] at h255 hproper
  by_contra hne
  have hdvd := dvd_of_dvd_255 h255 hne
  tauto

/-- Settles O8, from the laws above, one by one. -/
theorem fieldLaws : Obligations.FieldLaws := by
  unfold Obligations.FieldLaws
  refine ⟨gmul_comm, gmul_zero, fun a ha => ?_, gmul_assoc, BitVec.xor_assoc, BitVec.xor_comm, one_gmul, gmul_xor,
    fun a => BitVec.xor_self, eq_zero_or_eq_zero_of_gmul_eq_zero, ?_, fun n hpos hlt => ?_⟩
  · rw [gmul_comm, gmul_ginv_self a ha]
  · rw [gfPower_eq_one_iff, ← minimalPeriod_gmul_two]
    exact Function.isPeriodicPt_minimalPeriod _ _
  · rw [ne_eq, gfPower_eq_one_iff]
    exact Function.not_isPeriodicPt_of_pos_of_lt_minimalPeriod hpos.ne' (minimalPeriod_gmul_two ▸ hlt)

/-! ### Inversion (40_field.md R122) -/

theorem eq_ginv_of_gmul_eq_one {x y : Byte} (hy : y ≠ 0#8) (h : gmul x y = 1#8) : x = ginv y := by
  rw [← ginv_gmul_cancel hy x, gmul_comm y, h, gmul_comm, one_gmul]

theorem ginv_ne_zero {y : Byte} (hy : y ≠ 0#8) : ginv y ≠ 0#8 := by
  intro hzero
  have hone := gmul_ginv_self y hy
  rw [hzero, zero_gmul] at hone
  exact absurd hone (by decide)

/-- Settles O9: the product with the inverse pins it, and y is itself the inverse of ginv(y). -/
theorem ginvIsTheUniqueInverse : Obligations.GinvIsTheUniqueInverse := by
  unfold Obligations.GinvIsTheUniqueInverse
  intro y hy
  refine ⟨gmul_ginv_self y hy, fun x => eq_ginv_of_gmul_eq_one hy, ginv_ne_zero hy, ?_⟩
  exact (eq_ginv_of_gmul_eq_one (ginv_ne_zero hy) (by rw [gmul_comm, gmul_ginv_self y hy])).symm

/-! ### The carry-less product modulo 0x11D (40_field.md R120)

Reduction is additive and takes the shifts of 0x11D to 0, so it takes the i-th shift of `a` to its i-th doubling; those are
the terms of the loop and of the carry-less product alike. -/

/-- A step that cancels one bit, where it is set, is additive. -/
theorem ite_getLsbD_xor_add {w : Nat} (p q c : BitVec w) (k : Nat) :
    (if (p ^^^ q).getLsbD k then (p ^^^ q) ^^^ c else p ^^^ q) =
      (if p.getLsbD k then p ^^^ c else p) ^^^ (if q.getLsbD k then q ^^^ c else q) := by
  have hcancel : (p ^^^ c) ^^^ (q ^^^ c) = p ^^^ q := by
    rw [BitVec.xor_assoc, BitVec.xor_comm q, ← BitVec.xor_assoc c, BitVec.xor_self, BitVec.zero_xor]
  rw [BitVec.getLsbD_xor]
  cases p.getLsbD k <;> cases q.getLsbD k
  · rfl
  · exact BitVec.xor_assoc p q c
  · simp only [Bool.true_bne, Bool.not_false, if_true, Bool.false_eq_true, if_false]
    ac_rfl
  · exact hcancel.symm

theorem reduce11D_xor (p q : BitVec 16) : reduce11D (p ^^^ q) = reduce11D p ^^^ reduce11D q := by
  unfold reduce11D
  rw [← BitVec.setWidth_xor]
  congr 1
  induction List.range 8 generalizing p q with
  | nil => rfl
  | cons i is ih => simp only [List.foldl_cons, ite_getLsbD_xor_add, ih]

theorem reduce11D_shift_modulus : ∀ i < 8, reduce11D (0x11D#16 <<< i) = 0#8 := by decide

/-- A byte is reduced already. -/
theorem reduce11D_setWidth (a : Byte) : reduce11D (a.setWidth 16) = a := by
  revert a
  decide +kernel

/-- Shifting left by one is doubling, up to the modulus. -/
theorem shift_one_eq_gfDouble : ∀ a : Byte, a.setWidth 16 <<< 1 =
    (gfDouble a).setWidth 16 ^^^ (if a.getLsbD 7 then 0x11D#16 else 0#16) := by decide +kernel

theorem reduce11D_shift_succ {i : Nat} (hi : i < 8) (a : Byte) :
    reduce11D (a.setWidth 16 <<< (i + 1)) = reduce11D ((gfDouble a).setWidth 16 <<< i) := by
  rw [Nat.add_comm, BitVec.shiftLeft_add, shift_one_eq_gfDouble, BitVec.shiftLeft_xor_distrib, reduce11D_xor]
  split
  · rw [reduce11D_shift_modulus i hi, BitVec.xor_zero]
  · rw [BitVec.zero_shiftLeft, show reduce11D 0#16 = 0#8 from rfl, BitVec.xor_zero]

theorem reduce11D_shift {i : Nat} (hi : i ≤ 8) (a : Byte) :
    reduce11D (a.setWidth 16 <<< i) = gfDouble^[i] a := by
  induction i generalizing a with
  | zero => rw [BitVec.shiftLeft_zero, reduce11D_setWidth, Function.iterate_zero_apply]
  | succ i ih => rw [reduce11D_shift_succ hi, ih (by omega), Function.iterate_succ_apply]

/-- The loop sums the doublings of `a` at the bits of `b`. -/
theorem gmulLoop_eq_foldl (n : Nat) (a b p : Byte) :
    gmulLoop n a b p = (List.range n).foldl (fun p i => if b.getLsbD i then p ^^^ gfDouble^[i] a else p) p := by
  induction n generalizing a b p with
  | zero => rfl
  | succ n ih =>
    rw [gmulLoop, ih, List.range_succ_eq_map, List.foldl_cons, List.foldl_map]
    simp only [BitVec.getLsbD_ushiftRight, Nat.add_comm 1, Function.iterate_succ_apply, Function.iterate_zero_apply]

/-- Settles O7: reduction goes through the sum of the shifts of `a` term by term. -/
theorem gmulIsCarrylessProductModulo11D : Obligations.GmulIsCarrylessProductModulo11D := by
  unfold Obligations.GmulIsCarrylessProductModulo11D
  intro a b
  have hterms : reduce11D (carrylessProduct a b) =
      (List.range 8).foldl (fun p i => if b.getLsbD i then p ^^^ reduce11D (a.setWidth 16 <<< i) else p) 0#8 :=
    (List.foldl_hom reduce11D fun p i => by rw [apply_ite reduce11D, reduce11D_xor]).symm
  rw [gmul_eq_loop, gmulLoop_eq_foldl, hterms]
  refine List.foldl_ext _ _ _ fun p i hi => ?_
  rw [reduce11D_shift (List.mem_range.mp hi).le]

/-! ### GFMUL and GFINV (40_field.md R123, R124) -/

/-- Settles O10: the arm of GFMUL, field by field. -/
theorem gfmulWritesTheProduct : Obligations.GfmulWritesTheProduct := by
  unfold Obligations.GfmulWritesTheProduct
  exact fun s => ⟨rfl, exec_gfmul s⟩

/-- Settles O11: the two arms of GFINV, with `gmul_ginv_self` for the value of the second. -/
theorem gfinvWritesTheInverseOrRefusesZero : Obligations.GfinvWritesTheInverseOrRefusesZero := by
  unfold Obligations.GfinvWritesTheInverseOrRefusesZero
  exact fun s => ⟨rfl, exec_gfinv_of_eq_zero, fun h => ⟨_, gmul_ginv_self _ h, exec_gfinv_of_ne_zero h⟩⟩

/-! ### RMUL, RMULACC and RXOR (40_field.md R125-R127) -/

theorem State.fits_iff (s : State) (b len : Nat) : s.Fits b len ↔ inRange s.memBytes b len = true :=
  (inRange_iff s.memBytes b len).symm

/-- Either check fails with the same code (40_field.md R125). -/
theorem State.regionCheck_of_not_fits {s : State}
    (h : ¬(s.Fits s.operands.params.src.toNat s.operands.len ∧ s.Fits s.operands.params.dst.toNat s.operands.len)) :
    regionCheck s.memBytes s.operands = .fail .bus [] := by
  rw [s.fits_iff, s.fits_iff, not_and_or] at h
  obtain hsrc | hdst := h
  · simp [regionCheck, Operands.srcRegion, hsrc]
  · simp [regionCheck, Operands.dstRegion, hdst]

theorem State.regionCheck_of_fits {s : State} (hsrc : s.Fits s.operands.params.src.toNat s.operands.len)
    (hdst : s.Fits s.operands.params.dst.toNat s.operands.len) :
    regionCheck s.memBytes s.operands = .ok () := by
  rw [s.fits_iff] at hsrc hdst
  simp [regionCheck, Operands.srcRegion, Operands.dstRegion, hsrc, hdst]

/-- SRC = DST, or the two regions share no byte: where a region command is exact (40_field.md R125-R127). -/
def Operands.RegionsExact (o : Operands) : Prop :=
  o.params.src.toNat = o.params.dst.toNat ∨ o.params.dst.toNat + o.len ≤ o.params.src.toNat ∨
    o.params.src.toNat + o.len ≤ o.params.dst.toNat

theorem regionFootprint_overlaps_iff (o : Operands) : (regionFootprint o).overlaps = true ↔
    o.params.src.toNat < o.params.dst.toNat + o.len ∧ o.params.dst.toNat < o.params.src.toNat + o.len := by
  simp only [Footprint.overlaps, regionFootprint, regionsOverlap, Region.meets, Operands.srcRegion, Operands.dstRegion,
    List.any_cons, List.any_nil, Bool.or_false, Bool.false_or, Bool.and_eq_true, decide_eq_true_eq]
  omega

theorem State.regionCommit_of_exact {s : State} (f : Byte → Byte → Byte) (h : s.operands.RegionsExact) :
    s.regionCommit f = { s with dmem := regionRun f s.operands s.dmem } := by
  unfold State.regionCommit
  split
  · rfl
  · rename_i hne
    obtain heq | hapart := h
    · exact absurd (BitVec.eq_of_toNat_eq heq) hne
    · refine s.commit_of_not_overlaps _ _ (Bool.eq_false_iff.mpr fun hover => ?_)
      obtain ⟨hsrc, hdst⟩ := (regionFootprint_overlaps_iff _).mp hover
      omega

theorem State.regionCommit_of_not_exact {s : State} (f : Byte → Byte → Byte) (h : ¬s.operands.RegionsExact) :
    s.regionCommit f = s.fillAny [s.operands.dstRegion] := by
  obtain ⟨hne, hdst, hsrc⟩ : _ ∧ _ ∧ _ := by simpa only [Operands.RegionsExact, not_or, Nat.not_le] using h
  rw [State.regionCommit, if_neg fun heq => hne (congrArg BitVec.toNat heq)]
  exact s.commit_of_overlaps _ _ _ ((regionFootprint_overlaps_iff _).mpr ⟨hdst, hsrc⟩)

/-- A region command past its checks: DMEM alone changes, inside DST alone, and to the exact bytes where it is exact. -/
theorem State.complete_regionCommit (s : State) (f : Byte → Byte → Byte) :
    ∃ mem draws, (s.regionCommit f).complete .none = s.doneWith .none mem draws ∧
      SameOutside [s.operands.dstRegion] s.dmem mem ∧
      (s.operands.RegionsExact → draws = 0 ∧ mem = regionRun f s.operands s.dmem) := by
  by_cases hexact : s.operands.RegionsExact
  · refine ⟨regionRun f s.operands s.dmem, 0, ?_, fun a ha => ?_, fun _ => ⟨rfl, rfl⟩⟩
    · rw [s.regionCommit_of_exact f hexact]
      rfl
    · rw [read_regionRun, if_neg]
      simpa [inRegions, Region.contains, Operands.dstRegion] using ha
  · refine ⟨s.dmem.fillAny s.freeCount [s.operands.dstRegion], drawCount [s.operands.dstRegion], ?_,
      Memory.fillAny_sameOutside _ _ _, fun h => absurd h hexact⟩
    rw [s.regionCommit_of_not_exact f hexact]
    rfl

/-- A command that is the region checks and then a region commit obeys the rule that the three share. -/
theorem regionRule_of_exec_eq {i : Instr} {f : State → Byte → Byte → Byte}
    (hexec : ∀ s, exec i s =
      s.finish (regionCheck s.memBytes s.operands) fun _ => (s.regionCommit (f s)).complete .none)
    (hfp : ∀ s : State, s.footprint i = (regionCheck s.memBytes s.operands).footprint fun _ => regionFootprint s.operands) :
    RegionRule i f := by
  rintro s _ _ _ rfl rfl rfl
  refine ⟨fun hsrc => ?_, fun _ hdst => ?_, fun hsrc hdst => ?_⟩
  · rw [hexec, State.regionCheck_of_not_fits fun h => hsrc h.1]
    rfl
  · rw [hexec, State.regionCheck_of_not_fits fun h => hdst h.2]
    rfl
  · obtain ⟨mem, draws, hdone, houtside, hrun⟩ := s.complete_regionCommit (f s)
    rw [hexec, hfp, State.regionCheck_of_fits hsrc hdst]
    refine ⟨rfl, mem, draws, congrArg _ hdone, fun a ha => houtside a ?_, fun hexact => ?_⟩
    · rw [inRegions_cons, inRegions_nil, Bool.or_false, Bool.eq_false_iff, ne_eq, Region.contains_iff]
      exact fun ⟨hlo, hhi⟩ => ha.elim (Nat.not_lt.mpr hlo) (Nat.not_le.mpr hhi)
    · obtain ⟨hdraws, rfl⟩ := hrun hexact
      refine ⟨hdraws, fun n hn => ?_⟩
      rw [read_regionRun, if_pos ⟨Nat.le_add_right _ n, Nat.add_lt_add_left hn _⟩, Nat.add_sub_cancel_left]

/-- Settles O12, by the rule that the three region commands share. -/
theorem rmulScalesTheRegion : Obligations.RmulScalesTheRegion :=
  regionRule_of_exec_eq (fun _ => rfl) fun _ => rfl

/-- Settles O13, by the rule that the three region commands share. -/
theorem rmulaccAccumulatesTheScaledRegion : Obligations.RmulaccAccumulatesTheScaledRegion :=
  regionRule_of_exec_eq (fun _ => rfl) fun _ => rfl

/-- Settles O14, by the rule that the three region commands share. -/
theorem rxorXorsTheRegion : Obligations.RxorXorsTheRegion :=
  regionRule_of_exec_eq (fun _ => rfl) fun _ => rfl

end Sys2Proof.Machine
end

section
/-! PROOF. The coder (41_coder.md): the Cauchy matrix and CONFIG. -/

namespace Sys2Proof.Machine

/-! ### The Cauchy matrix (41_coder.md R142) -/

@[simp] theorem length_cauchyMatrix (k m : Nat) : (cauchyMatrix k m).length = m := by simp [cauchyMatrix]

theorem getD_cauchyMatrix {k m i : Nat} (hi : i < m) : (cauchyMatrix k m).getD i [] = cauchyRow k m i := by
  simp [cauchyMatrix, hi]

theorem length_of_mem_cauchyMatrix {k m : Nat} {row : List Byte} (h : row ∈ cauchyMatrix k m) : row.length = k := by
  obtain ⟨i, -, rfl⟩ := List.mem_map.mp h
  simp [cauchyRow]

theorem matrixEntry_cauchyMatrix {k m i j : Nat} (hi : i < m) (hj : j < k) :
    matrixEntry (cauchyMatrix k m) i j = ginv (BitVec.ofNat 8 i ^^^ BitVec.ofNat 8 (m + j)) := by
  rw [matrixEntry, getD_cauchyMatrix hi]
  simp [cauchyRow, hj]

/-- Bytes of different numbers below 256 differ. -/
theorem byteOfNat_inj {a b : Nat} (ha : a < 256) (hb : b < 256) : BitVec.ofNat 8 a = BitVec.ofNat 8 b ↔ a = b := by
  rw [← BitVec.toNat_inj, BitVec.toNat_ofNat, BitVec.toNat_ofNat, Nat.mod_eq_of_lt ha, Nat.mod_eq_of_lt hb]

/-- The ranges of i and of m + j do not overlap. -/
theorem cauchyArgument_ne_zero {k m i j : Nat} (hkm : k + m ≤ 256) (hi : i < m) (hj : j < k) :
    BitVec.ofNat 8 i ^^^ BitVec.ofNat 8 (m + j) ≠ 0#8 := by
  rw [ne_eq, BitVec.xor_eq_zero_iff, byteOfNat_inj (by omega) (by omega)]
  omega

/-- Settles O16: the argument of `ginv` is never 0, so the laws of the field's inverse apply. -/
theorem cauchyEntriesAreNonzeroInverses : Obligations.CauchyEntriesAreNonzeroInverses := by
  unfold Obligations.CauchyEntriesAreNonzeroInverses
  intro k m hkm
  refine ⟨length_cauchyMatrix k m, fun row => length_of_mem_cauchyMatrix, fun i hi j hj => ?_⟩
  have hne := cauchyArgument_ne_zero hkm hi hj
  rw [matrixEntry_cauchyMatrix hi hj]
  exact ⟨rfl, hne, gmul_ginv_self _ hne, ginv_ne_zero hne⟩

/-! ### CONFIG (41_coder.md R143) -/

theorem configCheck_of_bad_sizes {memBytes : Nat} {o : Operands}
    (h : o.params.k.toNat = 0 ∨ 256 < o.params.k.toNat + o.params.m.toNat) :
    configCheck memBytes o = .fail .config [] :=
  if_pos h

/-- For sizes that CONFIG accepts the second check is one inequality: the workspace is not empty. -/
theorem configCheck_of_good_sizes {memBytes : Nat} {o : Operands} {k m w : Nat} (hk : k = o.params.k.toNat)
    (hm : m = o.params.m.toNat) (hw : w = o.params.wsBase.toNat) (hpos : 1 ≤ k) (hkm : k + m ≤ 256) :
    configCheck memBytes o =
      if w + (2 * k ^ 2 + 2 * k + k * m) ≤ memBytes then .ok () else .fail .bus [] := by
  subst hk hm hw
  have hfits : inRange memBytes o.params.wsBase.toNat (stateSize o.params.k.toNat o.params.m.toNat) = true ↔
      o.params.wsBase.toNat + (2 * o.params.k.toNat ^ 2 + 2 * o.params.k.toNat + o.params.k.toNat * o.params.m.toNat) ≤
        memBytes := by
    rw [stateSize, if_neg (Nat.not_lt.mpr hkm), inRange_iff, or_iff_right (by omega)]
  rw [configCheck, if_neg (by omega)]
  simp only [Bool.not_eq_true', Bool.eq_false_iff, ne_eq, hfits, ite_not]

theorem exec_config_of_fail {s : State} {code : ErrCode} {readBefore : List Region}
    (h : configCheck s.memBytes s.operands = .fail code readBefore) :
    exec .config s = .next ({ s with coder := { s.coder with valid := false } }.complete code) := by
  change execConfig s = _
  rw [execConfig, h]

/-- One write region overlaps nothing. -/
theorem configFootprint_overlaps (o : Operands) : (configFootprint o).overlaps = false := rfl

theorem exec_config_of_ok {s : State} (h : configCheck s.memBytes s.operands = .ok ()) :
    exec .config s = .next ({ s with
      dmem := s.dmem.writeBytes (configCauchyBase s.operands)
        (cauchyMatrix s.operands.params.k.toNat s.operands.params.m.toNat).flatten
      coder := { valid := true, k := s.operands.params.k, m := s.operands.params.m, ws := s.operands.params.wsBase }
      }.complete .none) := by
  change execConfig s = _
  rw [execConfig, h]
  simp only [s.commit_of_not_overlaps _ _ (configFootprint_overlaps _)]

theorem length_flatten_cauchyMatrix (k m : Nat) : (cauchyMatrix k m).flatten.length = k * m := by
  rw [length_flatten k _ fun _ => length_of_mem_cauchyMatrix, length_cauchyMatrix, Nat.mul_comm]

/-- Settles O15: the two checks in order, then one write of the Cauchy matrix, whose bytes read back entry by entry. -/
theorem configWritesTheCauchyMatrixAndLatchesTheCoder :
    Obligations.ConfigWritesTheCauchyMatrixAndLatchesTheCoder := by
  unfold Obligations.ConfigWritesTheCauchyMatrixAndLatchesTheCoder
  intro s k m w hk hm hw
  refine ⟨fun hbad => ?_, fun hpos hkm hlow => ?_, fun hpos hkm hfits => ?_⟩
  · subst hk hm
    exact exec_config_of_fail (configCheck_of_bad_sizes hbad)
  · exact exec_config_of_fail ((configCheck_of_good_sizes hk hm hw hpos hkm).trans (if_neg (Nat.not_le.mpr hlow)))
  · have hok : configCheck s.memBytes s.operands = .ok () :=
      (configCheck_of_good_sizes hk hm hw hpos hkm).trans (if_pos hfits)
    have hbase : configCauchyBase s.operands = w + 2 * k ^ 2 + 2 * k := by
      rw [configCauchyBase, cauchyOffset, ← hk, ← hw, Nat.add_assoc]
    rw [exec_config_of_ok hok, hbase, ← hk, ← hm]
    refine ⟨?_, _, rfl, fun i hi j hj => ?_, ?_⟩
    · change (configCheck s.memBytes s.operands).footprint _ = _
      rw [hok, Checked.footprint_ok, configFootprint, hbase, hk, hm]
    · rw [read_writeBytes_flatten k _ _ _ _ _ (fun _ => length_of_mem_cauchyMatrix) (by simpa using hi) hj,
        matrixEntry_cauchyMatrix hi hj]
    · rw [← length_flatten_cauchyMatrix k m]
      exact Memory.writeBytes_sameOutside _ _ _

end Sys2Proof.Machine
end

section
/-! PROOF. Matrices over GF(256) as matrices over a field. -/

namespace Sys2Proof

open Machine hiding Matrix

/-! ### Matrices of the model and Mathlib's -/

section
variable {F : Type} {φ : Byte ≃ F}

/-- The first n entries of a row. -/
def rowVec (φ : Byte ≃ F) (n : Nat) (row : List Byte) : Fin n → F := fun j => φ (row.getD j 0#8)

/-- An n × n matrix of the model as one over F. -/
def toMatrix (φ : Byte ≃ F) (n : Nat) (a : Machine.Matrix) : Matrix (Fin n) (Fin n) F :=
  Matrix.of fun r => rowVec φ n (a.getD r [])

/-- A square matrix over F as one of the model. -/
def ofMatrix {n : Nat} (φ : Byte ≃ F) (a : Matrix (Fin n) (Fin n) F) : Machine.Matrix :=
  List.ofFn fun r => List.ofFn fun c => φ.symm (a r c)

theorem toMatrix_apply (n : Nat) (a : Machine.Matrix) (r c : Fin n) : toMatrix φ n a r c = φ (matrixEntry a r c) := rfl

theorem isSquareMatrix_ofMatrix {n : Nat} (a : Matrix (Fin n) (Fin n) F) : IsSquareMatrix n (ofMatrix φ a) := by
  simp [IsSquareMatrix, ofMatrix]

theorem toMatrix_ofMatrix {n : Nat} (a : Matrix (Fin n) (Fin n) F) : toMatrix φ n (ofMatrix φ a) = a := by
  ext r c
  simp [toMatrix_apply, matrixEntry, ofMatrix]

end

/-! ### GF(256) as a field -/

/-- The field F is GF(256): φ takes XOR to its sum and `gmul` to its product (00_scope.md R11; 40_field.md R120). -/
structure IsFieldIso {F : Type} [Field F] (φ : Byte ≃ F) : Prop where
  map_xor : ∀ a b, φ (a ^^^ b) = φ a + φ b
  map_gmul : ∀ a b, φ (gmul a b) = φ a * φ b

/-- Inversion with the value at 0 that a field of Mathlib has; the model leaves it free (log 15). -/
def fieldInv (a : Byte) : Byte := if a = 0#8 then 0#8 else ginv a

theorem gmul_fieldInv {a : Byte} (ha : a ≠ 0#8) : gmul a (fieldInv a) = 1#8 := by
  rw [fieldInv, if_neg ha, gmul_comm, gmul_ginv_self a ha]

theorem fieldInv_zero : fieldInv 0#8 = 0#8 := if_pos rfl

/-- The bytes with XOR and `gmul` (40_field.md R121), whatever arithmetic `BitVec` gives them beside it. -/
@[reducible] def gfField : Field Byte :=
  @Field.ofMinimalAxioms Byte ⟨fun a b => a ^^^ b⟩ ⟨gmul⟩ ⟨id⟩ ⟨fieldInv⟩ ⟨0#8⟩ ⟨1#8⟩ BitVec.xor_assoc
    (fun _ => BitVec.zero_xor) (fun _ => BitVec.xor_self) gmul_assoc gmul_comm one_gmul (fun _ => gmul_fieldInv)
    fieldInv_zero gmul_xor ⟨0#8, 1#8, by decide⟩

theorem exists_isFieldIso : ∃ (F : Type) (_ : Field F) (φ : Byte ≃ F), IsFieldIso φ :=
  ⟨Byte, gfField, Equiv.refl Byte, @IsFieldIso.mk Byte gfField _ (fun _ _ => rfl) fun _ _ => rfl⟩

section
variable {F : Type} [Field F] {φ : Byte ≃ F}

theorem IsFieldIso.map_zero (hφ : IsFieldIso φ) : φ 0#8 = 0 := by
  simpa using hφ.map_xor 0#8 0#8

theorem IsFieldIso.map_ne_zero (hφ : IsFieldIso φ) {a : Byte} (ha : a ≠ 0#8) : φ a ≠ 0 :=
  fun h => ha (φ.injective (h.trans hφ.map_zero.symm))

theorem IsFieldIso.map_one (hφ : IsFieldIso φ) : φ 1#8 = 1 := by
  have hsquare : φ 1#8 * φ 1#8 = φ 1#8 := by rw [← hφ.map_gmul, one_gmul]
  exact (mul_eq_left₀ (hφ.map_ne_zero (by decide))).mp hsquare

/-- XOR is subtraction too: every element is its own negative. -/
theorem IsFieldIso.map_xor_sub (hφ : IsFieldIso φ) (a b : Byte) : φ (a ^^^ b) = φ a - φ b := by
  rw [eq_sub_iff_add_eq, ← hφ.map_xor, BitVec.xor_assoc, BitVec.xor_self, BitVec.xor_zero]

theorem IsFieldIso.map_ginv (hφ : IsFieldIso φ) {a : Byte} (ha : a ≠ 0#8) : φ (ginv a) = (φ a)⁻¹ := by
  refine eq_inv_of_mul_eq_one_left ?_
  rw [← hφ.map_gmul, gmul_ginv_self a ha, hφ.map_one]

theorem IsFieldIso.map_gfSum (hφ : IsFieldIso φ) (bs : List Byte) : φ (gfSum bs) = (bs.map φ).sum := by
  have hfold : ∀ v, φ (bs.foldl (fun v b => v ^^^ b) v) = φ v + (bs.map φ).sum := by
    induction bs with
    | nil => simp
    | cons b bs ih => intro v; rw [List.foldl_cons, ih, hφ.map_xor, List.map_cons, List.sum_cons, add_assoc]
  rw [gfSum, hfold, hφ.map_zero, zero_add]

/-! ### Products and inverses -/

theorem IsFieldIso.map_productEntry (hφ : IsFieldIso φ) {n : Nat} (a b : Machine.Matrix) (r c : Fin n) :
    φ (productEntry n a b r c) = (toMatrix φ n a * toMatrix φ n b) r c := by
  rw [productEntry, hφ.map_gfSum, Matrix.mul_apply, Fin.sum_univ_def, ← List.map_coe_finRange_eq_range, List.map_map,
    List.map_map]
  exact congrArg List.sum (List.map_congr_left fun j _ => hφ.map_gmul _ _)

theorem IsFieldIso.productIsIdentity_iff (hφ : IsFieldIso φ) (n : Nat) (a b : Machine.Matrix) :
    ProductIsIdentity n a b ↔ toMatrix φ n a * toMatrix φ n b = 1 := by
  have hentry (r c : Fin n) : productEntry n a b r c = (if (r : Nat) = c then 1#8 else 0#8) ↔
      (toMatrix φ n a * toMatrix φ n b) r c = (1 : Matrix (Fin n) (Fin n) F) r c := by
    rw [← hφ.map_productEntry, Matrix.one_apply, ← φ.apply_eq_iff_eq, apply_ite φ, hφ.map_one, hφ.map_zero]
    simp only [Fin.ext_iff]
  rw [← Matrix.ext_iff]
  exact ⟨fun h r c => (hentry r c).mp (h r r.2 c c.2), fun h r hr c hc => (hentry ⟨r, hr⟩ ⟨c, hc⟩).mpr (h _ _)⟩

/-- A matrix with a nonzero determinant has a two-sided inverse. -/
theorem IsFieldIso.exists_inverse (hφ : IsFieldIso φ) {n : Nat} {a : Machine.Matrix} (hdet : (toMatrix φ n a).det ≠ 0) :
    ∃ b, IsSquareMatrix n b ∧ ProductIsIdentity n a b ∧ ProductIsIdentity n b a := by
  refine ⟨ofMatrix φ (toMatrix φ n a)⁻¹, isSquareMatrix_ofMatrix _, ?_, ?_⟩
  · rw [hφ.productIsIdentity_iff, toMatrix_ofMatrix]
    exact Matrix.mul_nonsing_inv _ hdet.isUnit
  · rw [hφ.productIsIdentity_iff, toMatrix_ofMatrix]
    exact Matrix.nonsing_inv_mul _ hdet.isUnit

end

end Sys2Proof
end

section
/-! PROOF. The forward elimination of INVERT (42_matinv.md R151): what the step of a column does, which vectors solve the
rows before and after it, and that INVERT answers SINGULAR only for a matrix whose determinant is 0. -/

namespace Sys2Proof

open Machine hiding Matrix
open scoped Matrix

/-! ### Rows -/

/-- Both halves of a working row hold n entries. -/
def RowShaped (n : Nat) (row : WorkRow) : Prop := row.1.length = n ∧ row.2.length = n

theorem RowShaped.scaleRow {n : Nat} {row : WorkRow} (h : RowShaped n row) (p : Byte) : RowShaped n (scaleRow p row) := by
  simpa [RowShaped, Machine.scaleRow] using h

theorem RowShaped.addScaledRow {n : Nat} {row pivot : WorkRow} (h : RowShaped n row) (hp : RowShaped n pivot) (f : Byte) :
    RowShaped n (addScaledRow f row pivot) := by
  obtain ⟨h₁, h₂⟩ := h
  obtain ⟨hp₁, hp₂⟩ := hp
  simp [RowShaped, Machine.addScaledRow, h₁, h₂, hp₁, hp₂]

theorem getD_map_gmul (p : Byte) (row : List Byte) (j : Nat) :
    (row.map (gmul p)).getD j 0#8 = gmul p (row.getD j 0#8) := by
  simpa only [gmul_zero] using List.getD_map row 0#8 (n := j) (gmul p)

theorem getD_zipWith_addScaled (f : Byte) {row pivot : List Byte} (h : row.length = pivot.length) (j : Nat) :
    (List.zipWith (fun x y => x ^^^ gmul f y) row pivot).getD j 0#8 =
      row.getD j 0#8 ^^^ gmul f (pivot.getD j 0#8) := by
  by_cases hj : j < row.length
  · simp [hj, h ▸ hj]
  · simp [Nat.not_lt.mp hj, h ▸ Nat.not_lt.mp hj]

theorem zipWith_addScaled_zero {row pivot : List Byte} (h : row.length = pivot.length) :
    List.zipWith (fun x y => x ^^^ gmul 0#8 y) row pivot = row :=
  List.ext_getElem (by simp [h]) (by simp)

/-- A row whose entry is 0 already is as good as eliminated. -/
theorem eliminateRow_eq_addScaledRow {n : Nat} {row pivot : WorkRow} (h : RowShaped n row) (hp : RowShaped n pivot)
    (c : Nat) : eliminateRow c pivot row = addScaledRow (row.1.getD c 0#8) row pivot := by
  unfold eliminateRow
  dsimp only
  split
  · rename_i hzero
    rw [eq_of_beq hzero, addScaledRow, zipWith_addScaled_zero (h.1.trans hp.1.symm),
      zipWith_addScaled_zero (h.2.trans hp.2.symm)]
  · rfl

/-- The vectors v and u solve the row: its half of A times v is its half of I times u. -/
def RowSolves {F : Type} [Field F] (φ : Byte ≃ F) {n : Nat} (v u : Fin n → F) (row : WorkRow) : Prop :=
  rowVec φ n row.1 ⬝ᵥ v = rowVec φ n row.2 ⬝ᵥ u

section
variable {F : Type} [Field F] {φ : Byte ≃ F} {n : Nat} {v u : Fin n → F} {row pivot : WorkRow}

theorem IsFieldIso.rowVec_map_gmul (hφ : IsFieldIso φ) (p : Byte) (row : List Byte) :
    rowVec φ n (row.map (gmul p)) = φ p • rowVec φ n row := by
  ext j
  rw [rowVec, getD_map_gmul, hφ.map_gmul]
  rfl

theorem IsFieldIso.rowVec_zipWith_addScaled (hφ : IsFieldIso φ) (f : Byte) {row pivot : List Byte}
    (h : row.length = pivot.length) :
    rowVec φ n (List.zipWith (fun x y => x ^^^ gmul f y) row pivot) = rowVec φ n row + φ f • rowVec φ n pivot := by
  ext j
  rw [rowVec, getD_zipWith_addScaled f h, hφ.map_xor, hφ.map_gmul]
  rfl

theorem IsFieldIso.rowSolves_scaleRow (hφ : IsFieldIso φ) {p : Byte} (hp : p ≠ 0#8) :
    RowSolves φ v u (scaleRow p row) ↔ RowSolves φ v u row := by
  rw [RowSolves, scaleRow, hφ.rowVec_map_gmul, hφ.rowVec_map_gmul, smul_dotProduct, smul_dotProduct]
  exact smul_right_inj (hφ.map_ne_zero hp)

theorem IsFieldIso.rowSolves_eliminateRow (hφ : IsFieldIso φ) (h : RowShaped n row) (hp : RowShaped n pivot)
    (hsolves : RowSolves φ v u pivot) (c : Nat) :
    RowSolves φ v u (eliminateRow c pivot row) ↔ RowSolves φ v u row := by
  rw [eliminateRow_eq_addScaledRow h hp, RowSolves, addScaledRow, hφ.rowVec_zipWith_addScaled _ (h.1.trans hp.1.symm),
    hφ.rowVec_zipWith_addScaled _ (h.2.trans hp.2.symm), add_dotProduct, add_dotProduct, smul_dotProduct,
    smul_dotProduct, hsolves, add_left_inj]
  rfl

end

/-! ### The step of a column -/

/-- Row q of a working matrix. -/
def rowAt (w : WorkMatrix) (q : Nat) : WorkRow := w.getD q ([], [])

theorem workEntry_eq (w : WorkMatrix) (q c : Nat) : workEntry w q c = (rowAt w q).1.getD c 0#8 := rfl

/-- The pivot of column c is in row r, at c or below, and not 0. -/
theorem findPivot_some {n c r : Nat} {w : WorkMatrix} (hc : c < n) (h : findPivot n c w = some r) :
    c ≤ r ∧ r < n ∧ workEntry w r c ≠ 0#8 := by
  unfold findPivot at h
  split at h
  · rename_i hne
    cases h
    exact ⟨le_rfl, hc, by simpa using hne⟩
  · obtain ⟨hlt, hne⟩ : c < r ∧ workEntry w r c ≠ 0#8 := by simpa using List.find?_some h
    exact ⟨hlt.le, List.mem_range.mp (List.mem_of_find?_eq_some h), hne⟩

theorem findPivot_none {n c : Nat} {w : WorkMatrix} (h : findPivot n c w = none) {r : Nat} (hcr : c ≤ r) (hr : r < n) :
    workEntry w r c = 0#8 := by
  unfold findPivot at h
  split at h
  · cases h
  · rename_i hzero
    obtain rfl | hlt := hcr.eq_or_lt
    · simpa using hzero
    · simpa [hlt] using List.find?_eq_none.mp h r (List.mem_range.mpr hr)

theorem rowAt_set {c : Nat} {w : WorkMatrix} (hc : c < w.length) (row : WorkRow) (q : Nat) :
    rowAt (w.set c row) q = if q = c then row else rowAt w q := by
  obtain rfl | hne := eq_or_ne q c
  · simp [rowAt, hc]
  · simp [rowAt, List.getElem?_set_ne hne.symm, hne]

theorem rowAt_mapIdx (f : Nat → WorkRow → WorkRow) {w : WorkMatrix} {q : Nat} (hq : q < w.length) :
    rowAt (w.mapIdx f) q = f q (rowAt w q) := by
  simp [rowAt, hq]

theorem rowAt_swapRows {c r : Nat} {w : WorkMatrix} (hc : c < w.length) (hr : r < w.length) (q : Nat) :
    rowAt (if r = c then w else swapRows c r w) q = rowAt w (Equiv.swap c r q) := by
  split
  · rename_i hrc
    rw [hrc, Equiv.swap_self, Equiv.refl_apply]
  · rename_i hrc
    rw [swapRows, rowAt_set (by simpa using hr), rowAt_set hc, Equiv.swap_apply_def]
    by_cases hqr : q = r
    · rw [if_pos hqr, if_neg (hqr ▸ hrc), if_pos hqr]
      rfl
    · rw [if_neg hqr, if_neg hqr]
      split_ifs <;> rfl

/-- The pivot row put in its place and the rows below it eliminated. -/
def eliminateBelow (c : Nat) (pivot : WorkRow) (w : WorkMatrix) : WorkMatrix :=
  (w.set c pivot).mapIdx fun q row => if c < q then eliminateRow c pivot row else row

@[simp] theorem length_eliminateBelow (c : Nat) (pivot : WorkRow) (w : WorkMatrix) :
    (eliminateBelow c pivot w).length = w.length := by
  simp [eliminateBelow]

theorem rowAt_eliminateBelow {c q : Nat} {w : WorkMatrix} (hc : c < w.length) (hq : q < w.length) (pivot : WorkRow) :
    rowAt (eliminateBelow c pivot w) q =
      if c < q then eliminateRow c pivot (rowAt w q) else if q = c then pivot else rowAt w q := by
  rw [eliminateBelow, rowAt_mapIdx _ (by simpa using hq), rowAt_set hc]
  split_ifs with hlt heq
  · omega
  · rfl
  · rfl
  · rfl

theorem forwardColumn_of_findPivot {n c r : Nat} {w : WorkMatrix} (hc : c < w.length) (hr : r < w.length)
    (h : findPivot n c w = some r) : forwardColumn n c w =
      some (eliminateBelow c (scaleRow (ginv (workEntry w r c)) (rowAt w r)) (if r = c then w else swapRows c r w)) := by
  have hrow := rowAt_swapRows hc hr c
  rw [Equiv.swap_apply_left] at hrow
  rw [forwardColumn, h]
  change some (eliminateBelow c (scaleRow (ginv ((rowAt _ c).1.getD c 0#8)) (rowAt _ c)) _) = _
  rw [hrow]
  rfl

/-- What the forward step of column c does with the pivot found in row r. -/
structure ForwardStep (n c r : Nat) (w w' : WorkMatrix) : Prop where
  pivot_ge : c ≤ r
  pivot_lt : r < n
  pivot_ne_zero : workEntry w r c ≠ 0#8
  length_eq : w'.length = w.length
  above : ∀ q < c, rowAt w' q = rowAt w q
  pivot : rowAt w' c = scaleRow (ginv (workEntry w r c)) (rowAt w r)
  below : ∀ q, c < q → q < n → rowAt w' q = eliminateRow c (rowAt w' c) (rowAt w (Equiv.swap c r q))

theorem forwardColumn_some {n c : Nat} {w w' : WorkMatrix} (hw : w.length = n) (hc : c < n)
    (h : forwardColumn n c w = some w') : ∃ r, ForwardStep n c r w w' := by
  subst hw
  cases hfind : findPivot w.length c w with
  | none => rw [forwardColumn, hfind] at h; cases h
  | some r =>
    obtain ⟨hge, hlt, hne⟩ := findPivot_some hc hfind
    rw [forwardColumn_of_findPivot hc hlt hfind, Option.some_inj] at h
    subst h
    have hlen : (if r = c then w else swapRows c r w).length = w.length := by split <;> simp [swapRows]
    have hrows {q : Nat} (hq : q < w.length) (pivot : WorkRow) :=
      rowAt_eliminateBelow (hlen.symm ▸ hc) (hlen.symm ▸ hq) pivot
    simp only [rowAt_swapRows hc hlt] at hrows
    have hpivot := hrows hc (scaleRow (ginv (workEntry w r c)) (rowAt w r))
    rw [if_neg (lt_irrefl c), if_pos rfl] at hpivot
    refine ⟨r, hge, hlt, hne, by simp [hlen], fun q hq => ?_, hpivot, fun q hcq hq => ?_⟩
    · rw [hrows (hq.trans hc), if_neg hq.not_gt, if_neg hq.ne, Equiv.swap_apply_of_ne_of_ne hq.ne (by omega)]
    · rw [hrows hq, if_pos hcq, hpivot]

theorem forwardColumn_none {n c : Nat} {w : WorkMatrix} (h : forwardColumn n c w = none) :
    findPivot n c w = none := by
  unfold forwardColumn at h
  split at h
  · assumption
  · cases h

/-- Every row of a working matrix holds n entries on either side. -/
def WorkShaped (n : Nat) (w : WorkMatrix) : Prop := w.length = n ∧ ∀ q < n, RowShaped n (rowAt w q)

/-- In the rows from c on, the columns before c are 0. -/
def ZeroBelow (n c : Nat) (w : WorkMatrix) : Prop := ∀ r < n, c ≤ r → ∀ j < c, workEntry w r j = 0#8

/-- The vectors v and u solve every row. -/
def WorkSolves {F : Type} [Field F] (φ : Byte ≃ F) {n : Nat} (v u : Fin n → F) (w : WorkMatrix) : Prop :=
  ∀ q < n, RowSolves φ v u (rowAt w q)

section
variable {n c r : Nat} {w w' : WorkMatrix}

/-- The rows below the pivot are those of the old matrix from c on, without the pivot's. -/
theorem ForwardStep.swap_mem (h : ForwardStep n c r w w') {q : Nat} (hcq : c < q) (hq : q < n) :
    c ≤ Equiv.swap c r q ∧ Equiv.swap c r q < n := by
  have := h.pivot_ge
  have := h.pivot_lt
  rw [Equiv.swap_apply_def]
  split_ifs <;> omega

theorem ForwardStep.shaped (h : ForwardStep n c r w w') (hw : WorkShaped n w) : WorkShaped n w' := by
  have hpivot : RowShaped n (rowAt w' c) := h.pivot ▸ (hw.2 r h.pivot_lt).scaleRow _
  refine ⟨h.length_eq.trans hw.1, fun q hq => ?_⟩
  obtain hlt | rfl | hgt := Nat.lt_trichotomy q c
  · rw [h.above q hlt]
    exact hw.2 q hq
  · exact hpivot
  · have hold := hw.2 _ (h.swap_mem hgt hq).2
    rw [h.below q hgt hq, eliminateRow_eq_addScaledRow hold hpivot]
    exact hold.addScaledRow hpivot _

/-- The pivot is scaled to 1. -/
theorem ForwardStep.workEntry_pivot (h : ForwardStep n c r w w') : workEntry w' c c = 1#8 := by
  rw [workEntry_eq, h.pivot, scaleRow, getD_map_gmul]
  exact gmul_ginv_self _ h.pivot_ne_zero

theorem ForwardStep.workEntry_pivot_row (h : ForwardStep n c r w w') (hzero : ZeroBelow n c w) {j : Nat} (hj : j < c) :
    workEntry w' c j = 0#8 := by
  rw [workEntry_eq, h.pivot, scaleRow, getD_map_gmul]
  exact (congrArg _ (hzero r h.pivot_lt h.pivot_ge j hj)).trans (gmul_zero _)

theorem ForwardStep.workEntry_below (h : ForwardStep n c r w w') (hw : WorkShaped n w) {q : Nat} (hcq : c < q)
    (hq : q < n) (j : Nat) : workEntry w' q j =
      workEntry w (Equiv.swap c r q) j ^^^ gmul (workEntry w (Equiv.swap c r q) c) (workEntry w' c j) := by
  have hrow := hw.2 _ (h.swap_mem hcq hq).2
  have hpivot := (h.shaped hw).2 c (hcq.trans hq)
  rw [workEntry_eq, h.below q hcq hq, eliminateRow_eq_addScaledRow hrow hpivot, addScaledRow,
    getD_zipWith_addScaled _ (hrow.1.trans hpivot.1.symm)]
  rfl

theorem ForwardStep.zeroBelow (h : ForwardStep n c r w w') (hw : WorkShaped n w) (hzero : ZeroBelow n c w) :
    ZeroBelow n (c + 1) w' := by
  intro q hq hcq j hj
  obtain ⟨hge, hlt⟩ := h.swap_mem hcq hq
  rw [h.workEntry_below hw hcq hq]
  obtain hj | rfl := Nat.lt_succ_iff_lt_or_eq.mp hj
  · rw [hzero _ hlt hge j hj, h.workEntry_pivot_row hzero hj, gmul_zero, BitVec.xor_self]
  · rw [h.workEntry_pivot, gmul_comm, one_gmul, BitVec.xor_self]

variable {F : Type} [Field F] {φ : Byte ≃ F} {v u : Fin n → F}

/-- Every old row is the pivot's, one of those above, or one of those eliminated. -/
theorem ForwardStep.row_cases (h : ForwardStep n c r w w') {q : Nat} (hq : q < n) :
    q = r ∨ q < c ∨ ∃ p, c < p ∧ p < n ∧ Equiv.swap c r p = q := by
  have hge := h.pivot_ge
  have hlt := h.pivot_lt
  by_cases hqr : q = r
  · exact .inl hqr
  obtain hqc | rfl | hqc := Nat.lt_trichotomy q c
  · exact .inr (.inl hqc)
  · exact .inr (.inr ⟨r, by omega, hlt, Equiv.swap_apply_right q r⟩)
  · exact .inr (.inr ⟨q, hqc, hq, Equiv.swap_apply_of_ne_of_ne hqc.ne' hqr⟩)

/-- The step loses no equation: what solves the new rows solves the old ones. -/
theorem IsFieldIso.workSolves_of_forwardStep (hφ : IsFieldIso φ) (h : ForwardStep n c r w w') (hw : WorkShaped n w)
    (hsolves : WorkSolves φ v u w') : WorkSolves φ v u w := by
  have hc : c < n := h.pivot_ge.trans_lt h.pivot_lt
  intro q hq
  obtain rfl | hqc | ⟨p, hcp, hp, rfl⟩ := h.row_cases hq
  · rw [← hφ.rowSolves_scaleRow (ginv_ne_zero h.pivot_ne_zero), ← h.pivot]
    exact hsolves c hc
  · rw [← h.above q hqc]
    exact hsolves q hq
  · rw [← hφ.rowSolves_eliminateRow (hw.2 _ hq) ((h.shaped hw).2 c hc) (hsolves c hc) c, ← h.below p hcp hp]
    exact hsolves p hp

/-! ### No pivot -/

/-- A matrix whose rows from c on are 0 in all columns up to c has determinant 0. -/
theorem det_eq_zero_of_zero_block (a : Matrix (Fin n) (Fin n) F) (c : Fin n) (h : ∀ r ≥ c, ∀ j ≤ c, a r j = 0) :
    a.det = 0 := by
  have hcol : (a.toSquareBlockProp fun r => ¬r < c).det = 0 :=
    Matrix.det_eq_zero_of_column_eq_zero ⟨c, lt_irrefl c⟩ fun r => h r (not_lt.mp r.2) c le_rfl
  rw [a.twoBlockTriangular_det (· < c) fun r hr j hj => h r (not_lt.mp hr) j (le_of_lt hj), hcol, mul_zero]

/-- Without a pivot in column c, some vector other than 0 is orthogonal to every row of A. -/
theorem IsFieldIso.exists_workSolves_of_findPivot_none (hφ : IsFieldIso φ) (hc : c < n) (hzero : ZeroBelow n c w)
    (h : findPivot n c w = none) : ∃ v : Fin n → F, v ≠ 0 ∧ WorkSolves φ v 0 w := by
  have hdet : (Matrix.of fun r : Fin n => rowVec φ n (rowAt w r).1).det = 0 := by
    refine det_eq_zero_of_zero_block _ ⟨c, hc⟩ fun r hr j hj => ?_
    have hentry : workEntry w r j = 0#8 := by
      obtain hlt | heq := Nat.lt_or_eq_of_le (Fin.le_def.mp hj)
      · exact hzero r r.2 hr j hlt
      · rw [heq]
        exact findPivot_none h hr r.2
    exact (congrArg φ hentry).trans hφ.map_zero
  obtain ⟨v, hv, hker⟩ := Matrix.exists_mulVec_eq_zero_iff.mpr hdet
  refine ⟨v, hv, fun q hq => ?_⟩
  rw [RowSolves, dotProduct_zero]
  exact congrFun hker ⟨q, hq⟩

theorem IsFieldIso.exists_workSolves_of_forwardEliminate_none (hφ : IsFieldIso φ) {d : Nat} (hn : c + d = n)
    (hw : WorkShaped n w) (hzero : ZeroBelow n c w) (h : forwardEliminate n (List.range' c d) w = none) :
    ∃ v : Fin n → F, v ≠ 0 ∧ WorkSolves φ v 0 w := by
  induction d generalizing c w with
  | zero => cases h
  | succ d ih =>
    have hc : c < n := by omega
    rw [List.range'_succ, forwardEliminate] at h
    split at h
    · rename_i hnone
      exact hφ.exists_workSolves_of_findPivot_none hc hzero (forwardColumn_none hnone)
    · rename_i w' hsome
      obtain ⟨r, hstep⟩ := forwardColumn_some hw.1 hc hsome
      obtain ⟨v, hv, hsolves⟩ := ih (by omega) (hstep.shaped hw) (hstep.zeroBelow hw hzero) h
      exact ⟨v, hv, hφ.workSolves_of_forwardStep hstep hw hsolves⟩

end

/-! ### INVERT -/

theorem isSquareMatrix_identityMatrix (n : Nat) : IsSquareMatrix n (identityMatrix n) := by
  simp [IsSquareMatrix, identityMatrix]

theorem rowAt_zip {n q : Nat} {a b : Machine.Matrix} (ha : a.length = n) (hb : b.length = n) (hq : q < n) :
    rowAt (List.zip a b) q = (a.getD q [], b.getD q []) := by
  simp [rowAt, ha, hb, hq]

theorem Machine.IsSquareMatrix.length_getD {n q : Nat} {a : Machine.Matrix} (ha : IsSquareMatrix n a) (hq : q < n) :
    (a.getD q []).length = n := by
  rw [List.getD_eq_getElem _ _ (ha.1.symm ▸ hq)]
  exact ha.2 _ (List.getElem_mem _)

theorem workShaped_zip {n : Nat} {a b : Machine.Matrix} (ha : IsSquareMatrix n a) (hb : IsSquareMatrix n b) :
    WorkShaped n (List.zip a b) := by
  refine ⟨by simp [ha.1, hb.1], fun q hq => ?_⟩
  rw [rowAt_zip ha.1 hb.1 hq]
  exact ⟨ha.length_getD hq, hb.length_getD hq⟩

/-- INVERT answers SINGULAR only for a matrix with determinant 0 (42_matinv.md R152). -/
theorem IsFieldIso.det_eq_zero_of_invertMatrix_none {F : Type} [Field F] {φ : Byte ≃ F} (hφ : IsFieldIso φ) {n : Nat}
    {a : Machine.Matrix} (ha : IsSquareMatrix n a) (h : invertMatrix n a = none) : (toMatrix φ n a).det = 0 := by
  have hnone : forwardEliminate n (List.range' 0 n) (List.zip a (identityMatrix n)) = none := by
    rw [← List.range_eq_range']
    unfold invertMatrix invertWork at h
    split at h
    · rename_i hwork
      split at hwork
      · assumption
      · cases hwork
    · cases h
  obtain ⟨v, hv, hsolves⟩ := hφ.exists_workSolves_of_forwardEliminate_none (Nat.zero_add n)
    (workShaped_zip ha (isSquareMatrix_identityMatrix n)) (fun _ _ _ _ hj => absurd hj (Nat.not_lt_zero _)) hnone
  refine Matrix.exists_mulVec_eq_zero_iff.mp ⟨v, hv, funext fun r => ?_⟩
  have hrow := hsolves r r.2
  rw [rowAt_zip ha.1 (isSquareMatrix_identityMatrix n).1 r.2, RowSolves, dotProduct_zero] at hrow
  exact hrow

end Sys2Proof
end

section
/-! PROOF. The MDS property (41_coder.md R144): a combination of distinct Cauchy columns that vanishes at as many points is
trivial, so no vector but 0 is orthogonal to k distinct rows of [Identity ; Cauchy]. -/

namespace Sys2Proof

open Machine hiding Matrix
open scoped Matrix

/-- The sums Σ v_j / (x - y_j) vanish at as many points x as there are terms only if every v_j is 0: up to a factor the sum is
the value at x of a polynomial of smaller degree, which then is 0, and its values at the y_j are the v_j, up to factors. -/
theorem eq_zero_of_cauchy_sums_eq_zero {F ι : Type} [Field F] [DecidableEq ι] {s : Finset ι} {t : Finset F} {y v : ι → F}
    (hy : Set.InjOn y s) (hcard : s.card ≤ t.card) (hne : ∀ x ∈ t, ∀ j ∈ s, x ≠ y j)
    (hsum : ∀ x ∈ t, ∑ j ∈ s, (x - y j)⁻¹ * v j = 0) {j : ι} (hj : j ∈ s) : v j = 0 := by
  have hweight {j : ι} (hj : j ∈ s) : Lagrange.nodalWeight s y j ≠ 0 := Lagrange.nodalWeight_ne_zero hy hj
  have hpoly : Lagrange.interpolate s y (fun j => (Lagrange.nodalWeight s y j)⁻¹ * v j) = 0 := by
    refine Polynomial.eq_zero_of_degree_lt_of_eval_finset_eq_zero t
      ((Lagrange.degree_interpolate_lt _ hy).trans_le (Nat.cast_le.mpr hcard)) fun x hx => ?_
    rw [Lagrange.eval_interpolate_not_at_node _ (hne x hx), ← mul_zero, ← hsum x hx]
    refine congrArg _ (Finset.sum_congr rfl fun j hj => ?_)
    field_simp [hweight hj]
  have hvalue := Lagrange.eval_interpolate_at_node (fun j => (Lagrange.nodalWeight s y j)⁻¹ * v j) hy hj
  rw [hpoly, Polynomial.eval_zero, eq_comm, mul_eq_zero] at hvalue
  exact hvalue.resolve_left (inv_ne_zero (hweight hj))

/-! ### The points of the Cauchy matrix (41_coder.md R142) -/

/-- The element of F that the number a stands for as a byte: i and m + j are the points of the Cauchy matrix. -/
def fieldPoint {F : Type} (φ : Byte ≃ F) (a : Nat) : F := φ (BitVec.ofNat 8 a)

/-- The data rows that are left out. -/
def missingData (k : Nat) (rows : List Nat) : Finset (Fin k) := {j | (j : Nat) ∉ rows}

/-- The points x_i of the coding rows k + i that are taken. -/
def codingPoints {F : Type} [DecidableEq F] (φ : Byte ≃ F) (k : Nat) (rows : List Nat) : Finset F :=
  (rows.toFinset \ Finset.range k).image fun id => fieldPoint φ (id - k)

section
variable {F : Type} {φ : Byte ≃ F} {k m : Nat} {rows : List Nat}

theorem fieldPoint_inj {a b : Nat} (ha : a < 256) (hb : b < 256) : fieldPoint φ a = fieldPoint φ b ↔ a = b :=
  φ.apply_eq_iff_eq.trans (byteOfNat_inj ha hb)

theorem exists_codingRow (hlt : ∀ r ∈ rows, r < k + m) {id : Nat} (h : id ∈ rows.toFinset \ Finset.range k) :
    ∃ i < m, k + i ∈ rows ∧ id = k + i := by
  obtain ⟨hid, hk⟩ : id ∈ rows ∧ k ≤ id := by simpa using h
  have hid' := hlt id hid
  exact ⟨id - k, by omega, by rwa [Nat.add_sub_cancel' hk], by omega⟩

variable [DecidableEq F]

theorem exists_of_mem_codingPoints (hlt : ∀ r ∈ rows, r < k + m) {x : F} (hx : x ∈ codingPoints φ k rows) :
    ∃ i < m, k + i ∈ rows ∧ x = fieldPoint φ i := by
  obtain ⟨id, hid, rfl⟩ := Finset.mem_image.mp hx
  obtain ⟨i, hi, hmem, rfl⟩ := exists_codingRow hlt hid
  exact ⟨i, hi, hmem, by rw [Nat.add_sub_cancel_left]⟩

/-- Of k distinct rows, as many are coding rows as data rows are left out. -/
theorem card_missingData_le (hm : m ≤ 256) (hlen : rows.length = k) (hnodup : rows.Nodup)
    (hlt : ∀ r ∈ rows, r < k + m) : (missingData k rows).card ≤ (codingPoints φ k rows).card := by
  have hinj : Set.InjOn (fun id => fieldPoint φ (id - k)) (rows.toFinset \ Finset.range k : Finset Nat) := by
    intro a ha b hb hab
    obtain ⟨i, hi, -, rfl⟩ := exists_codingRow hlt ha
    obtain ⟨j, hj, -, rfl⟩ := exists_codingRow hlt hb
    have := (fieldPoint_inj (by omega) (by omega)).mp hab
    omega
  calc (missingData k rows).card
      ≤ (Finset.range k \ rows.toFinset).card :=
        Finset.card_le_card_of_injOn Fin.val (fun j hj => by simpa [missingData] using hj) Fin.val_injective.injOn
    _ = (rows.toFinset \ Finset.range k).card :=
        Finset.card_sdiff_comm (by rw [Finset.card_range, List.toFinset_card_of_nodup hnodup, hlen])
    _ = (codingPoints φ k rows).card := (Finset.card_image_of_injOn hinj).symm

end

/-! ### The rows of TMAT (44_codec.md R174) -/

/-- Row `id` of [Identity ; C]. -/
def augmentedRow (k : Nat) (c : Machine.Matrix) (id : Nat) : List Byte :=
  if id < k then (List.range k).map (fun j => if j = id then 1#8 else 0#8) else c.getD (id - k) []

theorem buildTmpmat_eq_map (k : Nat) (ids : List Nat) (c : Machine.Matrix) :
    buildTmpmat k ids c = ids.map (augmentedRow k c) := rfl

theorem length_augmentedRow_cauchy {k m id : Nat} (hid : id < k + m) : (augmentedRow k (cauchyMatrix k m) id).length = k := by
  unfold augmentedRow
  split
  · simp
  · rw [getD_cauchyMatrix (by omega)]
    simp [cauchyRow]

section
variable {F : Type} [Field F] {φ : Byte ≃ F} {k m : Nat}

theorem IsFieldIso.augmentedRow_identity (hφ : IsFieldIso φ) (c : Machine.Matrix) (id : Fin k) :
    rowVec φ k (augmentedRow k c id) = Pi.single id 1 := by
  ext j
  simp [rowVec, augmentedRow, Pi.single_apply, Fin.ext_iff, apply_ite φ, hφ.map_one, hφ.map_zero]

theorem IsFieldIso.augmentedRow_cauchy (hφ : IsFieldIso φ) (hkm : k + m ≤ 256) {i : Nat} (hi : i < m) :
    rowVec φ k (augmentedRow k (cauchyMatrix k m) (k + i)) =
      fun j : Fin k => (fieldPoint φ i - fieldPoint φ (m + j))⁻¹ := by
  ext j
  rw [augmentedRow, if_neg (by omega), Nat.add_sub_cancel_left, fieldPoint, fieldPoint, ← hφ.map_xor_sub,
    ← hφ.map_ginv (cauchyArgument_ne_zero hkm hi j.2), ← matrixEntry_cauchyMatrix hi j.2]
  rfl

theorem dotProduct_augmentedRow_eq_zero {rows : List Nat} {c : Machine.Matrix} {v : Fin k → F} (hlen : rows.length = k)
    (hker : toMatrix φ k (buildTmpmat k rows c) *ᵥ v = 0) {id : Nat} (hid : id ∈ rows) :
    rowVec φ k (augmentedRow k c id) ⬝ᵥ v = 0 := by
  obtain ⟨p, hp, rfl⟩ := List.mem_iff_getElem.mp hid
  have hrow : (buildTmpmat k rows c).getD p [] = augmentedRow k c rows[p] := by simp [buildTmpmat_eq_map, hp]
  rw [← hrow]
  exact congrFun hker ⟨p, hlen ▸ hp⟩

/-- No vector but 0 is orthogonal to k distinct rows of [Identity ; Cauchy]. -/
theorem IsFieldIso.eq_zero_of_tmpmat_mulVec (hφ : IsFieldIso φ) {rows : List Nat} (hkm : k + m ≤ 256)
    (hlen : rows.length = k) (hnodup : rows.Nodup) (hlt : ∀ r ∈ rows, r < k + m) {v : Fin k → F}
    (hker : toMatrix φ k (buildTmpmat k rows (cauchyMatrix k m)) *ᵥ v = 0) : v = 0 := by
  classical
  have hrow {id : Nat} (hid : id ∈ rows) := dotProduct_augmentedRow_eq_zero hlen hker hid
  have htaken (j : Fin k) (hj : j ∉ missingData k rows) : v j = 0 := by
    have hmem : (j : Nat) ∈ rows := by simpa [missingData] using hj
    simpa [hφ.augmentedRow_identity] using hrow hmem
  have hmissing {j : Fin k} (hj : j ∈ missingData k rows) : v j = 0 := by
    refine eq_zero_of_cauchy_sums_eq_zero (t := codingPoints φ k rows) (y := fun j : Fin k => fieldPoint φ (m + j))
      ?_ (card_missingData_le (by omega) hlen hnodup hlt) ?_ ?_ hj
    · intro a _ b _ hab
      have := (fieldPoint_inj (by omega) (by omega)).mp hab
      omega
    · intro x hx j _ heq
      obtain ⟨i, hi, -, rfl⟩ := exists_of_mem_codingPoints hlt hx
      have := (fieldPoint_inj (by omega) (by omega)).mp heq
      omega
    · intro x hx
      obtain ⟨i, hi, hmem, rfl⟩ := exists_of_mem_codingPoints hlt hx
      have hsum := hrow hmem
      rw [hφ.augmentedRow_cauchy hkm hi, dotProduct] at hsum
      rw [← hsum]
      exact Finset.sum_subset (Finset.subset_univ _) fun j _ hj => by rw [htaken j hj, mul_zero]
  funext j
  by_cases hj : j ∈ missingData k rows
  · exact hmissing hj
  · exact htaken j hj

theorem IsFieldIso.det_tmpmat_ne_zero (hφ : IsFieldIso φ) {rows : List Nat} (hkm : k + m ≤ 256)
    (hlen : rows.length = k) (hnodup : rows.Nodup) (hlt : ∀ r ∈ rows, r < k + m) :
    (toMatrix φ k (buildTmpmat k rows (cauchyMatrix k m))).det ≠ 0 := by
  intro hzero
  obtain ⟨v, hv, hker⟩ := Matrix.exists_mulVec_eq_zero_iff.mpr hzero
  exact hv (hφ.eq_zero_of_tmpmat_mulVec hkm hlen hnodup hlt hker)

end

theorem isSquareMatrix_tmpmat {k m : Nat} {rows : List Nat} (hlen : rows.length = k) (hlt : ∀ r ∈ rows, r < k + m) :
    IsSquareMatrix k (buildTmpmat k rows (cauchyMatrix k m)) := by
  rw [buildTmpmat_eq_map]
  refine ⟨by rw [List.length_map, hlen], fun row hrow => ?_⟩
  obtain ⟨id, hid, rfl⟩ := List.mem_map.mp hrow
  exact length_augmentedRow_cauchy (hlt id hid)

/-- Settles O18: the determinant is not 0, which gives the inverse and keeps INVERT from answering SINGULAR. -/
theorem anyKRowsOfTheAugmentedMatrixAreInvertible : Obligations.AnyKRowsOfTheAugmentedMatrixAreInvertible := by
  unfold Obligations.AnyKRowsOfTheAugmentedMatrixAreInvertible
  intro k m rows _ hkm hlen hnodup hlt
  obtain ⟨F, _, φ, hφ⟩ := exists_isFieldIso
  have hdet := hφ.det_tmpmat_ne_zero hkm hlen hnodup hlt
  exact ⟨fun hnone => hdet (hφ.det_eq_zero_of_invertMatrix_none (isSquareMatrix_tmpmat hlen hlt) hnone),
    hφ.exists_inverse hdet⟩

end Sys2Proof
end

section
/-! PROOF. MATINV (42_matinv.md R150): INVERT keeps the shape of its matrices, so both of them fill their regions; then the
checks and the two ends of the command. -/

namespace Sys2Proof

open Machine hiding Matrix

/-! ### INVERT answers a square matrix (42_matinv.md R151) -/

theorem RowShaped.eliminateRow {n : Nat} {row pivot : WorkRow} (h : RowShaped n row) (hp : RowShaped n pivot) (c : Nat) :
    RowShaped n (eliminateRow c pivot row) := by
  rw [eliminateRow_eq_addScaledRow h hp]
  exact h.addScaledRow hp _

theorem WorkShaped.backColumn {n c : Nat} {w : WorkMatrix} (hw : WorkShaped n w) (hc : c < n) :
    WorkShaped n (backColumn c w) := by
  obtain ⟨hlen, hrows⟩ := hw
  refine ⟨by simpa [Machine.backColumn] using hlen, fun q hq => ?_⟩
  rw [Machine.backColumn, rowAt_mapIdx _ (hlen.symm ▸ hq)]
  split
  · exact (hrows q hq).eliminateRow (hrows c hc) c
  · exact hrows q hq

theorem WorkShaped.backSubstitute {n : Nat} {w : WorkMatrix} (hw : WorkShaped n w) : WorkShaped n (backSubstitute n w) := by
  refine List.foldlRecOn _ _ hw fun w' hw' c hc => hw'.backColumn ?_
  exact List.mem_range.mp (List.mem_of_mem_tail (List.mem_reverse.mp hc))

theorem WorkShaped.forwardEliminate {n : Nat} {cs : List Nat} {w w' : WorkMatrix} (hw : WorkShaped n w)
    (hcs : ∀ c ∈ cs, c < n) (h : forwardEliminate n cs w = some w') : WorkShaped n w' := by
  induction cs generalizing w with
  | nil => cases h; exact hw
  | cons c cs ih =>
    obtain ⟨hc, hcs⟩ := List.forall_mem_cons.mp hcs
    rw [Machine.forwardEliminate] at h
    split at h
    · cases h
    · rename_i hcolumn
      obtain ⟨r, hstep⟩ := forwardColumn_some hw.1 hc hcolumn
      exact ih (hstep.shaped hw) hcs h

theorem workShaped_invertWork {n : Nat} {a : Machine.Matrix} {w : WorkMatrix} (ha : IsSquareMatrix n a)
    (h : invertWork n a = some w) : WorkShaped n w := by
  unfold invertWork at h
  split at h
  · cases h
  · rename_i hforward
    cases h
    have hstart := workShaped_zip ha (isSquareMatrix_identityMatrix n)
    exact (hstart.forwardEliminate (fun _ => List.mem_range.mp) hforward).backSubstitute

theorem WorkShaped.isSquareMatrix_snd {n : Nat} {w : WorkMatrix} (hw : WorkShaped n w) :
    IsSquareMatrix n (w.map Prod.snd) := by
  obtain ⟨rfl, hrows⟩ := hw
  refine ⟨by simp, List.forall_mem_map.mpr fun row hrow => ?_⟩
  obtain ⟨q, hq, rfl⟩ := List.mem_iff_getElem.mp hrow
  simpa [rowAt, hq] using (hrows q hq).2

theorem isSquareMatrix_of_invertMatrix_eq_some {n : Nat} {a inv : Machine.Matrix} (ha : IsSquareMatrix n a)
    (h : invertMatrix n a = some inv) : IsSquareMatrix n inv := by
  unfold invertMatrix at h
  split at h
  · cases h
  · rename_i hwork
    cases h
    exact (workShaped_invertWork ha hwork).isSquareMatrix_snd

end Sys2Proof

namespace Sys2Proof.Machine

/-! ### Square matrices in DMEM (20_memory.md R75) -/

theorem matrixEntry_identityMatrix {n r c : Nat} (hr : r < n) (hc : c < n) :
    matrixEntry (identityMatrix n) r c = if r = c then 1#8 else 0#8 := by
  simp [matrixEntry, identityMatrix, hr, hc]

theorem isSquareMatrix_readMatrix (mem : Memory) (base n : Nat) : IsSquareMatrix n (mem.readMatrix base n n) := by
  simp [IsSquareMatrix, Memory.readMatrix]

/-- Entry (r, c) stands inside the n² bytes of the matrix. -/
theorem entryOffset_lt {n r c : Nat} (hr : r < n) (hc : c < n) : r * n + c < n * n :=
  calc r * n + c < (r + 1) * n := by rw [Nat.succ_mul]; exact Nat.add_lt_add_left hc _
    _ ≤ n * n := Nat.mul_le_mul_right n hr

section
variable {n : Nat} {a : Matrix}

theorem IsSquareMatrix.length_flatten (ha : IsSquareMatrix n a) : a.flatten.length = n * n := by
  rw [Machine.length_flatten n a ha.2, ha.1]

theorem IsSquareMatrix.read_writeBytes (ha : IsSquareMatrix n a) (mem : Memory) (base : Nat) {r c : Nat} (hr : r < n)
    (hc : c < n) : (mem.writeBytes base a.flatten).read (base + r * n + c) = matrixEntry a r c :=
  read_writeBytes_flatten n a mem base r c ha.2 (ha.1.symm ▸ hr) hc

theorem IsSquareMatrix.writeBytes_sameOutside (ha : IsSquareMatrix n a) (mem : Memory) (base : Nat) :
    SameOutside [{ base := base, len := n * n }] mem (mem.writeBytes base a.flatten) := by
  rw [← ha.length_flatten]
  exact mem.writeBytes_sameOutside base _

end

/-! ### The checks of MATINV -/

theorem matinvCheck_of_bad_dim {memBytes : Nat} {o : Operands} (h : o.matDim = 0 ∨ 256 < o.matDim) :
    matinvCheck memBytes o = .fail .param [] :=
  if_pos h

/-- SRC and DST both lie in DMEM. -/
def State.MatinvFits (s : State) : Prop :=
  s.Fits s.operands.params.src.toNat (s.operands.matDim * s.operands.matDim) ∧
    s.Fits s.operands.params.dst.toNat (s.operands.matDim * s.operands.matDim)

section
variable {s : State} (hpos : 1 ≤ s.operands.matDim) (hle : s.operands.matDim ≤ 256)
include hpos hle

/-- Either range check fails with the same code. -/
theorem State.matinvCheck_of_not_fits (h : ¬s.MatinvFits) : matinvCheck s.memBytes s.operands = .fail .bus [] := by
  rw [State.MatinvFits, s.fits_iff, s.fits_iff, not_and_or] at h
  rw [matinvCheck, if_neg (by omega)]
  obtain hsrc | hdst := h
  · simp [hsrc]
  · simp [hdst]

theorem State.matinvCheck_of_fits (h : s.MatinvFits) : matinvCheck s.memBytes s.operands = .ok () := by
  rw [State.MatinvFits, s.fits_iff, s.fits_iff] at h
  obtain ⟨hsrc, hdst⟩ := h
  rw [matinvCheck, if_neg (by omega)]
  simp [hsrc, hdst]

end

/-! ### The memory that MATINV computes -/

/-- The identity at SRC and then the inverse at DST. -/
def matinvMemory (o : Operands) (inv : Matrix) (mem : Memory) : Memory :=
  (mem.writeBytes o.params.src.toNat (identityMatrix o.matDim).flatten).writeBytes o.params.dst.toNat inv.flatten

/-- The two regions of MATINV share no byte. -/
def Operands.MatricesApart (o : Operands) : Prop :=
  o.params.dst.toNat + o.matDim * o.matDim ≤ o.params.src.toNat ∨
    o.params.src.toNat + o.matDim * o.matDim ≤ o.params.dst.toNat

theorem matinvFootprint_overlaps {o : Operands} (h : o.MatricesApart) : (matinvFootprint o).overlaps = false := by
  unfold Operands.MatricesApart at h
  simp only [Footprint.overlaps, matinvFootprint, regionsOverlap, Region.meets, List.any_cons, List.any_nil,
    Bool.or_false, Bool.and_eq_false_iff, decide_eq_false_iff_not]
  omega

section
variable {o : Operands} {inv : Matrix} (hinv : IsSquareMatrix o.matDim inv) (mem : Memory)
include hinv

theorem matinvMemory_sameOutside : SameOutside (matinvFootprint o).writes mem (matinvMemory o inv mem) := by
  have hsrc := (isSquareMatrix_identityMatrix o.matDim).writeBytes_sameOutside mem o.params.src.toNat
  have hdst := hinv.writeBytes_sameOutside
    (mem.writeBytes o.params.src.toNat (identityMatrix o.matDim).flatten) o.params.dst.toNat
  exact (hsrc.mono (by simp [matinvFootprint])).trans (hdst.mono (by simp [matinvFootprint]))

variable {r c : Nat} (hr : r < o.matDim) (hc : c < o.matDim)
include hr hc

theorem read_matinvMemory_dst :
    (matinvMemory o inv mem).read (o.params.dst.toNat + r * o.matDim + c) = matrixEntry inv r c :=
  hinv.read_writeBytes _ _ hr hc

/-- The write of DST leaves the identity at SRC alone if the regions are apart. -/
theorem read_matinvMemory_src (hapart : o.MatricesApart) :
    (matinvMemory o inv mem).read (o.params.src.toNat + r * o.matDim + c) = if r = c then 1#8 else 0#8 := by
  have hlt := entryOffset_lt hr hc
  have houtside : o.params.src.toNat + r * o.matDim + c < o.params.dst.toNat ∨
      o.params.dst.toNat + inv.flatten.length ≤ o.params.src.toNat + r * o.matDim + c := by
    rw [hinv.length_flatten]
    unfold Operands.MatricesApart at hapart
    omega
  rw [matinvMemory, Memory.read_writeBytes_outside _ _ _ _ houtside,
    (isSquareMatrix_identityMatrix _).read_writeBytes _ _ hr hc, matrixEntry_identityMatrix hr hc]

end

/-! ### The ends of MATINV -/

theorem exec_matinv_of_fail {s : State} {code : ErrCode} {readBefore : List Region}
    (h : matinvCheck s.memBytes s.operands = .fail code readBefore) :
    exec .matinv s = .next (s.doneWith code s.dmem 0) := by
  change execMatinv s = _
  rw [execMatinv, h]
  rfl

section
variable {s : State} (hok : matinvCheck s.memBytes s.operands = .ok ())
include hok

theorem exec_matinv_of_singular (h : invertMatrix s.operands.matDim (matinvInput s.operands s.dmem) = none) :
    exec .matinv s = .next ((s.fillAny (matinvFootprint s.operands).writes).complete .singular) := by
  change execMatinv s = _
  rw [execMatinv, hok, State.finish_ok, h]

theorem exec_matinv_of_inverse {inv : Matrix}
    (h : invertMatrix s.operands.matDim (matinvInput s.operands s.dmem) = some inv) : exec .matinv s =
      .next ((s.commit (matinvFootprint s.operands) (matinvMemory s.operands inv s.dmem) []).complete .none) := by
  change execMatinv s = _
  rw [execMatinv, hok, State.finish_ok, h]
  rfl

end

/-- Where a command ends with a memory that it computes: nothing outside FP.W changes, and without an overlap DMEM is that
memory (20_memory.md R79). -/
theorem State.complete_commit (s : State) {fp : Footprint} {computed : Memory} (code : ErrCode)
    (houtside : SameOutside fp.writes s.dmem computed) :
    ∃ mem draws, (s.commit fp computed []).complete code = s.doneWith code mem draws ∧
      SameOutside fp.writes s.dmem mem ∧ (fp.overlaps = false → draws = 0 ∧ mem = computed) := by
  cases hover : fp.overlaps with
  | true =>
    rw [s.commit_of_overlaps fp computed [] hover]
    exact ⟨_, drawCount fp.writes, rfl, Memory.fillAny_sameOutside _ _ _, nofun⟩
  | false =>
    rw [s.commit_of_not_overlaps fp computed hover]
    exact ⟨computed, 0, rfl, houtside, fun _ => ⟨rfl, rfl⟩⟩

/-- Settles O22: the three checks in order; then, by what INVERT answers, ANY in both regions or the identity and the
inverse. -/
theorem matinvInvertsTheMatrixInDmem : Obligations.MatinvInvertsTheMatrixInDmem := by
  unfold Obligations.MatinvInvertsTheMatrixInDmem
  rintro s _ _ _ rfl rfl rfl
  refine ⟨fun hbad => exec_matinv_of_fail (matinvCheck_of_bad_dim hbad), fun hpos hle hsrc => ?_,
    fun hpos hle _ hdst => ?_, fun hpos hle hsrc hdst => ?_⟩
  · exact exec_matinv_of_fail (State.matinvCheck_of_not_fits hpos hle fun h => hsrc h.1)
  · exact exec_matinv_of_fail (State.matinvCheck_of_not_fits hpos hle fun h => hdst h.2)
  · have hok := State.matinvCheck_of_fits hpos hle ⟨hsrc, hdst⟩
    refine ⟨congrArg (Checked.footprint fun _ => matinvFootprint s.operands) hok, ?_⟩
    cases hinvert : invertMatrix s.operands.params.matN.toNat
        (s.dmem.readMatrix s.operands.params.src.toNat s.operands.params.matN.toNat s.operands.params.matN.toNat) with
    | none =>
      exact ⟨_, _, Memory.fillAny_sameOutside _ _ _, fun _ => exec_matinv_of_singular hok hinvert, nofun⟩
    | some inv =>
      have hinv := isSquareMatrix_of_invertMatrix_eq_some (isSquareMatrix_readMatrix _ _ _) hinvert
      obtain ⟨mem, draws, hdone, houtside, hexact⟩ :=
        s.complete_commit .none (matinvMemory_sameOutside (o := s.operands) hinv s.dmem)
      refine ⟨mem, draws, houtside, nofun, fun _ h => ?_⟩
      cases h
      refine ⟨(exec_matinv_of_inverse hok hinvert).trans (congrArg _ hdone), fun hapart => ?_⟩
      obtain ⟨hdraws, rfl⟩ := hexact (matinvFootprint_overlaps hapart)
      exact ⟨hdraws, fun r hr c hc =>
        ⟨read_matinvMemory_src hinv s.dmem hr hc hapart, read_matinvMemory_dst hinv s.dmem hr hc⟩⟩

end Sys2Proof.Machine
end

section
/-! PROOF. Linear combinations (43_lincomb.md): the bytes of a row, its footprint, and LINCOMB and LINCOMB.ID, which share
everything past their checks. -/

namespace Sys2Proof.Machine

/-! ### The bytes of a row (43_lincomb.md R160, R161) -/

/-- Leaving out the terms with a zero coefficient leaves out zeros. -/
theorem rowByte_eq_gfSum (mem : Memory) (coefs : List Byte) (srcs : List Nat) (n : Nat) :
    rowByte mem coefs srcs n = gfSum ((coefs.zip srcs).map fun cs => gmul cs.1 (mem.read (cs.2 + n))) := by
  rw [rowByte, gfSum, List.foldl_map]
  congr
  funext v cs
  by_cases hc : cs.1 = 0#8 <;> simp [hc]

theorem allZero_eq_false_iff (coefs : List Byte) : allZero coefs = false ↔ ∃ c ∈ coefs, c ≠ 0#8 := by
  simp [allZero]

theorem applyRow_of_allZero {mem : Memory} {coefs : List Byte} (h : allZero coefs = true) (srcs : List Nat)
    (dst len : Nat) : applyRow mem coefs srcs dst len = mem :=
  if_pos h

theorem read_applyRow_dst {mem : Memory} {coefs : List Byte} {len n : Nat} (h : allZero coefs = false) (srcs : List Nat)
    (dst : Nat) (hn : n < len) : (applyRow mem coefs srcs dst len).read (dst + n) = rowByte mem coefs srcs n := by
  rw [read_applyRow, if_pos ⟨h, Nat.le_add_right dst n, Nat.add_lt_add_left hn dst⟩, Nat.add_sub_cancel_left]

/-! ### The footprint of a row -/

/-- If no two write regions share a byte, nor does one with a read region, there is no overlap (20_memory.md R79). -/
theorem Footprint.overlaps_eq_false {fp : Footprint} (hwrites : regionsOverlap fp.writes = false)
    (hapart : ∀ a, inRegions fp.writes a = true → inRegions fp.reads a = false) : fp.overlaps = false := by
  rw [Footprint.overlaps, hwrites, Bool.false_or, List.any_eq_false]
  intro w hw
  rw [List.any_eq_true]
  rintro ⟨r, hr, hmeets⟩
  obtain ⟨a, hwa, hra⟩ := (w.meets_iff r).mp hmeets
  have hout := (inRegions_eq_false_iff _ _).mp (hapart a (List.any_eq_true.mpr ⟨w, hw, hwa⟩)) r hr
  exact Bool.false_ne_true (hout.symm.trans hra)

section
variable (job : RowJob) (tables : List Region) (len : Nat)

/-- The region of the destination shard. -/
def RowJob.dstRegion : Region where
  base := job.dst
  len := len

theorem RowJob.footprint_writes :
    (job.footprint tables len).writes = if allZero job.coefs then [] else [job.dstRegion len] := rfl

theorem RowJob.inRegions_reads_iff (a : Nat) : inRegions (job.footprint tables len).reads a = true ↔
    inRegions tables a = true ∨ ∃ cs ∈ job.coefs.zip job.srcs, cs.1 ≠ 0#8 ∧ cs.2 ≤ a ∧ a < cs.2 + len := by
  rw [RowJob.footprint, inRegions_append, Bool.or_eq_true]
  simp [inRegions, Region.contains]

theorem RowJob.inRegions_writes_iff (a : Nat) : inRegions (job.footprint tables len).writes a = true ↔
    allZero job.coefs = false ∧ job.dst ≤ a ∧ a < job.dst + len := by
  rw [job.footprint_writes]
  cases allZero job.coefs with
  | true => simp
  | false => simp [inRegions, Region.contains, RowJob.dstRegion]

/-- A row has one write region at most, so only what it reads can overlap with it. -/
theorem RowJob.regionsOverlap_writes : regionsOverlap (job.footprint tables len).writes = false := by
  rw [job.footprint_writes]
  split <;> rfl

/-- A row past the checks of its command: DMEM alone changes, inside the destination alone, and to the combination if no
region read shares a byte with a region written (43_lincomb.md R160, R161; 20_memory.md R79). -/
theorem State.complete_applyRow (s : State) : ∃ mem draws,
    (s.commit (job.footprint tables len) (applyRow s.dmem job.coefs job.srcs job.dst len) []).complete .none =
      s.doneWith .none mem draws ∧
    SameOutside [job.dstRegion len] s.dmem mem ∧
    ((∀ a, inRegions (job.footprint tables len).writes a = true → inRegions (job.footprint tables len).reads a = false) →
      draws = 0 ∧ mem = applyRow s.dmem job.coefs job.srcs job.dst len) := by
  have hcomputed : SameOutside (job.footprint tables len).writes s.dmem
      (applyRow s.dmem job.coefs job.srcs job.dst len) := fun a ha => by
    rw [read_applyRow, if_neg]
    rwa [← job.inRegions_writes_iff tables, Bool.not_eq_true]
  obtain ⟨mem, draws, hdone, houtside, hexact⟩ := s.complete_commit .none hcomputed
  refine ⟨mem, draws, hdone, houtside.mono fun r hr => ?_, fun hapart =>
    hexact (Footprint.overlaps_eq_false (job.regionsOverlap_writes tables len) hapart)⟩
  rw [job.footprint_writes] at hr
  split at hr
  · cases hr
  · exact hr

end

/-! ### The job of a list of identities -/

section
variable {o : Operands} {mem : Memory} {ids : List Nat}

/-- The terms of the job: coefficient j with the address of the j-th shard listed. -/
theorem Operands.zip_rowJob (hids : ids.length = o.ck) :
    (o.rowJob mem ids).coefs.zip (o.rowJob mem ids).srcs = (List.range o.ck).map fun j =>
      (mem.read (o.params.coefPtr.toNat + j), o.shardAddr mem (ids.getD j 0)) := by
  apply List.ext_getElem
  · simp [Operands.rowJob, Operands.coefs, hids]
  · intro j _ hj
    have hlt : j < ids.length := by simpa [hids] using hj
    simp [Operands.rowJob, Operands.coefs, Memory.readBytes, hlt]

theorem Operands.allZero_rowJob_eq_false_iff : allZero (o.rowJob mem ids).coefs = false ↔
    ∃ j < o.ck, mem.read (o.params.coefPtr.toNat + j) ≠ 0#8 := by
  simp [allZero_eq_false_iff, Operands.rowJob, Operands.coefs, Memory.readBytes]

theorem Operands.rowByte_rowJob (hids : ids.length = o.ck) (n : Nat) :
    rowByte mem (o.rowJob mem ids).coefs (o.rowJob mem ids).srcs n = gfSum ((List.range o.ck).map fun j =>
      gmul (mem.read (o.params.coefPtr.toNat + j)) (mem.read (o.shardAddr mem (ids.getD j 0) + n))) := by
  rw [rowByte_eq_gfSum, Operands.zip_rowJob hids, List.map_map]
  rfl

theorem Operands.inRegions_reads_rowJob_iff (hids : ids.length = o.ck) (tables : List Region) (a : Nat) :
    inRegions ((o.rowJob mem ids).footprint tables o.len).reads a = true ↔
      inRegions tables a = true ∨ ∃ j < o.ck, mem.read (o.params.coefPtr.toNat + j) ≠ 0#8 ∧
        o.shardAddr mem (ids.getD j 0) ≤ a ∧ a < o.shardAddr mem (ids.getD j 0) + o.len := by
  simp [RowJob.inRegions_reads_iff, Operands.zip_rowJob hids]

end

/-- A command whose footprint and end are those of the job over the identities obeys the rule that LINCOMB and LINCOMB.ID
share. -/
theorem rowRule_of_exec_eq {i : Instr} {tables : State → List Region} {ids : State → List Nat} {s : State} {job : RowJob}
    (hjob : job = s.operands.rowJob s.dmem (ids s)) (hids : (ids s).length = s.operands.ck)
    (hfp : s.footprint i = job.footprint (tables s) s.operands.len)
    (hexec : exec i s = .next ((s.commit (job.footprint (tables s) s.operands.len)
      (applyRow s.dmem job.coefs job.srcs job.dst s.operands.len) []).complete .none)) :
    RowRule i tables ids s := by
  obtain ⟨mem, draws, hdone, houtside, hexact⟩ := s.complete_applyRow job (tables s) s.operands.len
  have hwrites := job.inRegions_writes_iff (tables s) s.operands.len
  subst hjob
  have hreads := Operands.inRegions_reads_rowJob_iff (mem := s.dmem) hids (tables s)
  have hnonzero_iff := Operands.allZero_rowJob_eq_false_iff (o := s.operands) (mem := s.dmem) (ids := ids s)
  refine ⟨hfp ▸ hreads, fun a => ?_, mem, draws, by rw [hexec, hdone], fun hzero => ?_, houtside,
    fun hnonzero hapart => ?_⟩
  · rw [hfp, hwrites, hnonzero_iff]
    rfl
  · have hallZero : allZero (s.operands.rowJob s.dmem (ids s)).coefs = true := by
      rw [← Bool.not_eq_false, hnonzero_iff]
      exact fun ⟨j, hj, hc⟩ => hc (hzero j hj)
    obtain ⟨hdraws, rfl⟩ := hexact fun a ha => absurd hallZero (Bool.eq_false_iff.mp ((hwrites a).mp ha).1)
    exact ⟨hdraws, fun a => by rw [applyRow_of_allZero hallZero]⟩
  · obtain ⟨hdraws, rfl⟩ := hexact fun a ha => by
      obtain ⟨-, hlo, hhi⟩ := (hwrites a).mp ha
      obtain ⟨htables, hsrcs⟩ := hapart a hlo hhi
      rw [Bool.eq_false_iff, ne_eq, hreads]
      rintro (h | ⟨j, hj, hc, hsrc_lo, hsrc_hi⟩)
      · exact Bool.false_ne_true (htables.symm.trans h)
      · exact (hsrcs j hj hc).elim (Nat.not_lt.mpr hsrc_lo) (Nat.not_le.mpr hsrc_hi)
    refine ⟨hdraws, fun n hn => ?_⟩
    exact (read_applyRow_dst (hnonzero_iff.mpr hnonzero) _ _ hn).trans (Operands.rowByte_rowJob hids n)

/-! ### The shards of a row -/

theorem State.shardFits_iff (s : State) (sh : Nat) :
    s.ShardFits sh ↔ s.operands.shardInRange s.memBytes s.dmem sh = true :=
  s.fits_iff _ _

/-- The destination and every source lie in DMEM. -/
def State.RowShardsFit (s : State) (ids : List Nat) : Prop :=
  s.ShardFits s.operands.dest ∧ ∀ id ∈ ids, s.ShardFits id

section
variable {s : State} {ids : List Nat} {α : Type} (fail ok : α)

/-- The last two checks of both commands fail alike. -/
theorem State.shardChecks_of_not_fit (h : ¬s.RowShardsFit ids) :
    (if !s.operands.shardInRange s.memBytes s.dmem s.operands.dest then fail
      else if !ids.all (s.operands.shardInRange s.memBytes s.dmem) then fail else ok) = fail := by
  simp only [State.RowShardsFit, s.shardFits_iff, not_and_or, ← List.all_eq_true] at h
  obtain hdst | hsrcs := h
  · exact if_pos (by simp [hdst])
  · rw [Bool.eq_false_iff.mpr hsrcs]
    exact ite_self fail

theorem State.shardChecks_of_fit (h : s.RowShardsFit ids) :
    (if !s.operands.shardInRange s.memBytes s.dmem s.operands.dest then fail
      else if !ids.all (s.operands.shardInRange s.memBytes s.dmem) then fail else ok) = ok := by
  simp only [State.RowShardsFit, s.shardFits_iff, ← List.all_eq_true] at h
  obtain ⟨hdst, hsrcs⟩ := h
  rw [if_neg (by simp [hdst]), hsrcs]
  rfl

end

/-! ### The checks of LINCOMB (43_lincomb.md R162) -/

/-- The three tables of LINCOMB lie in DMEM. -/
def State.LincombTablesFit (s : State) : Prop :=
  s.Fits s.operands.params.coefPtr.toNat s.operands.ck ∧ s.Fits s.operands.params.idsPtr.toNat s.operands.ck ∧
    s.Fits s.operands.params.shardTbl.toNat (4 * (s.operands.ck + s.operands.cm))

theorem State.lincombTablesFit_iff (s : State) : s.LincombTablesFit ↔
    inRange s.memBytes s.operands.coefRegion.base s.operands.ck = true ∧
      inRange s.memBytes s.operands.idsRegion.base s.operands.ck = true ∧
      inRange s.memBytes s.operands.tableRegion.base s.operands.tableRegion.len = true := by
  simp only [State.LincombTablesFit, s.fits_iff]
  rfl

section
variable {s : State}

theorem State.lincombCheck_of_invalid (hvalid : s.operands.coder.valid = false) :
    lincombCheck s.memBytes s.operands s.dmem = .fail .notConfigured [] := by
  simp [lincombCheck, hvalid]

variable (hvalid : s.operands.coder.valid = true)
include hvalid

theorem State.lincombCheck_of_bad_dest (hdest : s.operands.ck + s.operands.cm ≤ s.operands.dest) :
    lincombCheck s.memBytes s.operands s.dmem = .fail .param [] := by
  simp [lincombCheck, hvalid, hdest]

variable (hdest : s.operands.dest < s.operands.ck + s.operands.cm)
include hdest

/-- The range checks of the three tables fail with the same code. -/
theorem State.lincombCheck_of_not_tablesFit (h : ¬s.LincombTablesFit) :
    lincombCheck s.memBytes s.operands s.dmem = .fail .bus [] := by
  rw [s.lincombTablesFit_iff, not_and_or, not_and_or] at h
  rw [lincombCheck, if_neg (by simp [hvalid]), if_neg (Nat.not_le.mpr hdest)]
  obtain hcoef | hids | htable := h
  · simp [hcoef]
  · simp [hids]
  · simp [htable]

variable (htables : s.LincombTablesFit)
include htables

theorem State.lincombCheck_of_bad_id (h : ∃ id ∈ s.operands.ids s.dmem, s.operands.ck + s.operands.cm ≤ id) :
    lincombCheck s.memBytes s.operands s.dmem = .fail .param [s.operands.idsRegion] := by
  obtain ⟨hcoef, hids, htable⟩ := s.lincombTablesFit_iff.mp htables
  rw [lincombCheck, if_neg (by simp [hvalid]), if_neg (Nat.not_le.mpr hdest), if_neg (by simp [hcoef]),
    if_neg (by simp [hids]), if_neg (by simp [htable]), if_pos (by simpa using h)]

variable (hnamed : ∀ id ∈ s.operands.ids s.dmem, id < s.operands.ck + s.operands.cm)
include hnamed

/-- Past the identities only the shards are left to check. -/
theorem State.lincombCheck_of_named : lincombCheck s.memBytes s.operands s.dmem =
    if !s.operands.shardInRange s.memBytes s.dmem s.operands.dest then
      .fail .bus [s.operands.coefRegion, s.operands.idsRegion, s.operands.tableRegion]
    else if !(s.operands.ids s.dmem).all (s.operands.shardInRange s.memBytes s.dmem) then
      .fail .bus [s.operands.coefRegion, s.operands.idsRegion, s.operands.tableRegion]
    else .ok (s.operands.rowJob s.dmem (s.operands.ids s.dmem)) := by
  obtain ⟨hcoef, hids, htable⟩ := s.lincombTablesFit_iff.mp htables
  rw [lincombCheck, if_neg (by simp [hvalid]), if_neg (Nat.not_le.mpr hdest), if_neg (by simp [hcoef]),
    if_neg (by simp [hids]), if_neg (by simp [htable]), if_neg (by simpa using hnamed)]

theorem State.lincombCheck_of_not_shardsFit (h : ¬s.RowShardsFit (s.operands.ids s.dmem)) :
    lincombCheck s.memBytes s.operands s.dmem =
      .fail .bus [s.operands.coefRegion, s.operands.idsRegion, s.operands.tableRegion] :=
  (State.lincombCheck_of_named hvalid hdest htables hnamed).trans (State.shardChecks_of_not_fit _ _ h)

theorem State.lincombCheck_of_shardsFit (h : s.RowShardsFit (s.operands.ids s.dmem)) :
    lincombCheck s.memBytes s.operands s.dmem = .ok (s.operands.rowJob s.dmem (s.operands.ids s.dmem)) :=
  (State.lincombCheck_of_named hvalid hdest htables hnamed).trans (State.shardChecks_of_fit _ _ h)

end

/-! ### The ends of LINCOMB -/

/-- The identities as the rule writes them: byte j of the identity table. -/
theorem Operands.ids_eq_map (o : Operands) (mem : Memory) :
    o.ids mem = (List.range o.ck).map fun j => (mem.read (o.params.idsPtr.toNat + j)).toNat := by
  rw [Operands.ids, Memory.readBytes, List.map_map]
  rfl

theorem Operands.forall_mem_ids_iff {o : Operands} {mem : Memory} {p : Nat → Prop} : (∀ id ∈ o.ids mem, p id) ↔
    ∀ j < o.ck, p (mem.read (o.params.idsPtr.toNat + j)).toNat := by
  simp [Operands.ids_eq_map]

theorem exec_lincomb_of_fail {s : State} {code : ErrCode} {readBefore : List Region}
    (h : lincombCheck s.memBytes s.operands s.dmem = .fail code readBefore) :
    exec .lincomb s = .next (s.doneWith code s.dmem 0) := by
  change execLincomb s = _
  rw [execLincomb, h]
  rfl

theorem rowRule_lincomb_of_ok {s : State} (h : lincombCheck s.memBytes s.operands s.dmem =
    .ok (s.operands.rowJob s.dmem (s.operands.ids s.dmem))) :
    RowRule .lincomb (fun s => [s.operands.coefRegion, s.operands.idsRegion, s.operands.tableRegion])
      (fun s => (List.range s.operands.ck).map fun j => (s.dmem.read (s.operands.params.idsPtr.toNat + j)).toNat) s := by
  rw [Operands.ids_eq_map] at h
  refine rowRule_of_exec_eq rfl (by simp) ?_ ?_
  · exact congrArg (Checked.footprint (lincombFootprint s.operands)) h
  · change execLincomb s = _
    rw [execLincomb, h]
    rfl

/-- Settles O23: the eight checks in order, then the row over the identities in the table. -/
theorem lincombCombinesTheListedShards : Obligations.LincombCombinesTheListedShards := by
  unfold Obligations.LincombCombinesTheListedShards
  rintro s _ _ _ rfl rfl rfl
  refine ⟨fun hvalid => exec_lincomb_of_fail (State.lincombCheck_of_invalid hvalid),
    fun hvalid hdest => exec_lincomb_of_fail (State.lincombCheck_of_bad_dest hvalid hdest),
    fun hvalid hdest hcoef => ?_, fun hvalid hdest _ hids => ?_, fun hvalid hdest _ _ htable => ?_,
    fun hvalid hdest hcoef hids htable => ⟨fun ⟨j, hj, hbad⟩ => ?_, fun hnamed hdst => ?_,
      fun hnamed _ ⟨j, hj, hsrc⟩ => ?_, fun hnamed hdst hsrcs => ?_⟩⟩
  · exact exec_lincomb_of_fail (State.lincombCheck_of_not_tablesFit hvalid hdest fun h => hcoef h.1)
  · exact exec_lincomb_of_fail (State.lincombCheck_of_not_tablesFit hvalid hdest fun h => hids h.2.1)
  · exact exec_lincomb_of_fail (State.lincombCheck_of_not_tablesFit hvalid hdest fun h => htable h.2.2)
  · refine exec_lincomb_of_fail (State.lincombCheck_of_bad_id hvalid hdest ⟨hcoef, hids, htable⟩ ?_)
    exact ⟨_, by rw [Operands.ids_eq_map]; exact List.mem_map_of_mem (List.mem_range.mpr hj), hbad⟩
  · exact exec_lincomb_of_fail (State.lincombCheck_of_not_shardsFit hvalid hdest ⟨hcoef, hids, htable⟩
      (Operands.forall_mem_ids_iff.mpr hnamed) fun h => hdst h.1)
  · exact exec_lincomb_of_fail (State.lincombCheck_of_not_shardsFit hvalid hdest ⟨hcoef, hids, htable⟩
      (Operands.forall_mem_ids_iff.mpr hnamed) fun h => hsrc (Operands.forall_mem_ids_iff.mp h.2 j hj))
  · exact rowRule_lincomb_of_ok (State.lincombCheck_of_shardsFit hvalid hdest ⟨hcoef, hids, htable⟩
      (Operands.forall_mem_ids_iff.mpr hnamed) ⟨hdst, Operands.forall_mem_ids_iff.mpr hsrcs⟩)

/-! ### LINCOMB.ID (43_lincomb.md R163) -/

/-- The two tables of LINCOMB.ID lie in DMEM. -/
def State.LincombIdTablesFit (s : State) : Prop :=
  s.Fits s.operands.params.coefPtr.toNat s.operands.ck ∧
    s.Fits s.operands.params.shardTbl.toNat (4 * (s.operands.ck + s.operands.cm))

theorem State.lincombIdTablesFit_iff (s : State) : s.LincombIdTablesFit ↔
    inRange s.memBytes s.operands.coefRegion.base s.operands.ck = true ∧
      inRange s.memBytes s.operands.tableRegion.base s.operands.tableRegion.len = true := by
  simp only [State.LincombIdTablesFit, s.fits_iff]
  rfl

section
variable {s : State}

theorem State.lincombIdCheck_of_invalid (hvalid : s.operands.coder.valid = false) :
    lincombIdCheck s.memBytes s.operands s.dmem = .fail .notConfigured [] := by
  simp [lincombIdCheck, hvalid]

variable (hvalid : s.operands.coder.valid = true)
include hvalid

theorem State.lincombIdCheck_of_bad_dest (hdest : s.operands.ck + s.operands.cm ≤ s.operands.dest) :
    lincombIdCheck s.memBytes s.operands s.dmem = .fail .param [] := by
  simp [lincombIdCheck, hvalid, hdest]

variable (hdest : s.operands.dest < s.operands.ck + s.operands.cm)
include hdest

/-- The range checks of the two tables fail with the same code. -/
theorem State.lincombIdCheck_of_not_tablesFit (h : ¬s.LincombIdTablesFit) :
    lincombIdCheck s.memBytes s.operands s.dmem = .fail .bus [] := by
  rw [s.lincombIdTablesFit_iff, not_and_or] at h
  rw [lincombIdCheck, if_neg (by simp [hvalid]), if_neg (Nat.not_le.mpr hdest)]
  obtain hcoef | htable := h
  · simp [hcoef]
  · simp [htable]

variable (htables : s.LincombIdTablesFit)
include htables

/-- Past the tables only the shards are left to check. -/
theorem State.lincombIdCheck_of_tablesFit : lincombIdCheck s.memBytes s.operands s.dmem =
    if !s.operands.shardInRange s.memBytes s.dmem s.operands.dest then
      .fail .bus [s.operands.coefRegion, s.operands.tableRegion]
    else if !(List.range s.operands.ck).all (s.operands.shardInRange s.memBytes s.dmem) then
      .fail .bus [s.operands.coefRegion, s.operands.tableRegion]
    else .ok (s.operands.rowJob s.dmem (List.range s.operands.ck)) := by
  obtain ⟨hcoef, htable⟩ := s.lincombIdTablesFit_iff.mp htables
  rw [lincombIdCheck, if_neg (by simp [hvalid]), if_neg (Nat.not_le.mpr hdest), if_neg (by simp [hcoef]),
    if_neg (by simp [htable])]

theorem State.lincombIdCheck_of_not_shardsFit (h : ¬s.RowShardsFit (List.range s.operands.ck)) :
    lincombIdCheck s.memBytes s.operands s.dmem = .fail .bus [s.operands.coefRegion, s.operands.tableRegion] :=
  (State.lincombIdCheck_of_tablesFit hvalid hdest htables).trans (State.shardChecks_of_not_fit _ _ h)

theorem State.lincombIdCheck_of_shardsFit (h : s.RowShardsFit (List.range s.operands.ck)) :
    lincombIdCheck s.memBytes s.operands s.dmem = .ok (s.operands.rowJob s.dmem (List.range s.operands.ck)) :=
  (State.lincombIdCheck_of_tablesFit hvalid hdest htables).trans (State.shardChecks_of_fit _ _ h)

end

theorem exec_lincombId_of_fail {s : State} {code : ErrCode} {readBefore : List Region}
    (h : lincombIdCheck s.memBytes s.operands s.dmem = .fail code readBefore) :
    exec .lincombId s = .next (s.doneWith code s.dmem 0) := by
  change execLincombId s = _
  rw [execLincombId, h]
  rfl

theorem rowRule_lincombId_of_ok {s : State} (h : lincombIdCheck s.memBytes s.operands s.dmem =
    .ok (s.operands.rowJob s.dmem (List.range s.operands.ck))) :
    RowRule .lincombId (fun s => [s.operands.coefRegion, s.operands.tableRegion])
      (fun s => List.range s.operands.ck) s := by
  refine rowRule_of_exec_eq rfl List.length_range ?_ ?_
  · exact congrArg (Checked.footprint (lincombIdFootprint s.operands)) h
  · change execLincombId s = _
    rw [execLincombId, h]
    rfl

/-- Settles O24: the six checks in order, then the row over the k data shards. -/
theorem lincombIdCombinesTheDataShards : Obligations.LincombIdCombinesTheDataShards := by
  unfold Obligations.LincombIdCombinesTheDataShards
  rintro s _ _ _ rfl rfl rfl
  refine ⟨fun hvalid => exec_lincombId_of_fail (State.lincombIdCheck_of_invalid hvalid),
    fun hvalid hdest => exec_lincombId_of_fail (State.lincombIdCheck_of_bad_dest hvalid hdest),
    fun hvalid hdest hcoef => ?_, fun hvalid hdest _ htable => ?_,
    fun hvalid hdest hcoef htable => ⟨fun hdst => ?_, fun _ ⟨j, hj, hsrc⟩ => ?_, fun hdst hsrcs => ?_⟩⟩
  · exact exec_lincombId_of_fail (State.lincombIdCheck_of_not_tablesFit hvalid hdest fun h => hcoef h.1)
  · exact exec_lincombId_of_fail (State.lincombIdCheck_of_not_tablesFit hvalid hdest fun h => htable h.2)
  · exact exec_lincombId_of_fail (State.lincombIdCheck_of_not_shardsFit hvalid hdest ⟨hcoef, htable⟩ fun h => hdst h.1)
  · exact exec_lincombId_of_fail (State.lincombIdCheck_of_not_shardsFit hvalid hdest ⟨hcoef, htable⟩ fun h =>
      hsrc (h.2 j (List.mem_range.mpr hj)))
  · exact rowRule_lincombId_of_ok (State.lincombIdCheck_of_shardsFit hvalid hdest ⟨hcoef, htable⟩
      ⟨hdst, fun j hj => hsrcs j (List.mem_range.mp hj)⟩)

end Sys2Proof.Machine
end

section
/-! PROOF. ENCODE (44_codec.md R170): the overlap rule on addresses, Cauchy rows applied one after the other to the coding
shards, and the checks and the footprint of ENCODE. The rows and the checks are those of DECODE too (R171, R177). -/

namespace Sys2Proof.Machine

/-! ### The overlap rule on addresses (20_memory.md R79) -/

theorem Region.meets_eq_false_iff (r q : Region) :
    r.meets q = false ↔ ∀ a, ¬(r.contains a = true ∧ q.contains a = true) := by
  rw [Bool.eq_false_iff, ne_eq, r.meets_iff, not_exists]

theorem regionsOverlap_eq_false_iff (rs : List Region) :
    regionsOverlap rs = false ↔ rs.Pairwise fun r q => r.meets q = false := by
  induction rs with
  | nil => simp [regionsOverlap]
  | cons r rs ih => simp [regionsOverlap, ih]

/-- No written region meets a read one, nor another written one. -/
theorem Footprint.overlaps_eq_false_iff (fp : Footprint) : fp.overlaps = false ↔
    (∀ a, ¬(inRegions fp.reads a = true ∧ inRegions fp.writes a = true)) ∧
      fp.writes.Pairwise fun r q => r.meets q = false := by
  refine ⟨fun h => ?_, fun ⟨hreads, hwrites⟩ => Footprint.overlaps_eq_false
    ((regionsOverlap_eq_false_iff _).mpr hwrites) fun a hw => Bool.eq_false_iff.mpr fun hr => hreads a ⟨hr, hw⟩⟩
  rw [Footprint.overlaps, Bool.or_eq_false_iff, regionsOverlap_eq_false_iff] at h
  obtain ⟨hwrites, hreads⟩ := h
  refine ⟨fun a ⟨hr, hw⟩ => ?_, hwrites⟩
  obtain ⟨r, hrmem, hra⟩ := List.any_eq_true.mp hr
  obtain ⟨w, hwmem, hwa⟩ := List.any_eq_true.mp hw
  exact List.any_eq_false.mp hreads w hwmem (List.any_eq_true.mpr ⟨r, hrmem, (w.meets_iff r).mpr ⟨a, hwa, hra⟩⟩)

/-- Of two places in `List.range n` the earlier holds the smaller number. -/
theorem pairwise_range_iff {n : Nat} {R : Nat → Nat → Prop} :
    (List.range n).Pairwise R ↔ ∀ i < n, ∀ j < i, R j i := by
  rw [List.pairwise_iff_getElem]
  simp only [List.length_range, List.getElem_range]
  exact ⟨fun h i hi j hj => h j i (hj.trans hi) hi hj, fun h j i _ hi hj => h i hi j hj⟩

/-! ### Cauchy rows of the DMEM at launch -/

section
variable (s : State) {i : Nat} (hi : i < s.operands.cm)
include hi

theorem State.cauchyRowAt_eq_map :
    s.operands.cauchyRowAt s.dmem i = (List.range s.operands.ck).map (s.cauchyAt i) := by
  rw [Operands.cauchyRowAt, Operands.cauchy, Memory.readMatrix, List.getD_eq_getElem?_getD, List.getElem?_map,
    List.getElem?_range hi]
  simp [Memory.readBytes, State.cauchyAt, Operands.cauchyBase, cauchyOffset, Nat.add_assoc]

theorem State.rowNonzero_iff : s.RowNonzero i ↔ allZero (s.operands.cauchyRowAt s.dmem i) = false := by
  simp [allZero_eq_false_iff, s.cauchyRowAt_eq_map hi, State.RowNonzero]

theorem State.codingByteIn_iff (mem : Memory) (n : Nat) : s.CodingByteIn mem i n ↔
    mem.read (s.operands.shardAddr s.dmem (s.operands.ck + i) + n) =
      rowByte mem (s.operands.cauchyRowAt s.dmem i) (s.operands.dataAddrs s.dmem) n := by
  rw [rowByte_eq_gfSum, s.cauchyRowAt_eq_map hi, Operands.dataAddrs, List.zip_map', List.map_map]
  rfl

end

/-! ### Cauchy rows applied to the coding shards (44_codec.md R170, R177) -/

/-- Cauchy row i is not all zero, and the address lies in its coding shard: what applying the row writes. -/
def State.CodingWrites (s : State) (i a : Nat) : Prop :=
  s.RowNonzero i ∧ (s.operands.shardRegion s.dmem (s.operands.ck + i)).contains a = true

/-- `mem` with Cauchy row i applied. -/
def State.applyCodingRow (s : State) (mem : Memory) (i : Nat) : Memory :=
  applyRow mem (s.operands.cauchyRowAt s.dmem i) (s.operands.dataAddrs s.dmem)
    (s.operands.shardAddr s.dmem (s.operands.ck + i)) s.operands.len

/-- `mem` with the listed Cauchy rows applied in turn. -/
def State.applyCodingRows (s : State) (mem : Memory) (rows : List Nat) : Memory :=
  s.operands.applyCauchyRows s.dmem mem rows

theorem State.applyCodingRows_cons (s : State) (mem : Memory) (i : Nat) (rows : List Nat) :
    s.applyCodingRows mem (i :: rows) = s.applyCodingRows (s.applyCodingRow mem i) rows := rfl

theorem State.read_applyCodingRow_of_not_writes (s : State) (mem : Memory) {i a : Nat} (hi : i < s.operands.cm)
    (h : ¬s.CodingWrites i a) : (s.applyCodingRow mem i).read a = mem.read a := by
  rw [State.CodingWrites, s.rowNonzero_iff hi, Region.contains_iff] at h
  exact (read_applyRow ..).trans (if_neg h)

theorem State.read_applyCodingRows_of_not_writes (s : State) (mem : Memory) {rows : List Nat} {a : Nat}
    (hlt : ∀ i ∈ rows, i < s.operands.cm) (h : ∀ i ∈ rows, ¬s.CodingWrites i a) :
    (s.applyCodingRows mem rows).read a = mem.read a := by
  induction rows generalizing mem with
  | nil => rfl
  | cons i rows ih =>
    rw [List.forall_mem_cons] at hlt h
    rw [s.applyCodingRows_cons, ih _ hlt.2 h.2, s.read_applyCodingRow_of_not_writes mem hlt.1 h.1]

/-- A row sums bytes of the data shards alone. -/
theorem State.rowByte_congr (s : State) {mem mem' : Memory} {n : Nat} (coefs : List Byte)
    (h : ∀ j < s.operands.ck,
      mem'.read (s.operands.shardAddr s.dmem j + n) = mem.read (s.operands.shardAddr s.dmem j + n)) :
    rowByte mem' coefs (s.operands.dataAddrs s.dmem) n = rowByte mem coefs (s.operands.dataAddrs s.dmem) n := by
  rw [rowByte_eq_gfSum, rowByte_eq_gfSum]
  refine congrArg gfSum (List.map_congr_left fun ⟨c, src⟩ hmem => ?_)
  obtain ⟨j, hj, rfl⟩ := List.mem_map.mp (List.of_mem_zip hmem).2
  rw [h j (List.mem_range.mp hj)]

/-- The listed rows write to no data shard, and no two of them to one byte. -/
structure State.CodingRowsApart (s : State) (rows : List Nat) : Prop where
  lt : ∀ i ∈ rows, i < s.operands.cm
  data : ∀ i ∈ rows, ∀ j < s.operands.ck, ∀ n < s.operands.len,
    ¬s.CodingWrites i (s.operands.shardAddr s.dmem j + n)
  coding : ∀ i ∈ rows, ∀ j ∈ rows, i ≠ j → ∀ a, ¬(s.CodingWrites i a ∧ s.CodingWrites j a)

theorem State.CodingRowsApart.tail {s : State} {i : Nat} {rows : List Nat} (h : s.CodingRowsApart (i :: rows)) :
    s.CodingRowsApart rows where
  lt := fun j hj => h.lt j (List.mem_cons_of_mem _ hj)
  data := fun j hj => h.data j (List.mem_cons_of_mem _ hj)
  coding := fun p hp q hq => h.coding p (List.mem_cons_of_mem _ hp) q (List.mem_cons_of_mem _ hq)

theorem State.CodingRowsApart.read_data {s : State} {rows : List Nat} (h : s.CodingRowsApart rows) (mem : Memory)
    {j n : Nat} (hj : j < s.operands.ck) (hn : n < s.operands.len) :
    (s.applyCodingRows mem rows).read (s.operands.shardAddr s.dmem j + n) =
      mem.read (s.operands.shardAddr s.dmem j + n) :=
  s.read_applyCodingRows_of_not_writes mem h.lt fun i hi => h.data i hi j hj n hn

/-- The last application of row i fills its shard, and neither that shard nor a data shard is written after it. -/
theorem State.CodingRowsApart.codingByteIn {s : State} {rows : List Nat} (h : s.CodingRowsApart rows) (mem : Memory)
    {i n : Nat} (hi : i ∈ rows) (hrow : s.RowNonzero i) (hn : n < s.operands.len) :
    s.CodingByteIn (s.applyCodingRows mem rows) i n := by
  induction rows generalizing mem with
  | nil => cases hi
  | cons r rows ih =>
    by_cases hlater : i ∈ rows
    · exact ih h.tail _ hlater
    obtain rfl := (List.mem_cons.mp hi).resolve_right hlater
    have hlt := h.lt i hi
    have hin : s.CodingWrites i (s.operands.shardAddr s.dmem (s.operands.ck + i) + n) :=
      ⟨hrow, (Region.contains_iff _ _).mpr ⟨Nat.le_add_right _ _, Nat.add_lt_add_left hn _⟩⟩
    have hkept : ∀ j ∈ rows, ¬s.CodingWrites j (s.operands.shardAddr s.dmem (s.operands.ck + i) + n) :=
      fun j hj hw => h.coding i hi j (List.mem_cons_of_mem _ hj) (fun hij => hlater (hij ▸ hj)) _ ⟨hin, hw⟩
    rw [s.codingByteIn_iff hlt, s.rowByte_congr _ fun j hj => h.read_data mem hj hn, s.applyCodingRows_cons,
      s.read_applyCodingRows_of_not_writes _ h.tail.lt hkept]
    exact read_applyRow_dst ((s.rowNonzero_iff hlt).mp hrow) _ _ hn

/-! ### The checks of ENCODE (44_codec.md R170) -/

theorem State.shardsFit_iff (s : State) : s.ShardsFit ↔
    inRange s.memBytes s.operands.tableRegion.base s.operands.tableRegion.len = true ∧
      (List.range (s.operands.ck + s.operands.cm)).all (s.operands.shardInRange s.memBytes s.dmem) = true := by
  simp only [State.ShardsFit, s.shardFits_iff, s.fits_iff, List.all_eq_true, List.mem_range]
  rfl

theorem State.shardsCheck_of_not_fit {s : State} (h : ¬s.ShardsFit) :
    ∃ readBefore, shardsCheck s.memBytes s.operands s.dmem = .fail .bus readBefore := by
  rw [s.shardsFit_iff] at h
  rw [shardsCheck]
  split_ifs with htable hshards
  · exact ⟨_, rfl⟩
  · exact ⟨_, rfl⟩
  · rw [Bool.not_eq_true', Bool.not_eq_false] at htable hshards
    exact absurd ⟨htable, hshards⟩ h

theorem State.shardsCheck_of_fit {s : State} (h : s.ShardsFit) :
    shardsCheck s.memBytes s.operands s.dmem = .ok () := by
  obtain ⟨htable, hshards⟩ := s.shardsFit_iff.mp h
  rw [shardsCheck, htable, hshards]
  rfl

theorem encodeCheck_of_invalid {memBytes : Nat} {o : Operands} (h : o.coder.valid = false) (mem : Memory) :
    encodeCheck memBytes o mem = .fail .notConfigured [] :=
  if_pos (by simp [h])

theorem encodeCheck_of_valid {memBytes : Nat} {o : Operands} (h : o.coder.valid = true) (mem : Memory) :
    encodeCheck memBytes o mem = shardsCheck memBytes o mem :=
  if_neg (by simp [h])

/-! ### The footprint and the ends of ENCODE -/

theorem exec_encode_of_fail {s : State} {code : ErrCode} {readBefore : List Region}
    (h : encodeCheck s.memBytes s.operands s.dmem = .fail code readBefore) :
    exec .encode s = .next (s.doneWith code s.dmem 0) := by
  change execEncode s = _
  rw [execEncode, h]
  rfl

theorem exec_encode_of_ok {s : State} (h : encodeCheck s.memBytes s.operands s.dmem = .ok ()) :
    exec .encode s = .next ((s.commit (encodeFootprint s.operands s.dmem)
      (s.applyCodingRows s.dmem (List.range s.operands.cm)) []).complete .none) := by
  change execEncode s = _
  rw [execEncode, h]
  rfl

theorem State.footprint_encode_of_ok {s : State} (h : encodeCheck s.memBytes s.operands s.dmem = .ok ()) :
    s.footprint .encode = encodeFootprint s.operands s.dmem :=
  congrArg (Checked.footprint fun _ => encodeFootprint s.operands s.dmem) h

theorem inRegions_encodeFootprint_reads_iff (o : Operands) (mem : Memory) (a : Nat) :
    inRegions (encodeFootprint o mem).reads a = true ↔
      (o.tableRegion.contains a = true ∨ o.cauchyRegion.contains a = true ∨
        ∃ j < o.ck, (o.shardRegion mem j).contains a = true) := by
  simp [encodeFootprint, inRegions]

theorem State.inRegions_encodeFootprint_writes_iff (s : State) (a : Nat) :
    inRegions (encodeFootprint s.operands s.dmem).writes a = true ↔ ∃ i < s.operands.cm, s.CodingWrites i a := by
  simp only [inRegions, encodeFootprint, List.any_map, List.any_filter, List.any_eq_true, List.mem_range]
  refine exists_congr fun i => and_congr_right fun hi => ?_
  rw [State.CodingWrites, s.rowNonzero_iff hi]
  simp

theorem State.encodeFootprint_overlaps_iff (s : State) : (encodeFootprint s.operands s.dmem).overlaps = false ↔
    (∀ a, ¬(inRegions (encodeFootprint s.operands s.dmem).reads a = true ∧
      inRegions (encodeFootprint s.operands s.dmem).writes a = true)) ∧
    ∀ i < s.operands.cm, ∀ j < i, s.RowNonzero i → s.RowNonzero j → ∀ a,
      ¬((s.operands.shardRegion s.dmem (s.operands.ck + i)).contains a = true ∧
        (s.operands.shardRegion s.dmem (s.operands.ck + j)).contains a = true) := by
  rw [Footprint.overlaps_eq_false_iff]
  refine and_congr_right fun _ => ?_
  rw [encodeFootprint, List.pairwise_map, List.pairwise_filter, pairwise_range_iff]
  refine forall₄_congr fun i hi j hj => ?_
  rw [Region.meets_eq_false_iff, s.rowNonzero_iff hi, s.rowNonzero_iff (hj.trans hi), Bool.not_eq_true',
    Bool.not_eq_true']
  exact ⟨fun h hrowi hrowj a hw => h hrowj hrowi a hw.symm, fun h hrowj hrowi a hw => h hrowi hrowj a hw.symm⟩

/-- Without an overlap the rows of ENCODE stay off the data shards, which are read, and off each other's shards. -/
theorem State.codingRowsApart_of_not_overlaps {s : State}
    (h : (encodeFootprint s.operands s.dmem).overlaps = false) :
    s.CodingRowsApart (List.range s.operands.cm) := by
  obtain ⟨hreads, hcoding⟩ := s.encodeFootprint_overlaps_iff.mp h
  refine ⟨fun i => List.mem_range.mp, fun i hi j hj n hn hw => ?_, fun i hi j hj hne a ⟨hwi, hwj⟩ => ?_⟩
  · have hdata : (s.operands.shardRegion s.dmem j).contains (s.operands.shardAddr s.dmem j + n) = true :=
      (Region.contains_iff _ _).mpr ⟨Nat.le_add_right _ _, Nat.add_lt_add_left hn _⟩
    exact hreads _ ⟨(inRegions_encodeFootprint_reads_iff _ _ _).mpr (.inr (.inr ⟨j, hj, hdata⟩)),
      (s.inRegions_encodeFootprint_writes_iff _).mpr ⟨i, List.mem_range.mp hi, hw⟩⟩
  · obtain hlt | hlt := Nat.lt_or_gt_of_ne hne
    · exact hcoding j (List.mem_range.mp hj) i hlt hwj.1 hwi.1 a ⟨hwj.2, hwi.2⟩
    · exact hcoding i (List.mem_range.mp hi) j hlt hwi.1 hwj.1 a ⟨hwi.2, hwj.2⟩

/-- Settles O25: the checks in order; then every coding row in turn, exact if the rows stay apart. -/
theorem encodeFillsTheCodingShards : Obligations.EncodeFillsTheCodingShards := by
  unfold Obligations.EncodeFillsTheCodingShards
  intro s
  refine ⟨fun hvalid => exec_encode_of_fail (encodeCheck_of_invalid hvalid _), fun hvalid hfit => ?_,
    fun hvalid hfit => ?_⟩
  · obtain ⟨readBefore, hfail⟩ := State.shardsCheck_of_not_fit hfit
    exact exec_encode_of_fail ((encodeCheck_of_valid hvalid _).trans hfail)
  have hok := (encodeCheck_of_valid hvalid _).trans (State.shardsCheck_of_fit hfit)
  have hunwritten : ∀ a, inRegions (encodeFootprint s.operands s.dmem).writes a = false →
      ∀ i < s.operands.cm, ¬s.CodingWrites i a := fun a ha i hi hw =>
    Bool.false_ne_true (ha.symm.trans ((s.inRegions_encodeFootprint_writes_iff a).mpr ⟨i, hi, hw⟩))
  obtain ⟨mem, draws, hdone, houtside, hexact⟩ := s.complete_commit .none
    (fp := encodeFootprint s.operands s.dmem) (computed := s.applyCodingRows s.dmem (List.range s.operands.cm))
    fun a ha => s.read_applyCodingRows_of_not_writes _ (fun i => List.mem_range.mp) fun i hi =>
      hunwritten a ha i (List.mem_range.mp hi)
  rw [s.footprint_encode_of_ok hok]
  refine ⟨fun a => ?_, s.inRegions_encodeFootprint_writes_iff, s.encodeFootprint_overlaps_iff,
    mem, draws, (exec_encode_of_ok hok).trans (congrArg _ hdone), fun a hkept => houtside a ?_, fun hover => ?_⟩
  · rw [inRegions_encodeFootprint_reads_iff, Region.contains_iff, Region.contains_iff]
    simp [Operands.tableRegion, Operands.cauchyRegion, Operands.cauchyBase, cauchyOffset, Nat.add_assoc]
  · rw [Bool.eq_false_iff, ne_eq, s.inRegions_encodeFootprint_writes_iff]
    rintro ⟨i, hi, hrow, ha⟩
    exact Bool.false_ne_true ((hkept i hi hrow).symm.trans ha)
  · obtain ⟨hdraws, rfl⟩ := hexact hover
    have hapart := State.codingRowsApart_of_not_overlaps hover
    exact ⟨hdraws, fun i hi hrow n hn => hapart.codingByteIn _ (List.mem_range.mpr hi) hrow hn,
      fun j hj n hn => hapart.read_data _ hj hn⟩

end Sys2Proof.Machine
end

section
/-! PROOF. Completion, errors and the interrupt (60_exceptions.md): the codes each command can report, and what every turn
and every register write does to OVERRUN and to irq. -/

namespace Sys2Proof.Machine

/-! ### What a completion does to STATUS and IRQ_EN (60_exceptions.md R194) -/

/-- `t` has the STATUS of `s` after a completion with the code, and its IRQ_EN. -/
def State.CompletesWith (s : State) (code : ErrCode) (t : State) : Prop :=
  t.status = s.status.completed code ∧ t.irqEn = s.irqEn

theorem State.CompletesWith.errCode {s t : State} {code : ErrCode} (h : s.CompletesWith code t) :
    t.status.errCode = code := by
  rw [h.1, Status.completed_errCode]

theorem State.CompletesWith.overrun {s t : State} {code : ErrCode} (h : s.CompletesWith code t) :
    t.status.overrun = s.status.overrun := by
  rw [h.1, Status.completed_overrun]

/-- A completion sets DONE, so it raises irq where IRQ_EN lets it (60_exceptions.md R196). -/
theorem State.CompletesWith.irq {s t : State} {code : ErrCode} (h : s.CompletesWith code t) : t.irq = s.irqEn := by
  rw [State.irq, h.1, h.2, Status.completed_done, Bool.and_true]

theorem State.completesWith_complete (s : State) (code : ErrCode) : s.CompletesWith code (s.complete code) := ⟨rfl, rfl⟩

theorem State.completesWith_commit (s : State) (fp : Footprint) (mem : Memory) (any : List Region) (code : ErrCode) :
    s.CompletesWith code ((s.commit fp mem any).complete code) := by
  simp [State.CompletesWith]

theorem State.completesWith_regionCommit (s : State) (f : Byte → Byte → Byte) (code : ErrCode) :
    s.CompletesWith code ((s.regionCommit f).complete code) := by
  simp [State.CompletesWith]

/-! ### The codes of the checks (60_exceptions.md R192, R193) -/

/-- The checks fail with the listed codes at most. -/
def Checked.FailsWith {α : Type} (checked : Checked α) (codes : List ErrCode) : Prop :=
  ∀ code readBefore, checked = .fail code readBefore → code ∈ codes

@[simp] theorem Checked.failsWith_fail {α : Type} (code : ErrCode) (readBefore : List Region) (codes : List ErrCode) :
    (Checked.fail code readBefore : Checked α).FailsWith codes ↔ code ∈ codes := by
  simp [Checked.FailsWith]

@[simp] theorem Checked.failsWith_ok {α : Type} (job : α) (codes : List ErrCode) : (Checked.ok job).FailsWith codes := by
  simp [Checked.FailsWith]

theorem Checked.FailsWith.mono {α : Type} {checked : Checked α} {codes row : List ErrCode} (h : checked.FailsWith codes)
    (hsub : codes ⊆ row) : checked.FailsWith row :=
  fun code readBefore hfail => hsub (h code readBefore hfail)

theorem regionCheck_failsWith (memBytes : Nat) (o : Operands) : (regionCheck memBytes o).FailsWith [.bus] := by
  unfold regionCheck
  split_ifs <;> simp

theorem configCheck_failsWith (memBytes : Nat) (o : Operands) : (configCheck memBytes o).FailsWith [.config, .bus] := by
  unfold configCheck
  dsimp only
  split_ifs <;> simp

theorem matinvCheck_failsWith (memBytes : Nat) (o : Operands) : (matinvCheck memBytes o).FailsWith [.param, .bus] := by
  unfold matinvCheck
  dsimp only
  split_ifs <;> simp

theorem lincombCheck_failsWith (memBytes : Nat) (o : Operands) (mem : Memory) :
    (lincombCheck memBytes o mem).FailsWith [.notConfigured, .param, .bus] := by
  unfold lincombCheck
  split_ifs <;> simp

theorem lincombIdCheck_failsWith (memBytes : Nat) (o : Operands) (mem : Memory) :
    (lincombIdCheck memBytes o mem).FailsWith [.notConfigured, .param, .bus] := by
  unfold lincombIdCheck
  split_ifs <;> simp

theorem shardsCheck_failsWith (memBytes : Nat) (o : Operands) (mem : Memory) :
    (shardsCheck memBytes o mem).FailsWith [.bus] := by
  unfold shardsCheck
  split_ifs <;> simp

theorem encodeCheck_failsWith (memBytes : Nat) (o : Operands) (mem : Memory) :
    (encodeCheck memBytes o mem).FailsWith [.notConfigured, .bus] := by
  unfold encodeCheck
  split_ifs
  · simp
  · exact (shardsCheck_failsWith memBytes o mem).mono (by decide)

theorem decodeCheck_failsWith (memBytes : Nat) (o : Operands) (mem : Memory) :
    (decodeCheck memBytes o mem).FailsWith [.notConfigured, .erasures, .bus] := by
  unfold decodeCheck
  split_ifs
  · simp
  · simp
  · exact (shardsCheck_failsWith memBytes o mem).mono (by decide)

/-! ### The codes of the commands (60_exceptions.md R192) -/

/-- The row of a command in R192's table, with NONE for success. -/
def errorRow : Instr → List ErrCode
  | .gfmul => [.none]
  | .gfinv => [.none, .invZero]
  | .rmul => [.none, .bus]
  | .rmulacc => [.none, .bus]
  | .rxor => [.none, .bus]
  | .config => [.none, .config, .bus]
  | .matinv => [.none, .param, .bus, .singular]
  | .lincomb => [.none, .notConfigured, .param, .bus]
  | .lincombId => [.none, .notConfigured, .param, .bus]
  | .encode => [.none, .notConfigured, .bus]
  | .decode => [.none, .notConfigured, .bus, .erasures, .singular]

/-- A command with checks reports a code of its checks, or of its run once they pass. -/
theorem State.completesWith_of_finish {α : Type} {s t : State} {checked : Checked α} {run : α → State}
    {codes row : List ErrCode} (h : s.finish checked run = .next t) (hcheck : checked.FailsWith codes)
    (hsub : codes ⊆ row) (hrun : ∀ job, ∃ code ∈ row, s.CompletesWith code (run job)) :
    ∃ code ∈ row, s.CompletesWith code t := by
  obtain ⟨code, readBefore, hfail, rfl⟩ | ⟨job, -, rfl⟩ := s.finish_cases t checked run h
  · exact ⟨code, hsub (hcheck code readBefore hfail), s.completesWith_complete code⟩
  · exact hrun job

/-- RMUL, RMULACC and RXOR alike. -/
theorem State.completesWith_of_regionFinish {s t : State} {f : Byte → Byte → Byte}
    (h : (s.finish (regionCheck s.memBytes s.operands) fun _ => (s.regionCommit f).complete .none) = .next t) :
    ∃ code ∈ [ErrCode.none, .bus], s.CompletesWith code t :=
  completesWith_of_finish h (regionCheck_failsWith _ _) (by decide)
    fun _ => ⟨.none, by decide, s.completesWith_regionCommit _ _⟩

theorem exec_gfinv_completesWith {s t : State} (h : exec .gfinv s = .next t) :
    ∃ code ∈ errorRow .gfinv, s.CompletesWith code t := by
  by_cases hopa : s.operands.params.opa = 0#8
  · cases (exec_gfinv_of_eq_zero hopa).symm.trans h
    exact ⟨.invZero, by decide, rfl, rfl⟩
  · cases (exec_gfinv_of_ne_zero hopa).symm.trans h
    exact ⟨.none, by decide, rfl, rfl⟩

theorem exec_config_completesWith {s t : State} (h : exec .config s = .next t) :
    ∃ code ∈ errorRow .config, s.CompletesWith code t := by
  have hcheck := configCheck_failsWith s.memBytes s.operands
  cases hres : configCheck s.memBytes s.operands with
  | fail code readBefore =>
    cases (exec_config_of_fail hres).symm.trans h
    exact ⟨code, List.mem_cons_of_mem _ (hcheck code readBefore hres), rfl, rfl⟩
  | ok =>
    cases (exec_config_of_ok hres).symm.trans h
    exact ⟨.none, by decide, rfl, rfl⟩

theorem exec_matinv_completesWith {s t : State} (h : exec .matinv s = .next t) :
    ∃ code ∈ errorRow .matinv, s.CompletesWith code t := by
  refine State.completesWith_of_finish h (matinvCheck_failsWith _ _) (by decide) fun _ => ?_
  split
  · exact ⟨.singular, by decide, rfl, rfl⟩
  · exact ⟨.none, by decide, s.completesWith_commit _ _ _ _⟩

theorem exec_decode_completesWith {s t : State} (h : exec .decode s = .next t) :
    ∃ code ∈ errorRow .decode, s.CompletesWith code t := by
  refine State.completesWith_of_finish h (decodeCheck_failsWith _ _ _) (by decide) fun _ => ?_
  split
  · exact ⟨.none, by decide, s.completesWith_commit _ _ _ _⟩
  · split
    · exact ⟨.singular, by decide, s.completesWith_commit _ _ _ _⟩
    · exact ⟨.none, by decide, s.completesWith_commit _ _ _ _⟩

/-- Every command completes with a code of its row. -/
theorem exec_completesWith {i : Instr} {s t : State} (h : exec i s = .next t) :
    ∃ code ∈ errorRow i, s.CompletesWith code t := by
  cases i with
  | gfmul =>
    cases (exec_gfmul s).symm.trans h
    exact ⟨.none, by decide, rfl, rfl⟩
  | gfinv => exact exec_gfinv_completesWith h
  | rmul => exact State.completesWith_of_regionFinish h
  | rmulacc => exact State.completesWith_of_regionFinish h
  | rxor => exact State.completesWith_of_regionFinish h
  | config => exact exec_config_completesWith h
  | matinv => exact exec_matinv_completesWith h
  | lincomb =>
    exact State.completesWith_of_finish h (lincombCheck_failsWith _ _ _) (by decide)
      fun _ => ⟨.none, by decide, s.completesWith_commit _ _ _ _⟩
  | lincombId =>
    exact State.completesWith_of_finish h (lincombIdCheck_failsWith _ _ _) (by decide)
      fun _ => ⟨.none, by decide, s.completesWith_commit _ _ _ _⟩
  | encode =>
    exact State.completesWith_of_finish h (encodeCheck_failsWith _ _ _) (by decide)
      fun _ => ⟨.none, by decide, s.completesWith_commit _ _ _ _⟩
  | decode => exact exec_decode_completesWith h

/-- Settles O38: an illegal word completes with BAD_CMD, and a command with a code of its row. -/
theorem commandsReportOnlyTheirCodes : Obligations.CommandsReportOnlyTheirCodes := by
  unfold Obligations.CommandsReportOnlyTheirCodes
  refine ⟨fun s r hr hrst hillegal => ⟨_, State.engineTurn_of_illegal hrst hr hillegal, rfl⟩, fun i s t h => ?_⟩
  obtain ⟨code, hrow, hdone⟩ := exec_completesWith h
  rw [hdone.errCode]
  exact hrow

/-! ### OVERRUN and irq (60_exceptions.md R196, R197) -/

/-- The engine's turn does nothing, in reset or with no command running, or it completes the running command. -/
theorem State.engineTurn_cases {s t : State} (h : s.engineTurn = .next t) :
    (t = s ∧ (s.rstLow = true ∨ s.running = none)) ∨ ∃ code, s.CompletesWith code t := by
  unfold State.engineTurn at h
  split at h
  case isTrue hrst =>
    cases h
    exact .inl ⟨rfl, .inl hrst⟩
  case isFalse =>
    split at h
    case h_1 hidle =>
      cases h
      exact .inl ⟨rfl, .inr hidle⟩
    case h_2 =>
      split at h
      case h_1 =>
        obtain ⟨code, -, hdone⟩ := exec_completesWith h
        exact .inr ⟨code, hdone⟩
      case h_2 =>
        cases h
        exact .inr ⟨.badCmd, s.completesWith_complete .badCmd⟩

/-- A write to CMD while BUSY is dropped (10_state.md R28). -/
theorem State.writeReg_cmd_of_busy {s : State} (w : Word) (h : s.busy = true) :
    s.writeReg .cmd w = { s with status := { s.status with overrun := true } } :=
  if_pos h

/-- Settles O47: the two arms of a CMD write, and a completion or an idle turn of the engine, by what each does to STATUS. -/
theorem cmdWriteWhileBusyIsDroppedWithOverrun : Obligations.CmdWriteWhileBusyIsDroppedWithOverrun := by
  unfold Obligations.CmdWriteWhileBusyIsDroppedWithOverrun
  refine ⟨fun s r w hr => ?_, fun s w hidle => ?_, fun s t h => ?_, fun s v => rfl, fun s => rfl⟩
  · exact State.writeReg_cmd_of_busy w (by rw [State.busy, hr, Option.isSome_some])
  · rw [State.writeReg_cmd_of_idle w hidle, State.launch_status, Status.launched_overrun]
  · obtain ⟨rfl, -⟩ | ⟨code, hdone⟩ := State.engineTurn_cases h
    · rfl
    · exact hdone.overrun

/-- While DONE is clear irq is low, whatever IRQ_EN. -/
theorem State.irq_of_not_done {s : State} (h : s.status.done = false) : s.irq = false := by
  rw [State.irq, h, Bool.and_false]

/-- Settles O53: a completion sets DONE; launch, a 1 written to DONE and reset clear it. -/
theorem irqFollowsEnableAndDone : Obligations.IrqFollowsEnableAndDone := by
  unfold Obligations.IrqFollowsEnableAndDone
  refine ⟨fun s => rfl, fun s t hbusy hrst h => ?_, fun s w hidle => ?_, fun s v hv => ?_, fun s v => rfl, fun s => rfl⟩
  · obtain ⟨-, hlow | hidle⟩ | ⟨code, hdone⟩ := State.engineTurn_cases h
    · simp [hrst] at hlow
    · simp [State.busy, hidle] at hbusy
    · exact hdone.irq
  · rw [State.writeReg_cmd_of_idle w hidle]
    exact State.irq_of_not_done rfl
  · have hdone : (s.writeReg .status v).status.done = (s.status.done && !v.getLsbD 1) := rfl
    exact State.irq_of_not_done (by rw [hdone, hv, Bool.not_true, Bool.and_false])

end Sys2Proof.Machine
end

section
/-! PROOF. DECODE up to its inversion (44_codec.md R171-R174): the survivors, the checks, and the survivor matrix. -/

namespace Sys2Proof.Machine

/-! ### The survivors (44_codec.md R173) -/

/-- The shards that are not erased, ascending; the survivors are the first k of them. -/
def Operands.presentShards (o : Operands) : List Nat :=
  (List.range (o.ck + o.cm)).filter fun sh => !o.params.erased sh

section
variable {o : Operands} {sh q : Nat}

theorem Operands.survivors_eq_take (o : Operands) : o.survivors = o.presentShards.take o.ck := rfl

theorem Operands.mem_presentShards_iff : sh ∈ o.presentShards ↔ sh < o.ck + o.cm ∧ o.params.erased sh = false := by
  simp [Operands.presentShards]

theorem Operands.presentShards_ascending (o : Operands) : o.presentShards.Pairwise (· < ·) :=
  List.pairwise_lt_range.filter _

theorem Operands.mem_presentShards_of_mem_survivors (h : sh ∈ o.survivors) : sh ∈ o.presentShards :=
  List.mem_of_mem_take h

theorem Operands.survivors_ascending (o : Operands) : o.survivors.Pairwise (· < ·) :=
  o.presentShards_ascending.take

theorem Operands.lt_of_mem_survivors (h : sh ∈ o.survivors) : sh < o.ck + o.cm :=
  (Operands.mem_presentShards_iff.mp (Operands.mem_presentShards_of_mem_survivors h)).1

theorem Operands.not_erased_of_mem_survivors (h : sh ∈ o.survivors) : o.params.erased sh = false :=
  (Operands.mem_presentShards_iff.mp (Operands.mem_presentShards_of_mem_survivors h)).2

theorem Operands.length_survivors_le (o : Operands) : o.survivors.length ≤ o.ck :=
  List.length_take_le _ _

/-- With at most m erasures at least k shards are left. -/
theorem Operands.length_survivors (h : o.erasedShards.length ≤ o.cm) : o.survivors.length = o.ck := by
  have hsplit : o.ck + o.cm = o.erasedShards.length + o.presentShards.length :=
    List.length_range.symm.trans (List.length_eq_length_filter_add o.params.erased)
  rw [Operands.survivors_eq_take, List.length_take]
  omega

/-- A present shard that is no survivor stands behind the first k of them. -/
theorem Operands.lt_of_not_mem_survivors (hq : q ∈ o.survivors) (hsh : sh ∈ o.presentShards) (hnot : sh ∉ o.survivors) :
    q < sh := by
  have hascending := o.presentShards_ascending
  rw [← List.take_append_drop o.ck o.presentShards] at hascending hsh
  exact (List.pairwise_append.mp hascending).2.2 q hq sh ((List.mem_append.mp hsh).resolve_left hnot)

end

/-- Settles O31: the survivors are the first k of the present shards, which ascend. -/
theorem survivorsAreTheFirstKPresentShards : Obligations.SurvivorsAreTheFirstKPresentShards := by
  unfold Obligations.SurvivorsAreTheFirstKPresentShards
  intro s _ herasures
  refine ⟨Operands.length_survivors herasures, s.operands.survivors_ascending, fun sh h =>
    ⟨Operands.lt_of_mem_survivors h, Operands.not_erased_of_mem_survivors h⟩, fun sh hlt hpresent hnot q hq => ?_⟩
  exact Operands.lt_of_not_mem_survivors hq (Operands.mem_presentShards_iff.mpr ⟨hlt, hpresent⟩) hnot

/-! ### The checks of DECODE (44_codec.md R171) -/

theorem shardsCheck_ok_iff (s : State) : shardsCheck s.memBytes s.operands s.dmem = .ok () ↔ s.ShardsFit := by
  refine ⟨fun h => by_contra fun hfit => ?_, State.shardsCheck_of_fit⟩
  obtain ⟨readBefore, hfail⟩ := State.shardsCheck_of_not_fit hfit
  exact nomatch (hfail.symm.trans h)

section
variable {memBytes : Nat} {o : Operands} (mem : Memory)

theorem decodeCheck_of_invalid (h : o.coder.valid = false) : decodeCheck memBytes o mem = .fail .notConfigured [] :=
  if_pos (by simp [h])

variable (hvalid : o.coder.valid = true)
include hvalid

theorem decodeCheck_of_erasures (h : o.cm < o.erasedShards.length) :
    decodeCheck memBytes o mem = .fail .erasures [] := by
  rw [decodeCheck, if_neg (by simp [hvalid]), if_pos h]

theorem decodeCheck_of_few_erasures (h : o.erasedShards.length ≤ o.cm) :
    decodeCheck memBytes o mem = shardsCheck memBytes o mem := by
  rw [decodeCheck, if_neg (by simp [hvalid]), if_neg (Nat.not_lt.mpr h)]

end

theorem State.decodeRuns_iff (s : State) :
    s.DecodeRuns ↔ decodeCheck s.memBytes s.operands s.dmem = .ok () := by
  refine ⟨fun ⟨hvalid, herasures, hfit⟩ =>
    (decodeCheck_of_few_erasures _ hvalid herasures).trans (State.shardsCheck_of_fit hfit), fun h => ?_⟩
  cases hvalid : s.operands.coder.valid with
  | false => exact nomatch ((decodeCheck_of_invalid _ hvalid).symm.trans h)
  | true =>
    obtain hmany | hfew := Nat.lt_or_ge s.operands.cm s.operands.erasedShards.length
    · exact nomatch ((decodeCheck_of_erasures _ hvalid hmany).symm.trans h)
    · rw [decodeCheck_of_few_erasures _ hvalid hfew, shardsCheck_ok_iff] at h
      exact ⟨hvalid, hfew, h⟩

theorem exec_decode_of_fail {s : State} {code : ErrCode} {readBefore : List Region}
    (h : decodeCheck s.memBytes s.operands s.dmem = .fail code readBefore) :
    exec .decode s = .next (s.doneWith code s.dmem 0) := by
  change execDecode s = _
  rw [execDecode, h]
  rfl

/-- Settles O26, check by check. -/
theorem decodeRefusesInOrder : Obligations.DecodeRefusesInOrder := by
  unfold Obligations.DecodeRefusesInOrder
  refine fun s => ⟨fun hvalid => exec_decode_of_fail (decodeCheck_of_invalid _ hvalid),
    fun hvalid hmany => exec_decode_of_fail (decodeCheck_of_erasures _ hvalid hmany), fun hvalid hfew hfit => ?_⟩
  obtain ⟨readBefore, hfail⟩ := State.shardsCheck_of_not_fit hfit
  exact exec_decode_of_fail ((decodeCheck_of_few_erasures _ hvalid hfew).trans hfail)

/-! ### The survivor matrix (44_codec.md R174) -/

theorem length_augmentedRow {k m id : Nat} {c : Matrix} (hlen : c.length = m) (hrows : ∀ row ∈ c, row.length = k)
    (hid : id < k + m) : (augmentedRow k c id).length = k := by
  unfold augmentedRow
  split
  · simp
  · rw [List.getD_eq_getElem _ _ (by omega)]
    exact hrows _ (List.getElem_mem _)

theorem Operands.isSquareMatrix_tmat {o : Operands} (h : o.erasedShards.length ≤ o.cm) (mem : Memory) :
    IsSquareMatrix o.ck (o.tmat mem) := by
  rw [Operands.tmat, buildTmpmat_eq_map]
  refine ⟨by rw [List.length_map, Operands.length_survivors h], List.forall_mem_map.mpr fun id hid => ?_⟩
  exact length_augmentedRow (m := o.cm) (by simp [Operands.cauchy, Memory.readMatrix])
    (by simp [Operands.cauchy, Memory.readMatrix]) (Operands.lt_of_mem_survivors hid)

end Sys2Proof.Machine
end

section
/-! PROOF. A command as a function of its operands and of DMEM: what it goes on to do is settled by them alone (10_state.md R51;
20_memory.md R85), and is then done to the state. -/

namespace Sys2Proof.Machine

/-- The checks of a command, with what it goes on to do turned into something else. -/
def Checked.map {α β : Type} (f : α → β) : Checked α → Checked β
  | .fail code readBefore => .fail code readBefore
  | .ok job => .ok (f job)

/-- What a command does past its checks. -/
structure Effect where
  /-- The footprint whose overlap makes FP.W ANY. -/
  fp : Footprint
  /-- DMEM without an overlap, up to the regions left ANY. -/
  mem : Memory
  /-- The regions left ANY. -/
  any : List Region
  /-- The code of the completion. -/
  code : ErrCode
  /-- RESULT, if it is written. -/
  result : Option Byte := none
  /-- The latched coder, if it is written. -/
  coder : Option Coder := none

/-- RMUL, RMULACC and RXOR; with SRC = DST nothing overlaps (40_field.md R125-R127). -/
def regionEffect (f : Byte → Byte → Byte) (o : Operands) (mem : Memory) : Effect where
  fp := if o.params.src = o.params.dst then { reads := [], writes := [o.dstRegion] } else regionFootprint o
  mem := regionRun f o mem
  any := []
  code := .none

/-- LINCOMB and LINCOMB.ID (43_lincomb.md R160-R163). -/
def rowEffect (fp : RowJob → Footprint) (o : Operands) (mem : Memory) (job : RowJob) : Effect where
  fp := fp job
  mem := applyRow mem job.coefs job.srcs job.dst o.len
  any := []
  code := .none

/-- CONFIG (41_coder.md R143). -/
def configEffect (o : Operands) (mem : Memory) : Effect where
  fp := configFootprint o
  mem := mem.writeBytes (configCauchyBase o) (cauchyMatrix o.params.k.toNat o.params.m.toNat).flatten
  any := []
  code := .none
  coder := some { valid := true, k := o.params.k, m := o.params.m, ws := o.params.wsBase }

/-- MATINV with the answer of INVERT (42_matinv.md R150). -/
def matinvEffect (o : Operands) (mem : Memory) : Option Matrix → Effect
  | none => { fp := matinvFootprint o, mem := mem, any := (matinvFootprint o).writes, code := .singular }
  | some inv => { fp := matinvFootprint o, mem := matinvMemory o inv mem, any := [], code := .none }

/-- ENCODE (44_codec.md R170). -/
def encodeEffect (o : Operands) (mem : Memory) : Effect where
  fp := encodeFootprint o mem
  mem := o.applyCauchyRows mem mem (List.range o.cm)
  any := []
  code := .none

/-- The DMEM of a DECODE with the inverse D (44_codec.md R173-R177). -/
def Operands.decodeMemory (o : Operands) (d : Matrix) (launch mem : Memory) : Memory :=
  o.applyCauchyRows launch (o.recoverData launch d (o.writeScratch d mem)) o.erasedCoding

/-- DECODE with an erased data shard, with the answer of INVERT (44_codec.md R173-R177). -/
def decodeDataEffect (o : Operands) (mem : Memory) : Option Matrix → Effect
  | none => { fp := decodeFootprint o mem, mem := o.writeIds mem, any := [o.tmpmatRegion, o.decodingRegion], code := .singular }
  | some d => { fp := decodeFootprint o mem, mem := o.decodeMemory d mem mem, any := [], code := .none }

/-- DECODE (44_codec.md R172). -/
def decodeEffect (o : Operands) (mem : Memory) : Effect :=
  if o.erasedData.isEmpty then
    { fp := decodeFootprint o mem, mem := o.applyCauchyRows mem mem o.erasedCoding, any := [], code := .none }
  else decodeDataEffect o mem (invertMatrix o.ck (o.tmat mem))

/-- What command i does with the operands and DMEM it finds. -/
def commandEffect (i : Instr) (memBytes : Nat) (o : Operands) (mem : Memory) : Checked Effect :=
  match i with
  | .gfmul => .ok { fp := .empty, mem := mem, any := [], code := .none, result := some (gmul o.params.opa o.params.opb) }
  | .gfinv =>
    if o.params.opa = 0#8 then .fail .invZero []
    else .ok { fp := .empty, mem := mem, any := [], code := .none, result := some (ginv o.params.opa) }
  | .rmul => (regionCheck memBytes o).map fun _ => regionEffect (fun _ x => gmul o.params.scalar x) o mem
  | .rmulacc => (regionCheck memBytes o).map fun _ => regionEffect (fun d x => d ^^^ gmul o.params.scalar x) o mem
  | .rxor => (regionCheck memBytes o).map fun _ => regionEffect (fun d x => d ^^^ x) o mem
  | .config => (configCheck memBytes o).map fun _ => configEffect o mem
  | .matinv => (matinvCheck memBytes o).map fun _ => matinvEffect o mem (invertMatrix o.matDim (matinvInput o mem))
  | .lincomb => (lincombCheck memBytes o mem).map (rowEffect (lincombFootprint o) o mem)
  | .lincombId => (lincombIdCheck memBytes o mem).map (rowEffect (lincombIdFootprint o) o mem)
  | .encode => (encodeCheck memBytes o mem).map fun _ => encodeEffect o mem
  | .decode => (decodeCheck memBytes o mem).map fun _ => decodeEffect o mem

/-- The effect done to the state, and the completion. -/
def Effect.applyTo (e : Effect) (s : State) : State :=
  { s.commit e.fp e.mem e.any with
    result := e.result.getD s.result
    coder := e.coder.getD s.coder }.complete e.code

/-- A failing check's completion; CONFIG clears CFG_VALID too (41_coder.md R143). -/
def State.refuse (s : State) (i : Instr) (code : ErrCode) : State :=
  { s with coder := if i = Instr.config then { s.coder with valid := false } else s.coder }.complete code

/-- The state after a command with the given checks and effect. -/
def State.after (s : State) (i : Instr) : Checked Effect → State
  | .fail code _ => s.refuse i code
  | .ok e => e.applyTo s

/-! ### Every command is its effect -/

theorem Effect.applyTo_of_commit (s : State) (fp : Footprint) (mem : Memory) (any : List Region) (code : ErrCode) :
    ({ fp := fp, mem := mem, any := any, code := code } : Effect).applyTo s = (s.commit fp mem any).complete code := by
  simp only [Effect.applyTo, Option.getD_none]
  rw [← s.commit_result fp mem any, ← s.commit_coder fp mem any]

theorem State.finish_eq_after {α : Type} {s : State} {i : Instr} {checked : Checked α} {run : α → State} {f : α → Effect}
    (hi : i ≠ .config) (hrun : ∀ job, run job = (f job).applyTo s) :
    s.finish checked run = .next (s.after i (checked.map f)) := by
  cases checked with
  | fail code readBefore =>
    rw [State.finish_fail, Checked.map, State.after, State.refuse, if_neg hi]
  | ok job => rw [State.finish_ok, hrun, Checked.map, State.after]

/-- The overlap rule, or none of it with SRC = DST. -/
theorem regionEffect_applyTo (s : State) (f : Byte → Byte → Byte) :
    (s.regionCommit f).complete .none = (regionEffect f s.operands s.dmem).applyTo s := by
  rw [regionEffect, Effect.applyTo_of_commit, State.regionCommit]
  split
  · rw [s.commit_of_not_overlaps]
    rfl
  · rfl

/-- A singular matrix leaves both regions ANY, with or without an overlap. -/
theorem commit_all_writes (s : State) (fp : Footprint) : s.commit fp s.dmem fp.writes = s.fillAny fp.writes := by
  unfold State.commit
  split <;> rfl

theorem exec_matinv_eq (s : State) : exec .matinv s =
    .next (s.after .matinv (commandEffect .matinv s.memBytes s.operands s.dmem)) := by
  refine State.finish_eq_after (by decide) fun _ => ?_
  split
  · rename_i hinvert
    rw [hinvert, matinvEffect, Effect.applyTo_of_commit, commit_all_writes]
  · rename_i hinvert
    rw [hinvert, matinvEffect, Effect.applyTo_of_commit]
    rfl

theorem exec_decode_eq (s : State) : exec .decode s =
    .next (s.after .decode (commandEffect .decode s.memBytes s.operands s.dmem)) := by
  refine State.finish_eq_after (by decide) fun _ => ?_
  unfold decodeEffect
  split
  · rw [Effect.applyTo_of_commit]
  · split
    · rename_i hinvert
      rw [hinvert, decodeDataEffect, Effect.applyTo_of_commit]
    · rename_i hinvert
      rw [hinvert, decodeDataEffect, Effect.applyTo_of_commit]
      rfl

theorem exec_config_eq (s : State) : exec .config s =
    .next (s.after .config (commandEffect .config s.memBytes s.operands s.dmem)) := by
  unfold commandEffect
  dsimp only
  cases hcheck : configCheck s.memBytes s.operands with
  | fail => exact exec_config_of_fail hcheck
  | ok =>
    rw [exec_config_of_ok hcheck, Checked.map, State.after, Effect.applyTo, configEffect,
      s.commit_of_not_overlaps _ _ (configFootprint_overlaps _)]
    rfl

theorem exec_gfinv_eq (s : State) : exec .gfinv s =
    .next (s.after .gfinv (commandEffect .gfinv s.memBytes s.operands s.dmem)) := by
  unfold commandEffect
  dsimp only
  split
  · rename_i hopa
    exact exec_gfinv_of_eq_zero hopa
  · rename_i hopa
    exact exec_gfinv_of_ne_zero hopa

/-- A command is its effect, which its operands and DMEM settle. -/
theorem exec_eq_after (i : Instr) (s : State) :
    exec i s = .next (s.after i (commandEffect i s.memBytes s.operands s.dmem)) := by
  cases i with
  | gfmul => exact exec_gfmul s
  | gfinv => exact exec_gfinv_eq s
  | config => exact exec_config_eq s
  | matinv => exact exec_matinv_eq s
  | decode => exact exec_decode_eq s
  | rmul => exact State.finish_eq_after (by decide) fun _ => regionEffect_applyTo s _
  | rmulacc => exact State.finish_eq_after (by decide) fun _ => regionEffect_applyTo s _
  | rxor => exact State.finish_eq_after (by decide) fun _ => regionEffect_applyTo s _
  | lincomb => exact State.finish_eq_after (by decide) fun _ => (Effect.applyTo_of_commit ..).symm
  | lincombId => exact State.finish_eq_after (by decide) fun _ => (Effect.applyTo_of_commit ..).symm
  | encode => exact State.finish_eq_after (by decide) fun _ => (Effect.applyTo_of_commit ..).symm

/-- Every command answers a next state. -/
theorem exec_total (i : Instr) (s : State) : ∃ t, exec i s = .next t := ⟨_, exec_eq_after i s⟩

/-! ### Parameter writes (10_state.md R49) -/

theorem State.setParams_after (s : State) (p : Params) (i : Instr) (effect : Checked Effect) :
    (s.setParams p).after i effect = (s.after i effect).setParams p := by
  cases effect with
  | fail => rfl
  | ok e =>
    simp only [State.after, Effect.applyTo, State.commit]
    split <;> rfl

/-- Settles O42: the operands are those of the snapshot, so the effect is the same. -/
theorem parameterWritesDoNotReachTheRunningCommand : Obligations.ParameterWritesDoNotReachTheRunningCommand := by
  unfold Obligations.ParameterWritesDoNotReachTheRunningCommand
  intro i s t r p hr h
  cases (exec_eq_after i s).symm.trans h
  have hops : (s.setParams p).operands = s.operands := by
    rw [s.operands_of_running r hr, (s.setParams p).operands_of_running r hr]
  rw [exec_eq_after, hops, ← s.setParams_after p]
  rfl

end Sys2Proof.Machine
end

section
/-! PROOF. What a command can do, said once for all commands: it writes DMEM inside FP.W alone (20_memory.md R89), and it ends
refused by a check, with an empty FP.W (60_exceptions.md R195), or having run. -/

namespace Sys2Proof.Machine

/-! ### Writes inside regions -/

/-- `after` is `before` with bytes written inside the regions alone. -/
inductive WritesIn (rs : List Region) (before : Memory) : Memory → Prop
  | refl : WritesIn rs before before
  | write {mem : Memory} {a : Nat} (v : Byte) (h : WritesIn rs before mem) (ha : inRegions rs a = true) :
      WritesIn rs before (mem.write a v)

theorem inRegions_of_mem {rs : List Region} {r : Region} {a : Nat} (hr : r ∈ rs) (ha : r.contains a = true) :
    inRegions rs a = true :=
  List.any_eq_true.mpr ⟨r, hr, ha⟩

section
variable {rs qs : List Region} {before mid after : Memory}

theorem WritesIn.trans (h : WritesIn rs before mid) (h' : WritesIn rs mid after) : WritesIn rs before after := by
  induction h' with
  | refl => exact h
  | write v _ ha ih => exact ih.write v ha

theorem WritesIn.mono (h : WritesIn rs before after) (hsub : rs ⊆ qs) : WritesIn qs before after := by
  induction h with
  | refl => exact .refl
  | write v _ ha ih =>
    obtain ⟨r, hr, hcontains⟩ := List.any_eq_true.mp ha
    exact ih.write v (inRegions_of_mem (hsub hr) hcontains)

theorem WritesIn.sameOutside (h : WritesIn rs before after) : SameOutside rs before after := by
  induction h with
  | refl => exact .refl rs before
  | @write mem a v _ ha ih =>
    intro b hb
    have hne : b ≠ a := fun heq => Bool.false_ne_true (hb.symm.trans (heq ▸ ha))
    rw [Memory.read_write_of_ne _ v hne, ih b hb]

theorem WritesIn.wf (h : WritesIn rs before after) (hwf : before.wf = true) : after.wf = true := by
  induction h with
  | refl => exact hwf
  | write v _ _ ih => exact Memory.wf_write _ _ v ih

/-- A listed byte was listed before or lies in the regions. -/
theorem WritesIn.mem_cases (h : WritesIn rs before after) {c : Host.Cell} (hc : c ∈ after) :
    inRegions rs c.1 = true ∨ c ∈ before := by
  induction h with
  | refl => exact .inr hc
  | write v _ ha ih =>
    obtain rfl | hc := Memory.mem_write hc
    · exact .inl ha
    · exact ih hc

end

section
variable {rs : List Region} {r : Region}

/-- A run of bytes that fits a region of the list. -/
theorem writesIn_writeBytes {vs : List Byte} (hr : r ∈ rs) (hlen : vs.length ≤ r.len) (mem : Memory) :
    WritesIn rs mem (mem.writeBytes r.base vs) := by
  suffices h : ∀ a, r.base ≤ a → a + vs.length ≤ r.base + r.len → WritesIn rs mem (mem.writeBytes a vs) from
    h r.base le_rfl (Nat.add_le_add_left hlen _)
  clear hlen
  induction vs generalizing mem with
  | nil => exact fun _ _ _ => .refl
  | cons v vs ih =>
    intro a hlo hhi
    rw [List.length_cons] at hhi
    have ha : inRegions rs a = true := inRegions_of_mem hr ((r.contains_iff a).mpr ⟨hlo, by omega⟩)
    exact (WritesIn.refl.write v ha).trans (ih (mem.write a v) (a + 1) (by omega) (by omega))

theorem writesIn_fillAny {any : List Region} (hany : any ⊆ rs) (mem : Memory) (n : Nat) :
    WritesIn rs mem (mem.fillAny n any) := by
  induction any generalizing mem n with
  | nil => exact .refl
  | cons r any ih =>
    obtain ⟨hr, hany⟩ := List.cons_subset.mp hany
    exact (writesIn_writeBytes hr (by simp) mem).trans (ih hany _ _)

/-- A row that is not all zero writes its destination. -/
theorem writesIn_applyRow {coefs : List Byte} {dst len : Nat}
    (hr : allZero coefs = false → ({ base := dst, len := len } : Region) ∈ rs) (mem : Memory) (srcs : List Nat) :
    WritesIn rs mem (applyRow mem coefs srcs dst len) := by
  cases hzero : allZero coefs with
  | true => rw [applyRow_of_allZero hzero]; exact .refl
  | false =>
    rw [applyRow, hzero]
    exact writesIn_writeBytes (hr hzero) (by simp) mem

/-- Rows applied one after the other. -/
theorem writesIn_foldl {α : Type} {f : Memory → α → Memory} {xs : List α}
    (hf : ∀ x ∈ xs, ∀ mem, WritesIn rs mem (f mem x)) (mem : Memory) : WritesIn rs mem (xs.foldl f mem) := by
  induction xs generalizing mem with
  | nil => exact .refl
  | cons x xs ih =>
    obtain ⟨hx, hxs⟩ := List.forall_mem_cons.mp hf
    exact (hx mem).trans (ih hxs _)

end

/-- The DMEM effect of a command whose memory stays in FP.W (20_memory.md R79). -/
theorem State.commit_writesIn (s : State) {fp : Footprint} {mem : Memory} {any : List Region}
    (hmem : WritesIn fp.writes s.dmem mem) (hany : any ⊆ fp.writes) : ∃ mem' draws,
      s.commit fp mem any = { s with dmem := mem', freeCount := s.freeCount + draws } ∧
      WritesIn fp.writes s.dmem mem' := by
  unfold State.commit
  split
  · exact ⟨_, _, rfl, writesIn_fillAny (List.Subset.refl _) _ _⟩
  · exact ⟨_, _, rfl, hmem.trans (writesIn_fillAny hany _ _)⟩

/-! ### The ends of a command -/

/-- How command i can end from state s. -/
inductive Ends (i : Instr) (s : State) : State → Prop
  /-- A check failed: STATUS alone changes, and for CONFIG CFG_VALID. -/
  | refused {code : ErrCode} (herr : code ≠ .none) (hwrites : (s.footprint i).writes = []) :
      Ends i s ({ s with coder := if i = Instr.config then { s.coder with valid := false } else s.coder }.complete code)
  /-- The checks passed. -/
  | ran {code : ErrCode} {result : Byte} {coder : Coder} {mem : Memory} {draws : Nat}
      (hcode : code = .none ∨ code = .singular ∧ i ≠ .config ∧ result = s.result)
      (hcoder : i ≠ .config → coder = s.coder) (hlegal : i = .config → coder.Legal s.memBytes)
      (hmem : WritesIn (s.footprint i).writes s.dmem mem) :
      Ends i s ({ s with result := result, coder := coder }.doneWith code mem draws)

section
variable {i : Instr} {s : State}

/-- A run that touches DMEM through `commit` at most. -/
theorem Ends.of_commit {fp : Footprint} {mem : Memory} {any : List Region} {code : ErrCode} (hi : i ≠ .config)
    (hcode : code = .none ∨ code = .singular) (hfp : s.footprint i = fp) (hmem : WritesIn fp.writes s.dmem mem)
    (hany : any ⊆ fp.writes) : Ends i s ((s.commit fp mem any).complete code) := by
  subst hfp
  obtain ⟨mem', draws, hcommit, hmem'⟩ := s.commit_writesIn hmem hany
  rw [hcommit]
  exact .ran (result := s.result) (hcode.imp_right fun h => ⟨h, hi, rfl⟩) (fun _ => rfl) (absurd · hi) hmem'

/-- A command with checks other than CONFIG ends refused, or as its run does. -/
theorem Ends.of_finish {α : Type} {checked : Checked α} {fp : α → Footprint} {run : α → State} {codes : List ErrCode}
    {t : State} (h : s.finish checked run = .next t) (hi : i ≠ .config) (hcheck : checked.FailsWith codes)
    (hcodes : .none ∉ codes) (hfp : s.footprint i = checked.footprint fp)
    (hrun : ∀ job, checked = .ok job → s.footprint i = fp job → Ends i s (run job)) : Ends i s t := by
  obtain ⟨code, readBefore, rfl, rfl⟩ | ⟨job, rfl, rfl⟩ := s.finish_cases t checked run h
  · have hend : Ends i s _ :=
      .refused (code := code) (fun hnone => hcodes (hnone ▸ hcheck code readBefore rfl)) (by rw [hfp]; rfl)
    rwa [if_neg hi] at hend
  · exact hrun job rfl hfp

theorem writesIn_regionRun (f : Byte → Byte → Byte) (o : Operands) (mem : Memory) :
    WritesIn (regionFootprint o).writes mem (regionRun f o mem) :=
  writesIn_writeBytes (List.mem_singleton.mpr rfl) (by simp [Operands.dstRegion]) mem

/-- RMUL, RMULACC and RXOR alike. -/
theorem Ends.of_regionFinish {f : Byte → Byte → Byte} {t : State} (hi : i ≠ .config)
    (hfp : s.footprint i = (regionCheck s.memBytes s.operands).footprint fun _ => regionFootprint s.operands)
    (h : (s.finish (regionCheck s.memBytes s.operands) fun _ => (s.regionCommit f).complete .none) = .next t) :
    Ends i s t := by
  refine .of_finish h hi (regionCheck_failsWith _ _) (by decide) hfp fun _ _ hjob => ?_
  have hmem := writesIn_regionRun f s.operands s.dmem
  unfold State.regionCommit
  split
  · exact .ran (result := s.result) (draws := 0) (.inl rfl) (fun _ => rfl) (absurd · hi) (hjob ▸ hmem)
  · exact .of_commit hi (.inl rfl) hjob hmem (List.nil_subset _)

theorem writesIn_rowJob (job : RowJob) (tables : List Region) (len : Nat) (mem : Memory) :
    WritesIn (job.footprint tables len).writes mem (applyRow mem job.coefs job.srcs job.dst len) := by
  refine writesIn_applyRow (fun hzero => ?_) _ _
  rw [job.footprint_writes, hzero]
  exact List.mem_singleton.mpr rfl

/-- LINCOMB and LINCOMB.ID alike. -/
theorem Ends.of_rowFinish {checked : Checked RowJob} {codes : List ErrCode} {tables : List Region} {t : State}
    (hi : i ≠ .config) (hcheck : checked.FailsWith codes) (hcodes : .none ∉ codes)
    (hfp : s.footprint i = checked.footprint fun job => job.footprint tables s.operands.len)
    (h : (s.finish checked fun job => (s.commit (job.footprint tables s.operands.len)
      (applyRow s.dmem job.coefs job.srcs job.dst s.operands.len) []).complete .none) = .next t) : Ends i s t :=
  .of_finish h hi hcheck hcodes hfp fun job _ hjob =>
    .of_commit hi (.inl rfl) hjob (writesIn_rowJob job tables _ _) (List.nil_subset _)

end

/-! ### CONFIG and MATINV -/

/-- CONFIG latches a legal coder (41_coder.md R143; 10_state.md R52). -/
theorem legal_of_configCheck_ok {memBytes : Nat} {o : Operands} (h : configCheck memBytes o = .ok ()) :
    ({ valid := true, k := o.params.k, m := o.params.m, ws := o.params.wsBase } : Coder).Legal memBytes := by
  intro _
  unfold configCheck at h
  dsimp only at h
  split_ifs at h with hsizes hrange
  rw [not_or, Nat.not_lt] at hsizes
  exact ⟨Nat.one_le_iff_ne_zero.mpr hsizes.1, hsizes.2, by simpa using hrange⟩

theorem exec_config_ends {s t : State} (h : exec .config s = .next t) : Ends .config s t := by
  have hcheck := configCheck_failsWith s.memBytes s.operands
  have hfp : s.footprint .config = (configCheck s.memBytes s.operands).footprint fun _ => configFootprint s.operands := rfl
  cases hres : configCheck s.memBytes s.operands with
  | fail code readBefore =>
    cases (exec_config_of_fail hres).symm.trans h
    rw [hres] at hfp
    refine .refused (fun hnone => ?_) (congrArg Footprint.writes hfp)
    have hmem := hcheck code readBefore hres
    rw [hnone] at hmem
    exact absurd hmem (by decide)
  | ok =>
    cases (exec_config_of_ok hres).symm.trans h
    rw [hres, Checked.footprint_ok] at hfp
    refine .ran (result := s.result) (draws := 0) (.inl rfl) (absurd rfl) (fun _ => legal_of_configCheck_ok hres) ?_
    rw [hfp]
    exact writesIn_writeBytes (List.mem_singleton.mpr rfl) (length_flatten_cauchyMatrix _ _).le _

theorem writesIn_matinvMemory {o : Operands} {inv : Matrix} (hinv : IsSquareMatrix o.matDim inv) (mem : Memory) :
    WritesIn (matinvFootprint o).writes mem (matinvMemory o inv mem) := by
  have hsrc := writesIn_writeBytes (rs := (matinvFootprint o).writes) (List.mem_cons_self ..)
    (isSquareMatrix_identityMatrix o.matDim).length_flatten.le mem
  exact hsrc.trans (writesIn_writeBytes (List.mem_cons_of_mem _ (List.mem_cons_self ..)) hinv.length_flatten.le _)

theorem exec_matinv_ends {s t : State} (h : exec .matinv s = .next t) : Ends .matinv s t := by
  refine .of_finish (fp := fun _ => matinvFootprint s.operands) h (by decide) (matinvCheck_failsWith _ _) (by decide) rfl
    fun _ _ hjob => ?_
  split
  · exact .ran (result := s.result) (draws := drawCount _) (.inr ⟨rfl, by decide, rfl⟩) (fun _ => rfl) nofun
      (hjob ▸ writesIn_fillAny (List.Subset.refl _) _ _)
  · rename_i inv hinvert
    have hinv := isSquareMatrix_of_invertMatrix_eq_some (isSquareMatrix_readMatrix _ _ _) hinvert
    exact .of_commit (by decide) (.inl rfl) hjob (writesIn_matinvMemory hinv _) (List.nil_subset _)

/-! ### ENCODE and DECODE -/

/-- Cauchy rows stay in the shards that are written for them (44_codec.md R170, R177). -/
theorem writesIn_applyCauchyRows {o : Operands} {launch : Memory} {rows : List Nat} {rs : List Region}
    (hrs : ∀ i ∈ rows, allZero (o.cauchyRowAt launch i) = false → o.shardRegion launch (o.ck + i) ∈ rs) (mem : Memory) :
    WritesIn rs mem (o.applyCauchyRows launch mem rows) :=
  writesIn_foldl (fun i hi _ => writesIn_applyRow (hrs i hi) _ _) mem

theorem writesIn_encode (o : Operands) (mem : Memory) :
    WritesIn (encodeFootprint o mem).writes mem (o.applyCauchyRows mem mem (List.range o.cm)) := by
  refine writesIn_applyCauchyRows (fun i hi hzero => ?_) mem
  refine List.mem_map_of_mem (f := fun i => o.shardRegion mem (o.ck + i)) (List.mem_filter.mpr ⟨hi, ?_⟩)
  rw [hzero, Bool.not_false]

section
variable {o : Operands} (mem : Memory)

/-- The regions of the erased shards. -/
def Operands.erasedRegions (o : Operands) (mem : Memory) : List Region := o.erasedShards.map (o.shardRegion mem)

theorem Operands.shardRegion_mem_erasedRegions {sh : Nat} (hsh : sh < o.ck + o.cm) (herased : o.params.erased sh = true) :
    o.shardRegion mem sh ∈ o.erasedRegions mem :=
  List.mem_map_of_mem (List.mem_filter.mpr ⟨List.mem_range.mpr hsh, herased⟩)

theorem Operands.erasedRegions_subset (o : Operands) (mem : Memory) : o.erasedRegions mem ⊆ decodeWrites o mem :=
  List.subset_append_left _ _

theorem Operands.erasedShard_mem_decodeWrites {sh : Nat} (hsh : sh < o.ck + o.cm) (herased : o.params.erased sh = true) :
    o.shardRegion mem sh ∈ decodeWrites o mem :=
  o.erasedRegions_subset mem (Operands.shardRegion_mem_erasedRegions mem hsh herased)

theorem Operands.mem_erasedCoding_iff {i : Nat} : i ∈ o.erasedCoding ↔ i < o.cm ∧ o.params.erased (o.ck + i) = true := by
  simp [Operands.erasedCoding]

theorem Operands.mem_erasedData_iff {i : Nat} : i ∈ o.erasedData ↔ i < o.ck ∧ o.params.erased i = true := by
  simp [Operands.erasedData]

/-- The three scratch regions of DECODE (41_coder.md R141). -/
def Operands.scratchRegions (o : Operands) : List Region := [o.tmpmatRegion, o.dmIdsRegion, o.decodingRegion]

theorem Operands.scratchRegions_subset (hdata : o.erasedData.isEmpty = false) :
    o.scratchRegions ⊆ decodeWrites o mem := by
  intro r hr
  rw [decodeWrites, hdata]
  exact List.mem_append_right _ hr

theorem writesIn_erasedCoding (launch : Memory) :
    WritesIn (o.erasedRegions launch) mem (o.applyCauchyRows launch mem o.erasedCoding) := by
  refine writesIn_applyCauchyRows (fun i hi _ => ?_) mem
  obtain ⟨hi, herased⟩ := Operands.mem_erasedCoding_iff.mp hi
  exact Operands.shardRegion_mem_erasedRegions launch (by omega) herased

theorem writesIn_recoverData (launch : Memory) (d : Matrix) :
    WritesIn (o.erasedRegions launch) mem (o.recoverData launch d mem) := by
  refine writesIn_foldl (fun i hi mem => writesIn_applyRow (fun _ => ?_) mem _) mem
  obtain ⟨hi, herased⟩ := Operands.mem_erasedData_iff.mp hi
  exact Operands.shardRegion_mem_erasedRegions launch (by omega) herased

theorem writesIn_writeIds : WritesIn o.scratchRegions mem (o.writeIds mem) :=
  writesIn_writeBytes (r := o.dmIdsRegion) (by simp [Operands.scratchRegions])
    ((List.length_map _).trans_le o.length_survivors_le) mem

theorem writesIn_writeScratch {d : Matrix} (hd : IsSquareMatrix o.ck d) :
    WritesIn o.scratchRegions mem (o.writeScratch d mem) := by
  have htmpmat := writesIn_writeBytes (rs := o.scratchRegions) (r := o.tmpmatRegion) (by simp [Operands.scratchRegions])
    (isSquareMatrix_identityMatrix o.ck).length_flatten.le
  have hdecoding := writesIn_writeBytes (rs := o.scratchRegions) (r := o.decodingRegion) (by simp [Operands.scratchRegions])
    hd.length_flatten.le
  exact ((writesIn_writeIds mem).trans (htmpmat _)).trans (hdecoding _)

end

theorem writesIn_decodeMemory {o : Operands} {d : Matrix} (hd : IsSquareMatrix o.ck d)
    (hdata : o.erasedData.isEmpty = false) (launch mem : Memory) :
    WritesIn (decodeWrites o launch) mem (o.decodeMemory d launch mem) := by
  have hscratch := (writesIn_writeScratch mem hd).mono (Operands.scratchRegions_subset launch hdata)
  have hshards := (writesIn_recoverData (o := o) (o.writeScratch d mem) launch d).trans
    (writesIn_erasedCoding (o := o) _ launch)
  exact hscratch.trans (hshards.mono (o.erasedRegions_subset launch))

theorem exec_decode_ends {s t : State} (h : exec .decode s = .next t) : Ends .decode s t := by
  refine .of_finish (fp := fun _ => decodeFootprint s.operands s.dmem) h (by decide) (decodeCheck_failsWith _ _ _)
    (by decide) rfl fun _ hok hjob => ?_
  split
  · exact .of_commit (by decide) (.inl rfl) hjob
      ((writesIn_erasedCoding _ _).mono (s.operands.erasedRegions_subset _)) (List.nil_subset _)
  · rename_i hdata
    have hdata : s.operands.erasedData.isEmpty = false := Bool.eq_false_iff.mpr hdata
    have hscratch := Operands.scratchRegions_subset s.dmem hdata
    split
    · refine .of_commit (by decide) (.inr rfl) hjob ((writesIn_writeIds _).mono hscratch) ?_
      exact List.Subset.trans (by simp [Operands.scratchRegions]) hscratch
    · rename_i d hinvert
      obtain ⟨-, herasures, -⟩ := s.decodeRuns_iff.mpr hok
      have hd := isSquareMatrix_of_invertMatrix_eq_some (Operands.isSquareMatrix_tmat herasures s.dmem) hinvert
      exact .of_commit (by decide) (.inl rfl) hjob (writesIn_decodeMemory hd hdata _ _) (List.nil_subset _)

/-! ### All commands -/

theorem exec_gfinv_ends {s t : State} (h : exec .gfinv s = .next t) : Ends .gfinv s t := by
  by_cases hopa : s.operands.params.opa = 0#8
  · cases (exec_gfinv_of_eq_zero hopa).symm.trans h
    exact .refused (code := .invZero) (by decide) rfl
  · cases (exec_gfinv_of_ne_zero hopa).symm.trans h
    exact .ran (draws := 0) (.inl rfl) (fun _ => rfl) nofun .refl

/-- Every command ends refused or having run. -/
theorem exec_ends {i : Instr} {s t : State} (h : exec i s = .next t) : Ends i s t := by
  cases i with
  | gfmul =>
    cases (exec_gfmul s).symm.trans h
    exact .ran (draws := 0) (.inl rfl) (fun _ => rfl) nofun .refl
  | gfinv => exact exec_gfinv_ends h
  | rmul => exact .of_regionFinish (by decide) rfl h
  | rmulacc => exact .of_regionFinish (by decide) rfl h
  | rxor => exact .of_regionFinish (by decide) rfl h
  | config => exact exec_config_ends h
  | matinv => exact exec_matinv_ends h
  | lincomb => exact .of_rowFinish (by decide) (lincombCheck_failsWith _ _ _) (by decide) rfl h
  | lincombId => exact .of_rowFinish (by decide) (lincombIdCheck_failsWith _ _ _) (by decide) rfl h
  | encode =>
    exact .of_finish (fp := fun _ => encodeFootprint s.operands s.dmem) h (by decide) (encodeCheck_failsWith _ _ _)
      (by decide) rfl fun _ _ hjob =>
        .of_commit (by decide) (.inl rfl) hjob (writesIn_encode _ _) (List.nil_subset _)
  | decode => exact exec_decode_ends h

/-! ### What no command touches, and what a failing command leaves -/

theorem Ends.writesIn {i : Instr} {s t : State} (h : Ends i s t) : WritesIn (s.footprint i).writes s.dmem t.dmem := by
  cases h with
  | refused => exact .refl
  | ran _ _ _ hmem => exact hmem

/-- Settles O34: a command's DMEM is that before it, with bytes of FP.W written. -/
theorem noCommandWritesOutsideItsFootprint : Obligations.NoCommandWritesOutsideItsFootprint := by
  unfold Obligations.NoCommandWritesOutsideItsFootprint
  exact fun i s t h => (exec_ends h).writesIn.sameOutside

/-- Settles O35: neither end of a command touches these fields, and only CONFIG another coder. -/
theorem commandsKeepParametersAndControl : Obligations.CommandsKeepParametersAndControl := by
  unfold Obligations.CommandsKeepParametersAndControl
  intro i s t h
  cases exec_ends h with
  | refused => exact ⟨rfl, rfl, rfl, rfl, rfl, rfl, rfl, rfl, rfl, rfl, rfl, fun hi => if_neg hi⟩
  | ran _ hcoder => exact ⟨rfl, rfl, rfl, rfl, rfl, rfl, rfl, rfl, rfl, rfl, rfl, hcoder⟩

/-- Settles O37: a command that fails was refused, or is one that found its matrix singular. -/
theorem failedCommandsChangeOnlyStatus : Obligations.FailedCommandsChangeOnlyStatus := by
  unfold Obligations.FailedCommandsChangeOnlyStatus
  intro i s t h herr
  cases exec_ends h with
  | refused =>
    by_cases hi : i = .config
    · simp [hi]
    · simp [hi]
  | ran hcode hcoder =>
    obtain rfl | ⟨rfl, hi, rfl⟩ := hcode
    · exact absurd herr Bool.false_ne_true
    · obtain rfl := hcoder hi
      exact ⟨rfl, rfl, rfl, rfl, rfl, rfl, rfl, (if_neg hi).symm, absurd rfl⟩

/-- Settles O39: such a command was refused. -/
theorem failingCommandsHaveAnEmptyWriteFootprint : Obligations.FailingCommandsHaveAnEmptyWriteFootprint := by
  unfold Obligations.FailingCommandsHaveAnEmptyWriteFootprint
  intro i s t h herr hcode
  cases exec_ends h with
  | refused _ hwrites => exact hwrites
  | ran hran =>
    obtain rfl | ⟨rfl, -, -⟩ := hran
    · exact absurd herr Bool.false_ne_true
    · exact absurd rfl hcode

end Sys2Proof.Machine
end

section
/-! PROOF. One step of the machine, said once: whose turn it is, and what a register write and an engine turn can do. -/

namespace Sys2Proof.Machine

/-! ### Steps -/

theorem step_of_race {s : State} (h : s.hostRace = true) : step s = .fault .hostRace :=
  if_pos h

theorem step_of_no_race {s : State} (h : s.hostRace = false) : step s = s.nextTurn := by
  rw [step, h]
  rfl

theorem State.nextTurn_of_empty {s : State} (h : s.schedule = []) : s.nextTurn = s.engineTurn := by
  rw [State.nextTurn, h]

theorem State.nextTurn_of_engine {s : State} {rest : List Turn} (h : s.schedule = .engine :: rest) :
    s.nextTurn = { s with schedule := rest }.engineTurn := by
  rw [State.nextTurn, h]

theorem State.nextTurn_of_host {s : State} {op : HostOp} {rest : List Turn} (h : s.schedule = .host op :: rest) :
    s.nextTurn = { s with schedule := rest }.hostTurn op := by
  rw [State.nextTurn, h]

theorem no_race_of_step {s t : State} (h : step s = .next t) : s.hostRace = false :=
  Bool.eq_false_iff.mpr fun hrace => nomatch (step_of_race hrace).symm.trans h

/-- A step is a turn of the engine or of the host, and the turn leaves the schedule. -/
inductive StepTurn (s t : State) : Prop
  | engine (h : { s with schedule := s.schedule.tail }.engineTurn = .next t)
  | host {op : HostOp} {rest : List Turn} (hturns : s.schedule = .host op :: rest)
      (h : { s with schedule := rest }.hostTurn op = .next t)

theorem step_turn {s t : State} (h : step s = .next t) : StepTurn s t := by
  rw [step_of_no_race (no_race_of_step h)] at h
  cases hturns : s.schedule with
  | nil =>
    rw [State.nextTurn_of_empty hturns, show s = { s with schedule := s.schedule.tail } by rw [hturns, List.tail_nil, ← hturns]] at h
    exact .engine h
  | cons turn rest =>
    cases turn with
    | engine =>
      rw [State.nextTurn_of_engine hturns] at h
      exact .engine (by rwa [hturns])
    | host op =>
      rw [State.nextTurn_of_host hturns] at h
      exact .host hturns h

/-! ### The engine's turn -/

theorem State.engineTurn_of_idle {s : State} (h : s.running = none) : s.engineTurn = .next s := by
  simp [State.engineTurn, h]

theorem State.engineTurn_of_reset {s : State} (h : s.rstLow = true) : s.engineTurn = .next s :=
  if_pos h

theorem State.engineTurn_of_instr {s : State} {r : Running} {i : Instr} (hrst : s.rstLow = false)
    (hr : s.running = some r) (hi : decode r.snap.word = .instr i) : s.engineTurn = exec i s := by
  simp [State.engineTurn, hrst, hr, hi]

/-- The engine does nothing, in reset or while IDLE, or the running command ends. -/
inductive EngineEnds (s : State) : State → Prop
  | still (h : s.rstLow = true ∨ s.running = none) : EngineEnds s s
  | command {i : Instr} {t : State} (h : Ends i s t) : EngineEnds s t
  | illegal : EngineEnds s (s.complete .badCmd)

theorem State.engineTurn_ends {s t : State} (h : s.engineTurn = .next t) : EngineEnds s t := by
  cases hrst : s.rstLow with
  | true =>
    cases (State.engineTurn_of_reset hrst).symm.trans h
    exact .still (.inl hrst)
  | false =>
    cases hr : s.running with
    | none =>
      cases (State.engineTurn_of_idle hr).symm.trans h
      exact .still (.inr hr)
    | some r =>
      cases hi : decode r.snap.word with
      | instr i => exact .command (exec_ends ((State.engineTurn_of_instr hrst hr hi).symm.trans h))
      | rejected why =>
        have hillegal : ∀ i, decode r.snap.word ≠ .instr i := fun i heq => nomatch hi.symm.trans heq
        cases (State.engineTurn_of_illegal hrst hr hillegal).symm.trans h
        exact .illegal

/-- Settles O4: the engine's turn on the running command, with the turn taken off the schedule if there was one. -/
theorem stepRunsTheDecodedCommand : Obligations.StepRunsTheDecodedCommand := by
  unfold Obligations.StepRunsTheDecodedCommand
  intro s r i hrace hrst hr hi
  refine ⟨fun hempty => ?_, fun rest hturns => ?_⟩
  · rw [step_of_no_race hrace, State.nextTurn_of_empty hempty, State.engineTurn_of_instr hrst hr hi]
  · rw [step_of_no_race hrace, State.nextTurn_of_engine hturns]
    exact State.engineTurn_of_instr (s := { s with schedule := rest }) hrst hr hi

/-- Settles O5: a host turn is its operation, and an idle engine moves without effect. -/
theorem stepTakesTheScheduledHostOperation : Obligations.StepTakesTheScheduledHostOperation := by
  unfold Obligations.StepTakesTheScheduledHostOperation
  refine ⟨fun s op rest hrace hturns => ?_, fun s hrace hidle hempty => ?_⟩
  · rw [step_of_no_race hrace, State.nextTurn_of_host hturns]
  · rw [step_of_no_race hrace, State.nextTurn_of_empty hempty, State.engineTurn_of_idle hidle]

/-! ### Register writes -/

/-- What a host write of v to a register can do: parameters (the same ones, for a read-only register), IRQ_EN, STATUS bits, or
a CMD write, which launches while IDLE and is dropped while BUSY (10_state.md R22-R49). -/
inductive RegisterWrite (s : State) (v : Word) : State → Prop
  | params (p : Params) : RegisterWrite s v (s.setParams p)
  | control : RegisterWrite s v { s with irqEn := v.getLsbD 0 }
  | status : RegisterWrite s v { s with status := s.status.clearOnes v }
  | launch (h : s.running = none) : RegisterWrite s v (s.launch v)
  | dropped (h : s.busy = true) : RegisterWrite s v { s with status := { s.status with overrun := true } }

theorem State.writeReg_cases (s : State) (r : Reg) (v : Word) : RegisterWrite s v (s.writeReg r v) := by
  cases r with
  | cmd =>
    cases hr : s.running with
    | none => rw [State.writeReg_cmd_of_idle v hr]; exact .launch hr
    | some r =>
      have hbusy : s.busy = true := by rw [State.busy, hr, Option.isSome_some]
      rw [State.writeReg_cmd_of_busy v hbusy]
      exact .dropped hbusy
  | ctrl => exact .control
  | status => exact .status
  | id | wsSize | result | coderK | coderM | coderWs => exact .params s.params
  | _ => exact .params _

theorem State.writeOffset_cases (s : State) (offset : BitVec 12) (v : Word) :
    RegisterWrite s v (s.writeOffset offset v) := by
  cases hreg : registerAt offset with
  | none => rw [s.writeOffset_of_none v hreg]; exact .params s.params
  | some r => rw [s.writeOffset_of_some v hreg]; exact s.writeReg_cases r v

/-- Settles O46: the CMD write is a launch, which takes the registers as they are. -/
theorem cmdWriteWhileIdleLaunches : Obligations.CmdWriteWhileIdleLaunches := by
  unfold Obligations.CmdWriteWhileIdleLaunches
  intro s w hidle
  rw [State.writeReg_cmd_of_idle w hidle]
  exact ⟨rfl, rfl, rfl⟩

/-- A host register write while rst_n is low does nothing, else it is one through the port (70_reset_and_hazards.md R220). -/
theorem State.hostTurn_regWrite_cases {s t : State} {offset : BitVec 12} {v : Word}
    (h : s.hostTurn (.regWrite offset v) = .next t) :
    t = s ∧ s.rstLow = true ∨ s.rstLow = false ∧ RegisterWrite s v t := by
  cases hrst : s.rstLow with
  | true =>
    simp only [State.hostTurn, hrst, if_true] at h
    cases h
    exact .inl ⟨rfl, rfl⟩
  | false =>
    cases (s.hostTurn_regWrite offset v hrst).symm.trans h
    exact .inr ⟨rfl, s.writeOffset_cases offset v⟩

end Sys2Proof.Machine
end

section
/-! PROOF. The invariant (10_state.md R26, R52; 20_memory.md R73): the footprint of every command with a legal coder lies in
populated DMEM, so what a command or a reset writes does too, and every turn keeps the invariant. -/

namespace Sys2Proof.Machine

/-! ### Regions in populated DMEM -/

section
variable {memBytes : Nat} {rs qs : List Region}

@[simp] theorem regionsInRange_nil (memBytes : Nat) : RegionsInRange memBytes [] := nofun

@[simp] theorem regionsInRange_cons (memBytes : Nat) (r : Region) (rs : List Region) :
    RegionsInRange memBytes (r :: rs) ↔ inRange memBytes r.base r.len = true ∧ RegionsInRange memBytes rs :=
  List.forall_mem_cons

@[simp] theorem regionsInRange_append (memBytes : Nat) (rs qs : List Region) :
    RegionsInRange memBytes (rs ++ qs) ↔ RegionsInRange memBytes rs ∧ RegionsInRange memBytes qs :=
  List.forall_mem_append

theorem regionsInRange_map {α : Type} {f : α → Region} {xs : List α} :
    RegionsInRange memBytes (xs.map f) ↔ ∀ x ∈ xs, inRange memBytes (f x).base (f x).len = true :=
  List.forall_mem_map

/-- A byte of such a region is populated. -/
theorem RegionsInRange.lt (h : RegionsInRange memBytes rs) {a : Nat} (ha : inRegions rs a = true) : a < memBytes := by
  obtain ⟨r, hr, hcontains⟩ := List.any_eq_true.mp ha
  obtain ⟨hlo, hhi⟩ := (r.contains_iff a).mp hcontains
  have := (inRange_iff ..).mp (h r hr)
  omega

/-- DMEM in canonical form, populated below MEM_BYTES (log 2; 20_memory.md R73). -/
def Memory.Legal (memBytes : Nat) (mem : Memory) : Prop := mem.wf = true ∧ ∀ c ∈ mem, c.1 < memBytes

theorem WritesIn.legal {before after : Memory} (h : WritesIn rs before after) (hrs : RegionsInRange memBytes rs)
    (hbefore : before.Legal memBytes) : after.Legal memBytes := by
  obtain ⟨hwf, hlt⟩ := hbefore
  exact ⟨h.wf hwf, fun c hc => (h.mem_cases hc).elim hrs.lt (hlt c)⟩

/-- Both parts of the footprint lie in populated DMEM. -/
def Footprint.InRange (memBytes : Nat) (fp : Footprint) : Prop := RegionsInRange memBytes (fp.reads ++ fp.writes)

theorem Footprint.inRange_iff {fp : Footprint} :
    fp.InRange memBytes ↔ RegionsInRange memBytes fp.reads ∧ RegionsInRange memBytes fp.writes :=
  regionsInRange_append ..

theorem Footprint.inRange_empty (memBytes : Nat) : Footprint.empty.InRange memBytes := nofun

/-- With checks: the control data read before a failing one, and what a command does past them, in range. -/
theorem Checked.footprint_inRange {α : Type} {checked : Checked α} {fp : α → Footprint}
    (hfail : ∀ code readBefore, checked = .fail code readBefore → RegionsInRange memBytes readBefore)
    (hok : ∀ job, checked = .ok job → (fp job).InRange memBytes) : (checked.footprint fp).InRange memBytes := by
  cases checked with
  | fail code readBefore => exact Footprint.inRange_iff.mpr ⟨hfail code readBefore rfl, regionsInRange_nil _⟩
  | ok job => exact hok job rfl

end

/-! ### The footprint of each command (20_memory.md R73) -/

theorem regionCheck_inRange (memBytes : Nat) (o : Operands) :
    ((regionCheck memBytes o).footprint fun _ => regionFootprint o).InRange memBytes := by
  unfold regionCheck
  split_ifs with hsrc hdst
  · exact Footprint.inRange_empty _
  · exact Footprint.inRange_empty _
  · simp only [Bool.not_eq_true', Bool.not_eq_false] at hsrc hdst
    exact Footprint.inRange_iff.mpr ⟨(regionsInRange_cons ..).mpr ⟨hsrc, regionsInRange_nil _⟩,
      (regionsInRange_cons ..).mpr ⟨hdst, regionsInRange_nil _⟩⟩

theorem matinvCheck_inRange (memBytes : Nat) (o : Operands) :
    ((matinvCheck memBytes o).footprint fun _ => matinvFootprint o).InRange memBytes := by
  unfold matinvCheck
  dsimp only
  split_ifs with hdim hsrc hdst
  · exact Footprint.inRange_empty _
  · exact Footprint.inRange_empty _
  · exact Footprint.inRange_empty _
  · simp only [Bool.not_eq_true', Bool.not_eq_false] at hsrc hdst
    simp [Footprint.InRange, matinvFootprint, hsrc, hdst]

/-- The workspace of a legal coder lies in DMEM (10_state.md R52). -/
theorem Coder.Legal.workspace_le {c : Coder} {memBytes : Nat} (h : c.Legal memBytes) (hvalid : c.valid = true) :
    c.ws.toNat + (2 * c.k.toNat ^ 2 + 2 * c.k.toNat + c.k.toNat * c.m.toNat) ≤ memBytes := by
  obtain ⟨hpos, hsizes, hrange⟩ := h hvalid
  rw [stateSize, if_neg (Nat.not_lt.mpr hsizes)] at hrange
  exact ((Machine.inRange_iff ..).mp hrange).resolve_left (by omega)

theorem configCheck_inRange (memBytes : Nat) (o : Operands) :
    ((configCheck memBytes o).footprint fun _ => configFootprint o).InRange memBytes := by
  refine Checked.footprint_inRange (fun code readBefore hfail => ?_) fun _ hok => ?_
  · have hnone : readBefore = [] := by
      unfold configCheck at hfail
      dsimp only at hfail
      split_ifs at hfail <;> cases hfail <;> rfl
    rw [hnone]
    exact regionsInRange_nil _
  · have hle := (legal_of_configCheck_ok hok).workspace_le rfl
    refine Footprint.inRange_iff.mpr ⟨regionsInRange_nil _, ?_⟩
    simp only [configFootprint, regionsInRange_cons, Machine.inRange_iff, configCauchyBase, cauchyOffset]
    exact ⟨.inr (by dsimp only at hle; omega), regionsInRange_nil _⟩

section
variable {memBytes : Nat}

theorem RowJob.footprint_inRange {job : RowJob} {tables : List Region} {len : Nat} (htables : RegionsInRange memBytes tables)
    (hdst : inRange memBytes job.dst len = true) (hsrcs : ∀ a ∈ job.srcs, inRange memBytes a len = true) :
    (job.footprint tables len).InRange memBytes := by
  refine Footprint.inRange_iff.mpr ⟨(regionsInRange_append ..).mpr ⟨htables, regionsInRange_map.mpr fun cs hcs => ?_⟩, ?_⟩
  · exact hsrcs _ (List.of_mem_zip (List.mem_filter.mp hcs).1).2
  · rw [job.footprint_writes]
    split
    · exact regionsInRange_nil _
    · exact (regionsInRange_cons ..).mpr ⟨hdst, regionsInRange_nil _⟩

theorem Operands.rowJob_inRange {o : Operands} {mem : Memory} {ids : List Nat} {tables : List Region}
    (htables : RegionsInRange memBytes tables) (hdst : o.shardInRange memBytes mem o.dest = true)
    (hsrcs : ids.all (o.shardInRange memBytes mem) = true) :
    ((o.rowJob mem ids).footprint tables o.len).InRange memBytes :=
  RowJob.footprint_inRange htables hdst (List.forall_mem_map.mpr (List.all_eq_true.mp hsrcs))

theorem lincombCheck_inRange (memBytes : Nat) (o : Operands) (mem : Memory) :
    ((lincombCheck memBytes o mem).footprint (lincombFootprint o)).InRange memBytes := by
  unfold lincombCheck
  split_ifs with hvalid hdest hcoef hids htable hnamed hdst hsrcs <;>
    simp only [Bool.not_eq_true', Bool.not_eq_false] at *
  · exact Footprint.inRange_empty _
  · exact Footprint.inRange_empty _
  · exact Footprint.inRange_empty _
  · exact Footprint.inRange_empty _
  · exact Footprint.inRange_empty _
  · exact (regionsInRange_cons ..).mpr ⟨hids, regionsInRange_nil _⟩
  all_goals
    have htables : RegionsInRange memBytes [o.coefRegion, o.idsRegion, o.tableRegion] := by
      simpa using ⟨hcoef, hids, htable⟩
  · simpa only [Footprint.InRange, Checked.footprint_fail, List.append_nil]
  · simpa only [Footprint.InRange, Checked.footprint_fail, List.append_nil]
  · exact Operands.rowJob_inRange htables hdst hsrcs

theorem lincombIdCheck_inRange (memBytes : Nat) (o : Operands) (mem : Memory) :
    ((lincombIdCheck memBytes o mem).footprint (lincombIdFootprint o)).InRange memBytes := by
  unfold lincombIdCheck
  split_ifs with hvalid hdest hcoef htable hdst hsrcs <;>
    simp only [Bool.not_eq_true', Bool.not_eq_false] at *
  · exact Footprint.inRange_empty _
  · exact Footprint.inRange_empty _
  · exact Footprint.inRange_empty _
  · exact Footprint.inRange_empty _
  all_goals
    have htables : RegionsInRange memBytes [o.coefRegion, o.tableRegion] := by
      simpa using ⟨hcoef, htable⟩
  · simpa only [Footprint.InRange, Checked.footprint_fail, List.append_nil]
  · simpa only [Footprint.InRange, Checked.footprint_fail, List.append_nil]
  · exact Operands.rowJob_inRange htables hdst hsrcs

end

/-! ### The workspace and the shards of ENCODE and DECODE -/

section
variable {s : State}

theorem State.shardsCheck_reads_inRange {code : ErrCode} {readBefore : List Region}
    (h : shardsCheck s.memBytes s.operands s.dmem = .fail code readBefore) : RegionsInRange s.memBytes readBefore := by
  unfold shardsCheck at h
  split_ifs at h with htable
  · cases h
    exact regionsInRange_nil _
  · cases h
    simpa using htable

theorem State.ShardsFit.table (h : s.ShardsFit) :
    inRange s.memBytes s.operands.tableRegion.base s.operands.tableRegion.len = true :=
  (s.shardsFit_iff.mp h).1

theorem State.ShardsFit.shard (h : s.ShardsFit) {sh : Nat} (hsh : sh < s.operands.ck + s.operands.cm) :
    inRange s.memBytes (s.operands.shardRegion s.dmem sh).base (s.operands.shardRegion s.dmem sh).len = true :=
  (s.shardFits_iff sh).mp (h.2 sh hsh)

variable (hlegal : s.operands.coder.Legal s.memBytes)
include hlegal

theorem State.workspace_le (hvalid : s.operands.coder.valid = true) :
    s.operands.coder.ws.toNat + (2 * s.operands.ck ^ 2 + 2 * s.operands.ck + s.operands.ck * s.operands.cm) ≤ s.memBytes :=
  hlegal.workspace_le hvalid

theorem State.cauchyRegion_inRange (hvalid : s.operands.coder.valid = true) :
    inRange s.memBytes s.operands.cauchyRegion.base s.operands.cauchyRegion.len = true := by
  have hle := State.workspace_le hlegal hvalid
  refine (inRange_iff ..).mpr (.inr ?_)
  simp only [Operands.cauchyRegion, Operands.cauchyBase, cauchyOffset]
  omega

theorem State.scratchRegions_inRange (hvalid : s.operands.coder.valid = true) :
    RegionsInRange s.memBytes s.operands.scratchRegions := by
  have hle := State.workspace_le hlegal hvalid
  simp only [Operands.scratchRegions, regionsInRange_cons, inRange_iff, Operands.tmpmatRegion, Operands.dmIdsRegion,
    Operands.decodingRegion, Operands.tmpmatBase, Operands.dmIdsBase, Operands.decodingBase, ← pow_two]
  exact ⟨.inr (by omega), .inr (by omega), .inr (by omega), regionsInRange_nil _⟩

theorem State.encodeCheck_inRange : ((encodeCheck s.memBytes s.operands s.dmem).footprint fun _ =>
    encodeFootprint s.operands s.dmem).InRange s.memBytes := by
  cases hvalid : s.operands.coder.valid with
  | false => rw [encodeCheck_of_invalid hvalid]; exact Footprint.inRange_empty _
  | true =>
    rw [encodeCheck_of_valid hvalid]
    refine Checked.footprint_inRange (fun _ _ => State.shardsCheck_reads_inRange) fun _ hok => ?_
    have hfit := (shardsCheck_ok_iff s).mp hok
    refine Footprint.inRange_iff.mpr ⟨(regionsInRange_cons ..).mpr ⟨hfit.table, (regionsInRange_cons ..).mpr
      ⟨State.cauchyRegion_inRange hlegal hvalid, regionsInRange_map.mpr fun j hj => hfit.shard ?_⟩⟩,
      regionsInRange_map.mpr fun i hi => hfit.shard ?_⟩
    · exact (List.mem_range.mp hj).trans_le (Nat.le_add_right _ _)
    · exact Nat.add_lt_add_left (List.mem_range.mp (List.mem_filter.mp hi).1) _

theorem State.decodeWrites_inRange (hvalid : s.operands.coder.valid = true) (hfit : s.ShardsFit) :
    RegionsInRange s.memBytes (decodeWrites s.operands s.dmem) := by
  refine (regionsInRange_append ..).mpr ⟨regionsInRange_map.mpr fun sh hsh => hfit.shard ?_, ?_⟩
  · exact List.mem_range.mp (List.mem_filter.mp hsh).1
  · split
    · exact regionsInRange_nil _
    · exact State.scratchRegions_inRange hlegal hvalid

theorem State.decodeCheck_inRange : ((decodeCheck s.memBytes s.operands s.dmem).footprint fun _ =>
    decodeFootprint s.operands s.dmem).InRange s.memBytes := by
  refine Checked.footprint_inRange (fun code readBefore hfail => ?_) fun _ hok => ?_
  · unfold decodeCheck at hfail
    split_ifs at hfail
    · cases hfail; exact regionsInRange_nil _
    · cases hfail; exact regionsInRange_nil _
    · exact State.shardsCheck_reads_inRange hfail
  · obtain ⟨hvalid, -, hfit⟩ := s.decodeRuns_iff.mpr hok
    refine Footprint.inRange_iff.mpr ⟨(regionsInRange_cons ..).mpr ⟨hfit.table, (regionsInRange_append ..).mpr ⟨?_,
      regionsInRange_map.mpr fun sh hsh => hfit.shard (List.mem_range.mp (List.mem_filter.mp hsh).1)⟩⟩,
      State.decodeWrites_inRange hlegal hvalid hfit⟩
    split
    · exact (regionsInRange_cons ..).mpr ⟨State.cauchyRegion_inRange hlegal hvalid, regionsInRange_nil _⟩
    · exact regionsInRange_nil _

/-- With a legal coder every command's footprint lies in populated DMEM (20_memory.md R73). -/
theorem State.footprint_inRange (i : Instr) : (s.footprint i).InRange s.memBytes := by
  cases i with
  | gfmul => exact Footprint.inRange_empty _
  | gfinv => exact Footprint.inRange_empty _
  | rmul => exact regionCheck_inRange _ _
  | rmulacc => exact regionCheck_inRange _ _
  | rxor => exact regionCheck_inRange _ _
  | config => exact configCheck_inRange _ _
  | matinv => exact matinvCheck_inRange _ _
  | lincomb => exact lincombCheck_inRange _ _ _
  | lincombId => exact lincombIdCheck_inRange _ _ _
  | encode => exact State.encodeCheck_inRange hlegal
  | decode => exact State.decodeCheck_inRange hlegal

end

/-! ### The engine keeps the invariant -/

theorem Coder.legal_of_invalid {c : Coder} {memBytes : Nat} (h : c.valid = false) : c.Legal memBytes :=
  fun hvalid => absurd (h.symm.trans hvalid) Bool.false_ne_true

section
variable {s : State} (h : s.Inv)
include h

theorem State.Inv.memoryLegal : s.dmem.Legal s.memBytes := ⟨h.dmemCanonical, h.dmemPopulated⟩

/-- The coder that a command takes is legal, running or not. -/
theorem State.Inv.operandsLegal : s.operands.coder.Legal s.memBytes := by
  cases hr : s.running with
  | none => rw [s.operands_of_idle hr]; exact h.coderLegal
  | some r => rw [s.operands_of_running r hr]; exact h.snapshotCoderLegal r hr

theorem State.Inv.footprint_writes (i : Instr) : RegionsInRange s.memBytes (s.footprint i).writes :=
  (Footprint.inRange_iff.mp (State.footprint_inRange h.operandsLegal i)).2

/-- A completion with a legal coder and a legal DMEM. -/
theorem State.Inv.doneWith {result : Byte} {coder : Coder} {mem : Memory} (hcoder : coder.Legal s.memBytes)
    (hmem : mem.Legal s.memBytes) (code : ErrCode) (draws : Nat) :
    ({ s with result := result, coder := coder }.doneWith code mem draws).Inv where
  memBytesLegal := h.memBytesLegal
  dmemCanonical := hmem.1
  dmemPopulated := hmem.2
  coderLegal := hcoder
  errIffCode := by simp
  busyStatus := nofun
  snapshotCoderLegal := nofun
  footprintInRange := nofun
  abortedInRange := h.abortedInRange
  resetIdle := fun _ => rfl
  abortedRecorded := h.abortedRecorded
  abortedInReset := h.abortedInReset

theorem State.Inv.of_ends {i : Instr} {t : State} (hend : Ends i s t) : t.Inv := by
  cases hend with
  | refused =>
    refine h.doneWith (result := s.result) (draws := 0) ?_ h.memoryLegal _
    split
    · exact Coder.legal_of_invalid rfl
    · exact h.coderLegal
  | ran _ hcoder hlegal hmem =>
    refine h.doneWith ?_ (hmem.legal (h.footprint_writes i) h.memoryLegal) _ _
    by_cases hi : i = .config
    · exact hlegal hi
    · rw [hcoder hi]
      exact h.coderLegal

theorem State.Inv.of_engineEnds {t : State} (hend : EngineEnds s t) : t.Inv := by
  cases hend with
  | still => exact h
  | command hend => exact h.of_ends hend
  | illegal => exact h.doneWith (result := s.result) (draws := 0) h.coderLegal h.memoryLegal .badCmd

/-! ### The host keeps the invariant -/

/-- A write of STATUS clears ERR and ERRCODE together, and clears nothing that is clear. -/
theorem State.Inv.clearOnes (v : Word) : State.Inv { s with status := s.status.clearOnes v } where
  __ := h
  errIffCode := by
    have := h.errIffCode
    cases hv : v.getLsbD 2 <;> simp [Status.clearOnes, hv, this, and_comm]
  busyStatus := fun hbusy => by
    obtain ⟨hdone, herr, hcode⟩ := h.busyStatus hbusy
    simp [Status.clearOnes, hdone, herr, hcode]

theorem State.Inv.launch (hidle : s.running = none) (hrst : s.rstLow = false) (w : Word) : (s.launch w).Inv where
  __ := h
  errIffCode := by simp
  busyStatus := fun _ => ⟨rfl, rfl, rfl⟩
  snapshotCoderLegal := by
    rintro _ ⟨⟩
    exact h.coderLegal
  footprintInRange := by
    rintro _ ⟨⟩
    have hrange := State.footprint_inRange h.operandsLegal
    simp only [State.footprint, s.operands_of_idle hidle] at hrange
    unfold wordFootprint
    split
    · exact hrange _
    · exact Footprint.inRange_empty _
  resetIdle := fun hlow => absurd (hrst.symm.trans hlow) Bool.false_ne_true

theorem State.Inv.of_registerWrite {t : State} {v : Word} (hrst : s.rstLow = false) (hwrite : RegisterWrite s v t) :
    t.Inv := by
  cases hwrite with
  | params => exact { h with }
  | control => exact { h with }
  | status => exact h.clearOnes v
  | launch hidle => exact h.launch hidle hrst v
  | dropped => exact { h with }

/-- A DMEM that stays legal. -/
theorem State.Inv.withMemory {mem : Memory} (hmem : mem.Legal s.memBytes) : State.Inv { s with dmem := mem } :=
  { h with dmemCanonical := hmem.1, dmemPopulated := hmem.2 }

theorem State.Inv.hostMemWrite (a : Nat) (v : Byte) : (s.hostMemWrite a v).Inv := by
  obtain ⟨heq, -⟩ | ⟨heq, -⟩ | ⟨heq, hlt, -⟩ := s.hostMemWrite_cases a v <;> rw [heq]
  · exact h
  · exact { h with }
  · refine h.withMemory ⟨Memory.wf_write _ _ _ h.dmemCanonical, fun c hc => ?_⟩
    obtain rfl | hc := Memory.mem_write hc
    · exact hlt
    · exact h.dmemPopulated c hc

theorem State.Inv.hostMemRead (a : Nat) : (s.hostMemRead a).Inv := by
  obtain ⟨heq, -⟩ | ⟨heq, -⟩ := s.hostMemRead_cases a <;> rw [heq]
  · exact { h with }
  · exact { h with }

theorem State.Inv.pendingWrites : RegionsInRange s.memBytes s.pendingWrites := by
  cases hr : s.running with
  | none => rw [s.pendingWrites_of_idle hr]; exact h.abortedInRange
  | some r =>
    rw [s.pendingWrites_of_running r hr, regionsInRange_append]
    exact ⟨((regionsInRange_append ..).mp (h.footprintInRange r hr)).2, h.abortedInRange⟩

theorem State.Inv.assertReset : s.assertReset.Inv where
  memBytesLegal := h.memBytesLegal
  dmemCanonical := h.dmemCanonical
  dmemPopulated := h.dmemPopulated
  coderLegal := Coder.legal_of_invalid rfl
  errIffCode := by rw [State.assertReset_status]; decide
  busyStatus := nofun
  snapshotCoderLegal := nofun
  footprintInRange := nofun
  abortedInRange := h.pendingWrites
  resetIdle := fun _ => rfl
  abortedRecorded := fun hne => by
    cases hr : s.running with
    | none =>
      rw [State.assertReset_aborted, s.pendingWrites_of_idle hr] at hne
      simp [h.abortedRecorded hne]
    | some r => simp [hr]
  abortedInReset := nofun

theorem State.Inv.releaseReset : s.releaseReset.Inv where
  __ := h.withMemory ((writesIn_fillAny (List.Subset.refl s.aborted) s.dmem s.freeCount).legal h.abortedInRange h.memoryLegal)
  abortedInRange := regionsInRange_nil _
  resetIdle := nofun
  abortedRecorded := absurd rfl
  abortedInReset := fun _ => rfl

theorem State.Inv.of_hostTurn {op : HostOp} {t : State} (hturn : s.hostTurn op = .next t) : t.Inv := by
  cases op with
  | regWrite offset v =>
    obtain ⟨rfl, -⟩ | ⟨hrst, hwrite⟩ := State.hostTurn_regWrite_cases hturn
    · exact h
    · exact h.of_registerWrite hrst hwrite
  | regRead offset => cases hturn; exact { h with }
  | memWrite a v => cases hturn; exact h.hostMemWrite a.toNat v
  | memRead a => cases hturn; exact h.hostMemRead a.toNat
  | rstAssert => cases hturn; exact h.assertReset
  | rstRelease => cases hturn; exact h.releaseReset
  | reset => cases hturn; exact h.assertReset.releaseReset

end

/-- Settles O43: the engine's turn and every host operation keep the invariant. -/
theorem stepKeepsTheInvariant : Obligations.StepKeepsTheInvariant := by
  unfold Obligations.StepKeepsTheInvariant
  intro s t hinv h
  cases step_turn h with
  | engine hturn => exact (hinv.withSchedule _).of_engineEnds (State.engineTurn_ends hturn)
  | host _ hturn => exact (hinv.withSchedule _).of_hostTurn hturn

/-- Settles O44: no command runs, DMEM lists nothing, and MEM_BYTES is legal by its definition. -/
theorem resetMeetsTheInvariant : Obligations.ResetMeetsTheInvariant := by
  unfold Obligations.ResetMeetsTheInvariant
  have hseed : Config.memBytesSeed % 4294967296 < 4294967296 := Nat.mod_lt _ (by decide)
  exact {
    memBytesLegal := ⟨Nat.le_add_left 1 _, hseed⟩
    dmemCanonical := rfl
    dmemPopulated := nofun
    coderLegal := Coder.legal_of_invalid rfl
    errIffCode := by decide
    busyStatus := nofun
    snapshotCoderLegal := nofun
    footprintInRange := nofun
    abortedInRange := regionsInRange_nil _
    resetIdle := nofun
    abortedRecorded := absurd rfl
    abortedInReset := fun _ => rfl }

end Sys2Proof.Machine
end

section
/-! PROOF. What a footprint depends on: memories that agree on FP.R give the same checks, the same control data and the same
footprint (60_exceptions.md R195; log 11). So a host write outside the footprint leaves it as it was at launch (log 12). -/

namespace Sys2Proof.Machine

/-! ### Memories that agree on regions -/

/-- The two memories read alike at every address of the regions. -/
def AgreeOn (rs : List Region) (mem mem' : Memory) : Prop := ∀ a, inRegions rs a = true → mem'.read a = mem.read a

theorem agreeOn_write {rs : List Region} {a : Nat} (ha : inRegions rs a = false) (mem : Memory) (v : Byte) :
    AgreeOn rs mem (mem.write a v) := by
  intro b hb
  have hne : b ≠ a := fun heq => Bool.false_ne_true (ha.symm.trans (heq ▸ hb))
  exact Memory.read_write_of_ne _ v hne

section
variable {rs qs : List Region} {mem mem' : Memory}

theorem AgreeOn.mono (h : AgreeOn rs mem mem') (hsub : qs ⊆ rs) : AgreeOn qs mem mem' := fun a ha => by
  obtain ⟨r, hr, hcontains⟩ := List.any_eq_true.mp ha
  exact h a (inRegions_of_mem (hsub hr) hcontains)

theorem AgreeOn.read {r : Region} (h : AgreeOn rs mem mem') (hr : r ∈ rs) {a : Nat} (hlo : r.base ≤ a)
    (hhi : a < r.base + r.len) : mem'.read a = mem.read a :=
  h a (inRegions_of_mem hr ((r.contains_iff a).mpr ⟨hlo, hhi⟩))

theorem AgreeOn.readBytes {r : Region} (h : AgreeOn rs mem mem') (hr : r ∈ rs) {a len : Nat} (hlo : r.base ≤ a)
    (hhi : a + len ≤ r.base + r.len) : mem'.readBytes a len = mem.readBytes a len := by
  refine List.map_congr_left fun n hn => h.read hr (by omega) ?_
  have := List.mem_range.mp hn
  omega

/-! ### Control data (30_encoding.md R105) -/

variable {o : Operands}

theorem AgreeOn.ids (h : AgreeOn rs mem mem') (hr : o.idsRegion ∈ rs) : o.ids mem' = o.ids mem :=
  congrArg (List.map BitVec.toNat) (h.readBytes hr le_rfl le_rfl)

theorem AgreeOn.coefs (h : AgreeOn rs mem mem') (hr : o.coefRegion ∈ rs) : o.coefs mem' = o.coefs mem :=
  h.readBytes hr le_rfl le_rfl

theorem AgreeOn.shardAddr (h : AgreeOn rs mem mem') (hr : o.tableRegion ∈ rs) {sh : Nat} (hsh : sh < o.ck + o.cm) :
    o.shardAddr mem' sh = o.shardAddr mem sh := by
  have hbyte (b : Nat) (hb : b < 4) : mem'.read (o.params.shardTbl.toNat + 4 * sh + b) =
      mem.read (o.params.shardTbl.toNat + 4 * sh + b) :=
    h.read hr (by simp only [Operands.tableRegion]; omega) (by simp only [Operands.tableRegion]; omega)
  have hfirst := hbyte 0 (by decide)
  rw [Nat.add_zero] at hfirst
  simp only [Operands.shardAddr, Memory.read32, hfirst, hbyte 1 (by decide), hbyte 2 (by decide), hbyte 3 (by decide)]

theorem AgreeOn.shardRegion (h : AgreeOn rs mem mem') (hr : o.tableRegion ∈ rs) {sh : Nat} (hsh : sh < o.ck + o.cm) :
    o.shardRegion mem' sh = o.shardRegion mem sh := by
  rw [Operands.shardRegion, h.shardAddr hr hsh, Operands.shardRegion]

theorem AgreeOn.shardInRange (h : AgreeOn rs mem mem') (hr : o.tableRegion ∈ rs) {sh : Nat} (hsh : sh < o.ck + o.cm)
    (memBytes : Nat) : o.shardInRange memBytes mem' sh = o.shardInRange memBytes mem sh := by
  rw [Operands.shardInRange, h.shardAddr hr hsh, Operands.shardInRange]

theorem AgreeOn.all_shardInRange (h : AgreeOn rs mem mem') (hr : o.tableRegion ∈ rs) {ids : List Nat}
    (hids : ∀ id ∈ ids, id < o.ck + o.cm) (memBytes : Nat) :
    ids.all (o.shardInRange memBytes mem') = ids.all (o.shardInRange memBytes mem) := by
  rw [Bool.eq_iff_iff, List.all_eq_true, List.all_eq_true]
  exact forall₂_congr fun id hid => by rw [h.shardInRange hr (hids id hid)]

theorem AgreeOn.map_shardRegion (h : AgreeOn rs mem mem') (hr : o.tableRegion ∈ rs) {ids : List Nat}
    (hids : ∀ id ∈ ids, id < o.ck + o.cm) : ids.map (o.shardRegion mem') = ids.map (o.shardRegion mem) :=
  List.map_congr_left fun id hid => h.shardRegion hr (hids id hid)

theorem AgreeOn.map_shardAddr (h : AgreeOn rs mem mem') (hr : o.tableRegion ∈ rs) {ids : List Nat}
    (hids : ∀ id ∈ ids, id < o.ck + o.cm) : ids.map (o.shardAddr mem') = ids.map (o.shardAddr mem) :=
  List.map_congr_left fun id hid => h.shardAddr hr (hids id hid)

theorem AgreeOn.readMatrix {r : Region} (h : AgreeOn rs mem mem') (hr : r ∈ rs) {rows ncols : Nat}
    (hlen : rows * ncols ≤ r.len) : mem'.readMatrix r.base rows ncols = mem.readMatrix r.base rows ncols := by
  refine List.map_congr_left fun q hq => h.readBytes hr (Nat.le_add_right _ _) ?_
  have hle : (q + 1) * ncols ≤ rows * ncols := Nat.mul_le_mul_right _ (List.mem_range.mp hq)
  rw [Nat.succ_mul] at hle
  omega

theorem AgreeOn.cauchy (h : AgreeOn rs mem mem') (hr : o.cauchyRegion ∈ rs) : o.cauchy mem' = o.cauchy mem :=
  h.readMatrix hr (Nat.mul_comm _ _).le

theorem AgreeOn.cauchyRowAt (h : AgreeOn rs mem mem') (hr : o.cauchyRegion ∈ rs) (i : Nat) :
    o.cauchyRowAt mem' i = o.cauchyRowAt mem i := by
  rw [Operands.cauchyRowAt, h.cauchy hr, Operands.cauchyRowAt]

theorem AgreeOn.rowJob (h : AgreeOn rs mem mem') (htable : o.tableRegion ∈ rs) (hcoef : o.coefRegion ∈ rs)
    (hdest : o.dest < o.ck + o.cm) {ids : List Nat} (hids : ∀ id ∈ ids, id < o.ck + o.cm) :
    o.rowJob mem' ids = o.rowJob mem ids := by
  rw [Operands.rowJob, h.coefs hcoef, h.map_shardAddr htable hids, h.shardAddr htable hdest, Operands.rowJob]

/-! ### The checks (60_exceptions.md R193) -/

theorem AgreeOn.lincombCheck {memBytes : Nat}
    (h : AgreeOn ((lincombCheck memBytes o mem).footprint (lincombFootprint o)).reads mem mem') :
    lincombCheck memBytes o mem' = lincombCheck memBytes o mem := by
  unfold Machine.lincombCheck at h ⊢
  split_ifs at h with hvalid hdest hcoef hids htable hnamed hdst hsrcs
  · simp only [hvalid, if_true]
  · simp only [hdest, if_true]
  · simp only [hcoef, if_true]
  · simp only [hids, if_true]
  · simp only [htable, if_true]
  all_goals
    rw [h.ids (by simp [RowJob.footprint, lincombFootprint])]
  · simp only [hnamed, if_true]
  all_goals
    have htable : o.tableRegion ∈ [o.coefRegion, o.idsRegion, o.tableRegion] := by simp
    have hids : ∀ id ∈ o.ids mem, id < o.ck + o.cm := by simpa using hnamed
    have htables := h.mono (qs := [o.coefRegion, o.idsRegion, o.tableRegion])
      (by simp [RowJob.footprint, lincombFootprint])
    rw [htables.shardInRange htable (by omega), htables.all_shardInRange htable hids,
      htables.rowJob htable (by simp) (by omega) hids]

theorem AgreeOn.lincombIdCheck {memBytes : Nat}
    (h : AgreeOn ((lincombIdCheck memBytes o mem).footprint (lincombIdFootprint o)).reads mem mem') :
    lincombIdCheck memBytes o mem' = lincombIdCheck memBytes o mem := by
  unfold Machine.lincombIdCheck at h ⊢
  split_ifs at h with hvalid hdest hcoef htable hdst hsrcs
  · simp only [hvalid, if_true]
  · simp only [hdest, if_true]
  · simp only [hcoef, if_true]
  · simp only [htable, if_true]
  all_goals
    have htable : o.tableRegion ∈ [o.coefRegion, o.tableRegion] := by simp
    have hids : ∀ id ∈ List.range o.ck, id < o.ck + o.cm := fun id hid => by
      have := List.mem_range.mp hid
      omega
    have htables := h.mono (qs := [o.coefRegion, o.tableRegion]) (by simp [RowJob.footprint, lincombIdFootprint])
    rw [htables.shardInRange htable (by omega), htables.all_shardInRange htable hids,
      htables.rowJob htable (by simp) (by omega) hids]

theorem AgreeOn.shardsCheck {memBytes : Nat} {fp : Footprint} (hfp : o.tableRegion ∈ fp.reads)
    (h : AgreeOn ((shardsCheck memBytes o mem).footprint fun _ => fp).reads mem mem') :
    shardsCheck memBytes o mem' = shardsCheck memBytes o mem := by
  unfold Machine.shardsCheck at h ⊢
  split_ifs at h with htable hshards
  · simp only [htable, if_true]
  · rw [h.all_shardInRange (by simp) fun id => List.mem_range.mp]
  · rw [h.all_shardInRange hfp fun id => List.mem_range.mp]

theorem AgreeOn.encodeCheck {memBytes : Nat}
    (h : AgreeOn ((encodeCheck memBytes o mem).footprint fun _ => encodeFootprint o mem).reads mem mem') :
    encodeCheck memBytes o mem' = encodeCheck memBytes o mem := by
  cases hvalid : o.coder.valid with
  | false => rw [encodeCheck_of_invalid hvalid, encodeCheck_of_invalid hvalid]
  | true =>
    rw [encodeCheck_of_valid hvalid] at h ⊢
    rw [encodeCheck_of_valid hvalid]
    exact AgreeOn.shardsCheck (List.mem_cons_self ..) h

theorem AgreeOn.decodeCheck {memBytes : Nat}
    (h : AgreeOn ((decodeCheck memBytes o mem).footprint fun _ => decodeFootprint o mem).reads mem mem') :
    decodeCheck memBytes o mem' = decodeCheck memBytes o mem := by
  unfold Machine.decodeCheck at h ⊢
  split_ifs at h ⊢
  · rfl
  · rfl
  · exact AgreeOn.shardsCheck (List.mem_cons_self ..) h

/-! ### The footprints -/

theorem AgreeOn.encodeFootprint (h : AgreeOn (encodeFootprint o mem).reads mem mem') :
    encodeFootprint o mem' = encodeFootprint o mem := by
  have htable : o.tableRegion ∈ (Machine.encodeFootprint o mem).reads := List.mem_cons_self ..
  have hcauchy : o.cauchyRegion ∈ (Machine.encodeFootprint o mem).reads := List.mem_cons_of_mem _ (List.mem_cons_self ..)
  unfold Machine.encodeFootprint at h ⊢
  simp only [h.cauchyRowAt hcauchy]
  congr 1
  · rw [h.map_shardRegion htable fun id hid => by have := List.mem_range.mp hid; omega]
  · refine List.map_congr_left fun i hi => h.shardRegion htable ?_
    have := List.mem_range.mp (List.mem_filter.mp hi).1
    omega

theorem AgreeOn.decodeWrites (h : AgreeOn rs mem mem') (hr : o.tableRegion ∈ rs) :
    decodeWrites o mem' = decodeWrites o mem := by
  rw [Machine.decodeWrites, h.map_shardRegion (ids := o.erasedShards) hr fun id hid => List.mem_range.mp (List.mem_filter.mp hid).1,
    Machine.decodeWrites]

theorem AgreeOn.decodeFootprint (h : AgreeOn (decodeFootprint o mem).reads mem mem') :
    decodeFootprint o mem' = decodeFootprint o mem := by
  have htable : o.tableRegion ∈ (Machine.decodeFootprint o mem).reads := List.mem_cons_self ..
  rw [Machine.decodeFootprint, h.decodeWrites htable,
    h.map_shardRegion htable fun id hid => List.mem_range.mp (List.mem_filter.mp hid).1, Machine.decodeFootprint]

end

/-- With checks whose outcome is the same, and a footprint past them that is too. -/
theorem Checked.footprint_congr {α : Type} {checked checked' : Checked α} {fp fp' : α → Footprint}
    (hchecked : checked' = checked) (hfp : ∀ job, checked = .ok job → fp' job = fp job) :
    checked'.footprint fp' = checked.footprint fp := by
  subst hchecked
  cases checked' with
  | fail => rfl
  | ok job => exact hfp job rfl

/-- A command's footprint depends on FP.R alone. -/
theorem AgreeOn.footprintOf {i : Instr} {memBytes : Nat} {o : Operands} {mem mem' : Memory}
    (h : AgreeOn (footprintOf i memBytes o mem).reads mem mem') :
    footprintOf i memBytes o mem' = footprintOf i memBytes o mem := by
  cases i with
  | gfmul | gfinv | rmul | rmulacc | rxor | config | matinv => rfl
  | lincomb => exact Checked.footprint_congr (AgreeOn.lincombCheck h) fun _ _ => rfl
  | lincombId => exact Checked.footprint_congr (AgreeOn.lincombIdCheck h) fun _ _ => rfl
  | encode =>
    refine Checked.footprint_congr (AgreeOn.encodeCheck h) fun _ hok => AgreeOn.encodeFootprint ?_
    rwa [Machine.footprintOf, hok] at h
  | decode =>
    refine Checked.footprint_congr (AgreeOn.decodeCheck h) fun _ hok => AgreeOn.decodeFootprint ?_
    rwa [Machine.footprintOf, hok] at h

theorem AgreeOn.wordFootprint {w : Word} {memBytes : Nat} {o : Operands} {mem mem' : Memory}
    (h : AgreeOn (wordFootprint w memBytes o mem).reads mem mem') :
    wordFootprint w memBytes o mem' = wordFootprint w memBytes o mem := by
  unfold Machine.wordFootprint at h ⊢
  split
  · rename_i i hi
    rw [hi] at h
    exact AgreeOn.footprintOf h
  · rfl

/-! ### The footprint from launch to completion (log 12) -/

/-- The footprint of the running command, if any, is the one its rule gives in the present DMEM. -/
def State.FootprintCurrent (s : State) : Prop :=
  ∀ r, s.running = some r → r.fp = wordFootprint r.snap.word s.memBytes r.snap.operands s.dmem

theorem State.footprintCurrent_of_idle {s : State} (h : s.running = none) : s.FootprintCurrent :=
  fun _ hr => nomatch h.symm.trans hr

theorem State.FootprintCurrent.withSchedule {s : State} (h : s.FootprintCurrent) (turns : List Turn) :
    { s with schedule := turns }.FootprintCurrent := h

theorem Ends.running {i : Instr} {s t : State} (h : Ends i s t) : t.running = none := by
  cases h with
  | refused => rfl
  | ran => rfl

section
variable {s t : State} (hcurrent : s.FootprintCurrent)
include hcurrent

theorem State.FootprintCurrent.of_engineEnds (hend : EngineEnds s t) : t.FootprintCurrent := by
  cases hend with
  | still => exact hcurrent
  | command hend => exact State.footprintCurrent_of_idle hend.running
  | illegal => exact State.footprintCurrent_of_idle rfl

theorem State.FootprintCurrent.of_registerWrite {v : Word} (hwrite : RegisterWrite s v t) : t.FootprintCurrent := by
  cases hwrite with
  | params | control | status | dropped => exact hcurrent
  | launch =>
    rintro _ ⟨⟩
    rfl

theorem State.FootprintCurrent.hostMemWrite (a : Nat) (v : Byte) (hrace : (s.hostMemWrite a v).hostRace = false) :
    (s.hostMemWrite a v).FootprintCurrent := by
  obtain ⟨heq, -⟩ | ⟨heq, -⟩ | ⟨heq, -, hout⟩ := s.hostMemWrite_cases a v <;> rw [heq] at hrace ⊢
  · exact hcurrent
  · cases hrace
  · intro r hr
    have hfp := hcurrent r hr
    have hreads := hout r hr
    rw [inRegions_append, Bool.or_eq_false_iff, hfp] at hreads
    rw [hfp]
    exact (agreeOn_write hreads.1 s.dmem v).wordFootprint.symm

theorem State.FootprintCurrent.hostMemRead (a : Nat) : (s.hostMemRead a).FootprintCurrent := by
  obtain ⟨heq, -⟩ | ⟨heq, -⟩ := s.hostMemRead_cases a <;> rw [heq] <;> exact hcurrent

/-- A release with a command running ends no reset, so no byte is drawn. -/
theorem State.FootprintCurrent.releaseReset (hinv : s.Inv) : s.releaseReset.FootprintCurrent := by
  cases hrst : s.rstLow with
  | true => exact State.footprintCurrent_of_idle (hinv.resetIdle hrst)
  | false =>
    have hmem : s.releaseReset.dmem = s.dmem := by rw [s.releaseReset_dmem, hinv.abortedInReset hrst, Memory.fillAny_nil]
    intro r hr
    rw [hmem]
    exact hcurrent r hr

theorem State.FootprintCurrent.of_hostTurn (hinv : s.Inv) {op : HostOp} (hturn : s.hostTurn op = .next t)
    (hrace : t.hostRace = false) : t.FootprintCurrent := by
  cases op with
  | regWrite offset v =>
    obtain ⟨rfl, -⟩ | ⟨-, hwrite⟩ := State.hostTurn_regWrite_cases hturn
    · exact hcurrent
    · exact hcurrent.of_registerWrite hwrite
  | regRead offset => cases hturn; exact hcurrent
  | memWrite a v => cases hturn; exact hcurrent.hostMemWrite a.toNat v hrace
  | memRead a => cases hturn; exact hcurrent.hostMemRead a.toNat
  | rstAssert => cases hturn; exact State.footprintCurrent_of_idle rfl
  | rstRelease => cases hturn; exact hcurrent.releaseReset hinv
  | reset => cases hturn; exact State.footprintCurrent_of_idle rfl

end

/-- Settles O45: only a host write to DMEM touches what the running command's footprint depends on, and one into FP.R is a
race. -/
theorem runningFootprintStaysThatOfTheCommand : Obligations.RunningFootprintStaysThatOfTheCommand := by
  unfold Obligations.RunningFootprintStaysThatOfTheCommand
  intro s t hinv h hrace hcurrent
  have hcurrent : s.FootprintCurrent := hcurrent
  cases step_turn h with
  | engine hturn => exact (hcurrent.withSchedule _).of_engineEnds (State.engineTurn_ends hturn)
  | host _ hturn => exact (hcurrent.withSchedule _).of_hostTurn (hinv.withSchedule _) hturn hrace

end Sys2Proof.Machine
end

section
/-! PROOF. Host writes outside the footprint (20_memory.md R80, R85): the command reads the same control data and the same bytes,
and the write commutes with everything the command does to DMEM. -/

namespace Sys2Proof.Machine

/-! ### Operations that commute with a write -/

/-- Writing v at a commutes with F, which keeps the canonical form (log 2). -/
def CommutesWithWrite (a : Nat) (v : Byte) (F : Memory → Memory) : Prop :=
  ∀ mem : Memory, mem.wf = true → (F mem).wf = true ∧ F (mem.write a v) = (F mem).write a v

section
variable {a : Nat} {v : Byte}

theorem commutesWithWrite_id : CommutesWithWrite a v id := fun _ hwf => ⟨hwf, rfl⟩

theorem CommutesWithWrite.comp {F G : Memory → Memory} (hG : CommutesWithWrite a v G) (hF : CommutesWithWrite a v F) :
    CommutesWithWrite a v fun mem => G (F mem) := fun mem hwf => by
  obtain ⟨hwfF, heqF⟩ := hF mem hwf
  obtain ⟨hwfG, heqG⟩ := hG (F mem) hwfF
  exact ⟨hwfG, (congrArg G heqF).trans heqG⟩

theorem commutesWithWrite_foldl {α : Type} {f : Memory → α → Memory} {xs : List α}
    (hf : ∀ x ∈ xs, CommutesWithWrite a v (f · x)) : CommutesWithWrite a v fun mem => xs.foldl f mem := by
  induction xs with
  | nil => exact commutesWithWrite_id
  | cons x xs ih =>
    obtain ⟨hx, hxs⟩ := List.forall_mem_cons.mp hf
    exact (ih hxs).comp hx

/-- Fixed bytes written into a region that does not hold the address. -/
theorem commutesWithWrite_writeBytes {r : Region} (hr : r.contains a = false) {vs : List Byte} (hlen : vs.length ≤ r.len) :
    CommutesWithWrite a v fun mem => mem.writeBytes r.base vs := by
  have hout : a < r.base ∨ r.base + vs.length ≤ a := by
    rw [Bool.eq_false_iff, ne_eq, r.contains_iff] at hr
    omega
  clear hr hlen
  induction vs generalizing r with
  | nil => exact commutesWithWrite_id
  | cons w vs ih =>
    rw [List.length_cons] at hout
    have hne : a ≠ r.base := by omega
    refine CommutesWithWrite.comp (ih (r := { r with base := r.base + 1 }) (by dsimp only; omega)) fun mem hwf => ?_
    exact ⟨Memory.wf_write _ _ _ hwf, Memory.write_comm mem v w hne hwf⟩

theorem commutesWithWrite_fillAny {rs : List Region} (hrs : inRegions rs a = false) (n : Nat) :
    CommutesWithWrite a v fun mem => mem.fillAny n rs := by
  induction rs generalizing n with
  | nil => exact commutesWithWrite_id
  | cons r rs ih =>
    obtain ⟨hr, hrs⟩ := Bool.or_eq_false_iff.mp hrs
    exact (ih hrs _).comp (commutesWithWrite_writeBytes hr (by simp))

/-- Bytes computed from DMEM, none of them from the byte at the address. -/
theorem commutesWithWrite_of_bytes {r : Region} (hr : r.contains a = false) {bytes : Memory → List Byte}
    (hlen : ∀ mem, (bytes mem).length ≤ r.len) (hbytes : ∀ mem, bytes (mem.write a v) = bytes mem) :
    CommutesWithWrite a v fun mem => mem.writeBytes r.base (bytes mem) := fun mem hwf => by
  dsimp only
  rw [hbytes]
  exact commutesWithWrite_writeBytes hr (hlen mem) mem hwf

theorem Memory.read_write_of_region {r : Region} (hr : r.contains a = false) {n : Nat} (hn : n < r.len) (mem : Memory) :
    (mem.write a v).read (r.base + n) = mem.read (r.base + n) := by
  rw [Bool.eq_false_iff, ne_eq, r.contains_iff] at hr
  exact Memory.read_write_of_ne _ v (by omega)

theorem commutesWithWrite_regionRun {o : Operands} (hsrc : o.srcRegion.contains a = false)
    (hdst : o.dstRegion.contains a = false) (f : Byte → Byte → Byte) : CommutesWithWrite a v (regionRun f o) := by
  refine commutesWithWrite_of_bytes hdst (fun _ => by simp [Operands.dstRegion]) fun mem => List.map_congr_left fun n hn => ?_
  have hn := List.mem_range.mp hn
  rw [Memory.read_write_of_region hdst hn, Memory.read_write_of_region hsrc hn]

theorem commutesWithWrite_applyRow {coefs : List Byte} {srcs : List Nat} {dst len : Nat}
    (hdst : allZero coefs = false → ({ base := dst, len := len } : Region).contains a = false)
    (hsrcs : ∀ cs ∈ coefs.zip srcs, cs.1 ≠ 0#8 → ({ base := cs.2, len := len } : Region).contains a = false) :
    CommutesWithWrite a v fun mem => applyRow mem coefs srcs dst len := by
  cases hzero : allZero coefs with
  | true =>
    simp only [applyRow_of_allZero hzero]
    exact commutesWithWrite_id
  | false =>
    simp only [applyRow, hzero]
    refine commutesWithWrite_of_bytes (hdst hzero) (fun _ => by simp) fun mem => List.map_congr_left fun n hn => ?_
    rw [rowByte_eq_gfSum, rowByte_eq_gfSum]
    refine congrArg gfSum (List.map_congr_left fun cs hcs => ?_)
    by_cases hc : cs.1 = 0#8
    · rw [hc, zero_gmul, zero_gmul]
    · rw [Memory.read_write_of_region (r := { base := cs.2, len := len }) (hsrcs cs hcs hc) (List.mem_range.mp hn)]

/-- Cauchy rows, whose sources are the data shards. -/
theorem commutesWithWrite_applyCauchyRows {o : Operands} {launch : Memory} {rows : List Nat}
    (hdst : ∀ i ∈ rows, allZero (o.cauchyRowAt launch i) = false → (o.shardRegion launch (o.ck + i)).contains a = false)
    (hdata : rows ≠ [] → ∀ j < o.ck, (o.shardRegion launch j).contains a = false) :
    CommutesWithWrite a v fun mem => o.applyCauchyRows launch mem rows := by
  refine commutesWithWrite_foldl fun i hi => commutesWithWrite_applyRow (hdst i hi) fun cs hcs _ => ?_
  obtain ⟨j, hj, heq⟩ := List.mem_map.mp (List.of_mem_zip hcs).2
  rw [← heq]
  exact hdata (List.ne_nil_of_mem hi) j (List.mem_range.mp hj)

end

/-! ### Effects that do not see a write -/

/-- The second of two outcomes of the checks is the first, with v written at a by then. -/
inductive WriteUnseen (a : Nat) (v : Byte) : Checked Effect → Checked Effect → Prop
  | fail (code : ErrCode) (readBefore readBefore' : List Region) :
      WriteUnseen a v (.fail code readBefore) (.fail code readBefore')
  | ok {e : Effect} (hwf : e.mem.wf = true) (hwrites : inRegions e.fp.writes a = false)
      (hany : inRegions e.any a = false) : WriteUnseen a v (.ok e) (.ok { e with mem := e.mem.write a v })

section
variable {a : Nat} {v : Byte}

/-- The effect is done to the state alike. -/
theorem WriteUnseen.after_eq {c c' : Checked Effect} (h : WriteUnseen a v c c') (s : State) (hwf : s.dmem.wf = true)
    (i : Instr) : State.after { s with dmem := s.dmem.write a v } i c' =
      { s.after i c with dmem := (s.after i c).dmem.write a v } := by
  cases h with
  | fail => rfl
  | @ok e hmem hwrites hany =>
    simp only [State.after, Effect.applyTo, State.commit]
    split
    · have hfill := (commutesWithWrite_fillAny (v := v) hwrites s.freeCount s.dmem hwf).2
      simp only [State.fillAny, hfill]
      rfl
    · have hfill := (commutesWithWrite_fillAny (v := v) hany s.freeCount e.mem hmem).2
      simp only [State.fillAny, hfill]
      rfl

theorem writeUnseen_of_check {α : Type} {checked checked' : Checked α} {f f' : α → Effect} (hcheck : checked' = checked)
    (hjob : ∀ job, checked = .ok job → WriteUnseen a v (.ok (f job)) (.ok (f' job))) :
    WriteUnseen a v (checked.map f) (checked'.map f') := by
  subst hcheck
  cases checked' with
  | fail => exact .fail ..
  | ok job => exact hjob job rfl

/-- An effect whose memory commutes with the write. -/
theorem writeUnseen_of_commutes {F : Memory → Memory} (hF : CommutesWithWrite a v F) {mem : Memory} (hwf : mem.wf = true)
    {e : Effect} (hmem : e.mem = F mem) (hwrites : inRegions e.fp.writes a = false) (hany : inRegions e.any a = false) :
    WriteUnseen a v (.ok e) (.ok { e with mem := F (mem.write a v) }) := by
  obtain ⟨hwfF, heq⟩ := hF mem hwf
  rw [heq, ← hmem]
  exact .ok (hmem ▸ hwfF) hwrites hany

/-! ### The commands -/

/-- The address lies outside both parts of the footprint. -/
def Footprint.Avoids (fp : Footprint) (a : Nat) : Prop := inRegions (fp.reads ++ fp.writes) a = false

theorem Footprint.Avoids.reads {fp : Footprint} (h : fp.Avoids a) : inRegions fp.reads a = false := by
  rw [Footprint.Avoids, inRegions_append, Bool.or_eq_false_iff] at h
  exact h.1

theorem Footprint.Avoids.writes {fp : Footprint} (h : fp.Avoids a) : inRegions fp.writes a = false := by
  rw [Footprint.Avoids, inRegions_append, Bool.or_eq_false_iff] at h
  exact h.2

theorem Footprint.Avoids.read_region {fp : Footprint} (h : fp.Avoids a) {r : Region} (hr : r ∈ fp.reads) :
    r.contains a = false :=
  (inRegions_eq_false_iff ..).mp h.reads r hr

theorem Footprint.Avoids.write_region {fp : Footprint} (h : fp.Avoids a) {r : Region} (hr : r ∈ fp.writes) :
    r.contains a = false :=
  (inRegions_eq_false_iff ..).mp h.writes r hr

theorem Footprint.Avoids.agreeOn {fp : Footprint} (h : fp.Avoids a) (mem : Memory) (v : Byte) :
    AgreeOn fp.reads mem (mem.write a v) :=
  agreeOn_write h.reads mem v

theorem Footprint.Avoids.of_ok {α : Type} {checked : Checked α} {fp : α → Footprint} {job : α}
    (h : (checked.footprint fp).Avoids a) (hok : checked = .ok job) : (fp job).Avoids a := by
  rwa [hok] at h

variable {o : Operands}

theorem commutesWithWrite_matinvMemory {inv : Matrix} (hinv : IsSquareMatrix o.matDim inv)
    (h : (matinvFootprint o).Avoids a) : CommutesWithWrite a v (matinvMemory o inv) := by
  have hsrc := commutesWithWrite_writeBytes (v := v) (h.write_region (List.mem_cons_self ..))
    (isSquareMatrix_identityMatrix o.matDim).length_flatten.le
  have hdst := commutesWithWrite_writeBytes (v := v) (h.write_region (List.mem_cons_of_mem _ (List.mem_cons_self ..)))
    hinv.length_flatten.le
  exact hdst.comp hsrc

variable {mem : Memory} (hwf : mem.wf = true)
include hwf

theorem regionEffect_writeUnseen (h : (regionFootprint o).Avoids a) (f : Byte → Byte → Byte) :
    WriteUnseen a v (.ok (regionEffect f o mem)) (.ok (regionEffect f o (mem.write a v))) := by
  have hdst : inRegions [o.dstRegion] a = false := h.writes
  refine writeUnseen_of_commutes (F := regionRun f o)
    (commutesWithWrite_regionRun (h.read_region (List.mem_singleton.mpr rfl)) (h.write_region (List.mem_singleton.mpr rfl)) f)
    hwf rfl ?_ rfl
  unfold regionEffect
  dsimp only
  split
  · exact hdst
  · exact hdst

theorem configEffect_writeUnseen (h : (configFootprint o).Avoids a) :
    WriteUnseen a v (.ok (configEffect o mem)) (.ok (configEffect o (mem.write a v))) :=
  writeUnseen_of_commutes (commutesWithWrite_writeBytes (h.write_region (List.mem_singleton.mpr rfl))
    (length_flatten_cauchyMatrix _ _).le) hwf rfl h.writes rfl

theorem matinvEffect_writeUnseen (h : (matinvFootprint o).Avoids a) :
    WriteUnseen a v (.ok (matinvEffect o mem (invertMatrix o.matDim (matinvInput o mem))))
      (.ok (matinvEffect o (mem.write a v) (invertMatrix o.matDim (matinvInput o (mem.write a v))))) := by
  have hinput : matinvInput o (mem.write a v) = matinvInput o mem :=
    (agreeOn_write h.writes mem v).readMatrix (List.mem_cons_self ..) le_rfl
  rw [hinput]
  cases hinvert : invertMatrix o.matDim (matinvInput o mem) with
  | none => exact writeUnseen_of_commutes commutesWithWrite_id hwf rfl h.writes h.writes
  | some inv =>
    have hinv := isSquareMatrix_of_invertMatrix_eq_some (isSquareMatrix_readMatrix _ _ _) hinvert
    exact writeUnseen_of_commutes (commutesWithWrite_matinvMemory hinv h) hwf rfl h.writes rfl

/-- LINCOMB and LINCOMB.ID alike: the row avoids the address in every source it reads and in its destination. -/
theorem rowEffect_writeUnseen {job : RowJob} {tables : List Region} (h : (job.footprint tables o.len).Avoids a) :
    WriteUnseen a v (.ok (rowEffect (fun job => job.footprint tables o.len) o mem job))
      (.ok (rowEffect (fun job => job.footprint tables o.len) o (mem.write a v) job)) := by
  refine writeUnseen_of_commutes (F := fun mem => applyRow mem job.coefs job.srcs job.dst o.len)
    (commutesWithWrite_applyRow (fun hzero => h.write_region ?_) fun cs hcs hc => h.read_region ?_) hwf rfl h.writes rfl
  · rw [job.footprint_writes, hzero]
    exact List.mem_singleton.mpr rfl
  · exact List.mem_append_right _ (List.mem_map.mpr ⟨cs, List.mem_filter.mpr ⟨hcs, by simpa using hc⟩, rfl⟩)

end

/-! ### ENCODE and DECODE -/

section
variable {a : Nat} {v : Byte} {o : Operands} {rs : List Region} {launch launch' mem : Memory}

/-- Rows and addresses are control data. -/
theorem AgreeOn.applyCauchyRows (h : AgreeOn rs launch launch') (htable : o.tableRegion ∈ rs) (hcauchy : o.cauchyRegion ∈ rs)
    {rows : List Nat} (hrows : ∀ i ∈ rows, i < o.cm) (mem : Memory) :
    o.applyCauchyRows launch' mem rows = o.applyCauchyRows launch mem rows := by
  have hdata : o.dataAddrs launch' = o.dataAddrs launch :=
    h.map_shardAddr htable fun j hj => (List.mem_range.mp hj).trans_le (Nat.le_add_right _ _)
  refine List.foldl_ext _ _ _ fun acc i hi => ?_
  rw [h.cauchyRowAt hcauchy, hdata, h.shardAddr htable (Nat.add_lt_add_left (hrows i hi) _)]

theorem AgreeOn.recoverData (h : AgreeOn rs launch launch') (htable : o.tableRegion ∈ rs) (d : Matrix) (mem : Memory) :
    o.recoverData launch' d mem = o.recoverData launch d mem := by
  refine List.foldl_ext _ _ _ fun acc i hi => ?_
  have hlt := (Operands.mem_erasedData_iff.mp hi).1
  rw [h.map_shardAddr htable fun id hid => Operands.lt_of_mem_survivors hid, h.shardAddr htable (by omega)]

theorem encodeEffect_writeUnseen (hwf : mem.wf = true) (h : (encodeFootprint o mem).Avoids a) :
    WriteUnseen a v (.ok (encodeEffect o mem)) (.ok (encodeEffect o (mem.write a v))) := by
  have hagree := h.agreeOn mem v
  have hrows : o.applyCauchyRows (mem.write a v) (mem.write a v) (List.range o.cm) =
      o.applyCauchyRows mem (mem.write a v) (List.range o.cm) :=
    hagree.applyCauchyRows (List.mem_cons_self ..) (List.mem_cons_of_mem _ (List.mem_cons_self ..))
      (fun i => List.mem_range.mp) _
  rw [show encodeEffect o (mem.write a v) = { encodeEffect o mem with
    mem := o.applyCauchyRows mem (mem.write a v) (List.range o.cm) } by
      rw [encodeEffect, hagree.encodeFootprint, hrows]; rfl]
  refine writeUnseen_of_commutes (F := fun acc => o.applyCauchyRows mem acc (List.range o.cm))
    (commutesWithWrite_applyCauchyRows (fun i hi hzero => h.write_region ?_) fun _ j hj => h.read_region ?_)
    hwf rfl h.writes rfl
  · exact List.mem_map_of_mem (f := fun i => o.shardRegion mem (o.ck + i))
      (List.mem_filter.mpr ⟨hi, by rw [hzero, Bool.not_false]⟩)
  · exact List.mem_cons_of_mem _ (List.mem_cons_of_mem _ (List.mem_map_of_mem (List.mem_range.mpr hj)))

/-- Regions without a byte are not written. -/
theorem WritesIn.eq_of_no_bytes {before after : Memory} (h : WritesIn rs before after) (hnone : ∀ a, inRegions rs a = false) :
    after = before := by
  cases h with
  | refl => rfl
  | @write _ a _ _ ha => exact absurd ha (Bool.eq_false_iff.mp (hnone a))

/-! #### The regions DECODE reads (44_codec.md R179) -/

theorem tableRegion_mem_decodeReads (o : Operands) (mem : Memory) : o.tableRegion ∈ (decodeFootprint o mem).reads :=
  List.mem_cons_self ..

theorem cauchyRegion_mem_decodeReads (h : (decodeWrites o mem).any (fun r => decide (0 < r.len)) = true) :
    o.cauchyRegion ∈ (decodeFootprint o mem).reads := by
  refine List.mem_cons_of_mem _ (List.mem_append_left _ ?_)
  rw [h]
  exact List.mem_singleton.mpr rfl

theorem shardRegion_mem_decodeReads {sh : Nat} (hsh : sh < o.ck + o.cm) (h : o.readsShard sh = true) :
    o.shardRegion mem sh ∈ (decodeFootprint o mem).reads :=
  List.mem_cons_of_mem _ (List.mem_append_right _ (List.mem_map_of_mem (List.mem_filter.mpr ⟨List.mem_range.mpr hsh, h⟩)))

/-- `tmpmat` has a byte, so the Cauchy matrix is read (log 13). -/
theorem cauchyRegion_mem_decodeReads_of_data (hdata : o.erasedData.isEmpty = false) :
    o.cauchyRegion ∈ (decodeFootprint o mem).reads := by
  obtain ⟨i, hi⟩ := List.exists_mem_of_ne_nil _ (List.isEmpty_eq_false_iff.mp hdata)
  have hpos : 0 < o.ck := (Operands.mem_erasedData_iff.mp hi).1.pos
  refine cauchyRegion_mem_decodeReads (List.any_eq_true.mpr ⟨o.tmpmatRegion, ?_, ?_⟩)
  · exact Operands.scratchRegions_subset mem hdata (List.mem_cons_self ..)
  · exact decide_eq_true (Nat.mul_pos hpos hpos)

/-- The data shards that a coding row sums are read, or erased and so written. -/
theorem dataShard_avoided (h : (decodeFootprint o mem).Avoids a) (hcoding : o.erasedCoding ≠ []) {j : Nat} (hj : j < o.ck) :
    (o.shardRegion mem j).contains a = false := by
  have hlt : j < o.ck + o.cm := hj.trans_le (Nat.le_add_right _ _)
  cases herased : o.params.erased j with
  | true => exact h.write_region (Operands.erasedShard_mem_decodeWrites mem hlt herased)
  | false =>
    refine h.read_region (shardRegion_mem_decodeReads hlt ?_)
    have hsome : o.erasedCoding.isEmpty = false := List.isEmpty_eq_false_iff.mpr hcoding
    simp [Operands.readsShard, herased, hj, hsome]

theorem survivor_avoided (h : (decodeFootprint o mem).Avoids a) (hdata : o.erasedData.isEmpty = false) {sh : Nat}
    (hsh : sh ∈ o.survivors) : (o.shardRegion mem sh).contains a = false := by
  refine h.read_region (shardRegion_mem_decodeReads (Operands.lt_of_mem_survivors hsh) ?_)
  simp [Operands.readsShard, Operands.not_erased_of_mem_survivors hsh, hdata, hsh]

/-! #### DECODE -/

theorem commutesWithWrite_erasedCoding (h : (decodeFootprint o mem).Avoids a) :
    CommutesWithWrite a v fun acc => o.applyCauchyRows mem acc o.erasedCoding := by
  refine commutesWithWrite_applyCauchyRows (fun i hi _ => ?_) fun hcoding j => dataShard_avoided h hcoding
  obtain ⟨hi, herased⟩ := Operands.mem_erasedCoding_iff.mp hi
  exact h.write_region (Operands.erasedShard_mem_decodeWrites mem (Nat.add_lt_add_left hi _) herased)

theorem commutesWithWrite_recoverData (h : (decodeFootprint o mem).Avoids a) (hdata : o.erasedData.isEmpty = false)
    (d : Matrix) : CommutesWithWrite a v (o.recoverData mem d) := by
  refine commutesWithWrite_foldl fun i hi => commutesWithWrite_applyRow (fun _ => ?_) fun cs hcs _ => ?_
  · obtain ⟨hi, herased⟩ := Operands.mem_erasedData_iff.mp hi
    exact h.write_region (Operands.erasedShard_mem_decodeWrites mem (hi.trans_le (Nat.le_add_right _ _)) herased)
  · obtain ⟨sh, hsh, heq⟩ := List.mem_map.mp (List.of_mem_zip hcs).2
    rw [← heq]
    exact survivor_avoided h hdata hsh

theorem scratchRegion_avoided (h : (decodeFootprint o mem).Avoids a) (hdata : o.erasedData.isEmpty = false) {r : Region}
    (hr : r ∈ o.scratchRegions) : r.contains a = false :=
  h.write_region (Operands.scratchRegions_subset mem hdata hr)

theorem commutesWithWrite_writeIds (hids : o.dmIdsRegion.contains a = false) : CommutesWithWrite a v o.writeIds :=
  commutesWithWrite_writeBytes hids ((List.length_map _).trans_le o.length_survivors_le)

theorem commutesWithWrite_writeScratch {d : Matrix} (hd : IsSquareMatrix o.ck d)
    (hscratch : ∀ r ∈ o.scratchRegions, r.contains a = false) : CommutesWithWrite a v (o.writeScratch d) := by
  simp only [Operands.scratchRegions, List.forall_mem_cons] at hscratch
  obtain ⟨htmpmat, hids, hdecoding, -⟩ := hscratch
  have hidentity := commutesWithWrite_writeBytes (v := v) htmpmat (isSquareMatrix_identityMatrix o.ck).length_flatten.le
  have hinverse := commutesWithWrite_writeBytes (v := v) hdecoding hd.length_flatten.le
  exact hinverse.comp (hidentity.comp (commutesWithWrite_writeIds hids))

theorem commutesWithWrite_decodeMemory {d : Matrix} (hd : IsSquareMatrix o.ck d) (h : (decodeFootprint o mem).Avoids a)
    (hdata : o.erasedData.isEmpty = false) : CommutesWithWrite a v (o.decodeMemory d mem) :=
  (commutesWithWrite_erasedCoding h).comp ((commutesWithWrite_recoverData h hdata d).comp
    (commutesWithWrite_writeScratch hd fun _ => scratchRegion_avoided h hdata))

/-- With no byte to write DECODE leaves DMEM as it is, and else it reads the Cauchy matrix. -/
theorem applyErasedCoding_write (h : (decodeFootprint o mem).Avoids a) (acc : Memory) :
    o.applyCauchyRows (mem.write a v) acc o.erasedCoding = o.applyCauchyRows mem acc o.erasedCoding := by
  have hagree := h.agreeOn mem v
  cases hsome : (decodeWrites o mem).any fun r => decide (0 < r.len) with
  | true =>
    exact hagree.applyCauchyRows (tableRegion_mem_decodeReads o mem) (cauchyRegion_mem_decodeReads hsome)
      (fun i hi => (Operands.mem_erasedCoding_iff.mp hi).1) acc
  | false =>
    have hnone : ∀ b, inRegions (decodeWrites o mem) b = false := fun b => by
      refine (inRegions_eq_false_iff ..).mpr fun r hr => Region.contains_eq_false_of_len_zero ?_ b
      simpa using List.any_eq_false.mp hsome r hr
    have hkeep (launch : Memory) (hwrites : decodeWrites o launch = decodeWrites o mem) :
        o.applyCauchyRows launch acc o.erasedCoding = acc :=
      ((writesIn_erasedCoding acc launch).mono (o.erasedRegions_subset launch)).eq_of_no_bytes (by rwa [hwrites])
    rw [hkeep mem rfl, hkeep (mem.write a v) (hagree.decodeWrites (tableRegion_mem_decodeReads o mem))]

theorem decodeEffect_writeUnseen (hwf : mem.wf = true) (herasures : o.erasedShards.length ≤ o.cm)
    (h : (decodeFootprint o mem).Avoids a) :
    WriteUnseen a v (.ok (decodeEffect o mem)) (.ok (decodeEffect o (mem.write a v))) := by
  have hagree := h.agreeOn mem v
  cases hdata : o.erasedData.isEmpty with
  | true =>
    simp only [decodeEffect, hdata, if_true, hagree.decodeFootprint, applyErasedCoding_write h]
    exact writeUnseen_of_commutes (commutesWithWrite_erasedCoding h) hwf rfl h.writes rfl
  | false =>
    have htmat : o.tmat (mem.write a v) = o.tmat mem := by
      rw [Operands.tmat, hagree.cauchy (cauchyRegion_mem_decodeReads_of_data hdata), Operands.tmat]
    simp only [decodeEffect, hdata, Bool.false_eq_true, if_false, htmat]
    have hscratch {r : Region} (hr : r ∈ o.scratchRegions) := scratchRegion_avoided h hdata hr
    cases hinvert : invertMatrix o.ck (o.tmat mem) with
    | none =>
      simp only [decodeDataEffect, hagree.decodeFootprint]
      refine writeUnseen_of_commutes (commutesWithWrite_writeIds (hscratch (by simp [Operands.scratchRegions])))
        hwf rfl h.writes ((inRegions_eq_false_iff ..).mpr fun r hr => hscratch ?_)
      revert r
      simp [Operands.scratchRegions]
    | some d =>
      have hd := isSquareMatrix_of_invertMatrix_eq_some (Operands.isSquareMatrix_tmat herasures mem) hinvert
      have hmemory : o.decodeMemory d (mem.write a v) (mem.write a v) = o.decodeMemory d mem (mem.write a v) := by
        rw [Operands.decodeMemory, applyErasedCoding_write h, hagree.recoverData (tableRegion_mem_decodeReads o mem),
          Operands.decodeMemory]
      simp only [decodeDataEffect, hagree.decodeFootprint, hmemory]
      exact writeUnseen_of_commutes (commutesWithWrite_decodeMemory hd h hdata) hwf rfl h.writes rfl

end

/-! ### All commands -/

theorem commandEffect_writeUnseen {i : Instr} {s : State} {a : Nat} (hwf : s.dmem.wf = true) (h : (s.footprint i).Avoids a)
    (v : Byte) : WriteUnseen a v (commandEffect i s.memBytes s.operands s.dmem)
      (commandEffect i s.memBytes s.operands (s.dmem.write a v)) := by
  have hagree := h.agreeOn s.dmem v
  cases i with
  | gfmul => exact writeUnseen_of_commutes commutesWithWrite_id hwf rfl rfl rfl
  | gfinv =>
    unfold commandEffect
    dsimp only
    split
    · exact .fail ..
    · exact writeUnseen_of_commutes commutesWithWrite_id hwf rfl rfl rfl
  | rmul => exact writeUnseen_of_check rfl fun _ hok => regionEffect_writeUnseen hwf (h.of_ok hok) _
  | rmulacc => exact writeUnseen_of_check rfl fun _ hok => regionEffect_writeUnseen hwf (h.of_ok hok) _
  | rxor => exact writeUnseen_of_check rfl fun _ hok => regionEffect_writeUnseen hwf (h.of_ok hok) _
  | config => exact writeUnseen_of_check rfl fun _ hok => configEffect_writeUnseen hwf (h.of_ok hok)
  | matinv => exact writeUnseen_of_check rfl fun _ hok => matinvEffect_writeUnseen hwf (h.of_ok hok)
  | lincomb =>
    exact writeUnseen_of_check (AgreeOn.lincombCheck hagree) fun _ hok => rowEffect_writeUnseen hwf (h.of_ok hok)
  | lincombId =>
    exact writeUnseen_of_check (AgreeOn.lincombIdCheck hagree) fun _ hok => rowEffect_writeUnseen hwf (h.of_ok hok)
  | encode =>
    exact writeUnseen_of_check (AgreeOn.encodeCheck hagree) fun _ hok => encodeEffect_writeUnseen hwf (h.of_ok hok)
  | decode =>
    refine writeUnseen_of_check (AgreeOn.decodeCheck hagree) fun _ hok => ?_
    obtain ⟨-, herasures, -⟩ := s.decodeRuns_iff.mpr hok
    exact decodeEffect_writeUnseen hwf herasures (h.of_ok hok)

/-- Settles O41: the effect of the command does not see the write, and is done to the state alike. -/
theorem hostWriteOutsideTheFootprintIsUnseen : Obligations.HostWriteOutsideTheFootprintIsUnseen := by
  unfold Obligations.HostWriteOutsideTheFootprintIsUnseen
  intro i s t a v hwf hout h
  cases (exec_eq_after i s).symm.trans h
  rw [exec_eq_after]
  exact congrArg _ ((commandEffect_writeUnseen hwf hout v).after_eq s hwf i)

end Sys2Proof.Machine
end

section
/-! PROOF. INVERT is sound and complete (42_matinv.md R151, R152): elimination loses no equation and leaves the identity in
place of A, so what stands in place of I is the inverse. -/

namespace Sys2Proof

open Machine hiding Matrix
open scoped Matrix

/-! ### Forward elimination leaves an upper unitriangular matrix -/

/-- In the rows before c the diagonal is 1 and what stands left of it is 0. -/
def UnitUpper (c : Nat) (w : WorkMatrix) : Prop :=
  ∀ r < c, workEntry w r r = 1#8 ∧ ∀ j < r, workEntry w r j = 0#8

section
variable {n c r : Nat} {w w' : WorkMatrix}

theorem workEntry_congr {q : Nat} (h : rowAt w' q = rowAt w q) (j : Nat) : workEntry w' q j = workEntry w q j := by
  rw [workEntry_eq, h, ← workEntry_eq]

theorem ForwardStep.unitUpper (h : ForwardStep n c r w w') (hzero : ZeroBelow n c w) (hunit : UnitUpper c w) :
    UnitUpper (c + 1) w' := by
  intro q hq
  obtain hlt | rfl := Nat.lt_succ_iff_lt_or_eq.mp hq
  · obtain ⟨hone, hleft⟩ := hunit q hlt
    simp only [workEntry_congr (h.above q hlt)]
    exact ⟨hone, hleft⟩
  · exact ⟨h.workEntry_pivot, fun j hj => h.workEntry_pivot_row hzero hj⟩

variable {F : Type} [Field F] {φ : Byte ≃ F}

/-- What forward elimination over the columns from c on ends with. -/
structure Eliminated (φ : Byte ≃ F) (n : Nat) (w w' : WorkMatrix) : Prop where
  shaped : WorkShaped n w'
  unitUpper : UnitUpper n w'
  solves : ∀ v u : Fin n → F, WorkSolves φ v u w' → WorkSolves φ v u w

theorem IsFieldIso.eliminated_of_forwardEliminate (hφ : IsFieldIso φ) {d : Nat} (hn : c + d = n) (hw : WorkShaped n w)
    (hzero : ZeroBelow n c w) (hunit : UnitUpper c w) (h : forwardEliminate n (List.range' c d) w = some w') :
    Eliminated φ n w w' := by
  induction d generalizing c w with
  | zero =>
    obtain rfl : c = n := hn
    cases h
    exact ⟨hw, hunit, fun _ _ => id⟩
  | succ d ih =>
    have hc : c < n := by omega
    rw [List.range'_succ, forwardEliminate] at h
    split at h
    · cases h
    · rename_i hcolumn
      obtain ⟨r, hstep⟩ := forwardColumn_some hw.1 hc hcolumn
      obtain ⟨hshaped, hupper, hsolves⟩ :=
        ih (by omega) (hstep.shaped hw) (hstep.zeroBelow hw hzero) (hstep.unitUpper hzero hunit) h
      exact ⟨hshaped, hupper, fun v u hvu => hφ.workSolves_of_forwardStep hstep hw (hsolves v u hvu)⟩

/-! ### Back-substitution leaves the identity -/

/-- In the columns from c on, what stands above the diagonal is 0. -/
def ZeroAbove (n c : Nat) (w : WorkMatrix) : Prop := ∀ j < n, c ≤ j → ∀ r < j, workEntry w r j = 0#8

theorem rowAt_backColumn {q : Nat} (hq : q < w.length) (c : Nat) :
    rowAt (backColumn c w) q = if q < c then eliminateRow c (rowAt w c) (rowAt w q) else rowAt w q :=
  rowAt_mapIdx _ hq

theorem rowAt_backColumn_of_ge (hw : WorkShaped n w) {q : Nat} (hq : c ≤ q) (hqn : q < n) :
    rowAt (backColumn c w) q = rowAt w q := by
  rw [rowAt_backColumn (hw.1.symm ▸ hqn), if_neg (Nat.not_lt.mpr hq)]

section
variable (hw : WorkShaped n w) (hc : c < n)
include hw hc

theorem workEntry_backColumn {q : Nat} (hq : q < c) (j : Nat) :
    workEntry (backColumn c w) q j = workEntry w q j ^^^ gmul (workEntry w q c) (workEntry w c j) := by
  have hrow := hw.2 q (hq.trans hc)
  have hpivot := hw.2 c hc
  rw [workEntry_eq, rowAt_backColumn (hw.1.symm ▸ hq.trans hc), if_pos hq, eliminateRow_eq_addScaledRow hrow hpivot,
    addScaledRow, getD_zipWith_addScaled _ (hrow.1.trans hpivot.1.symm)]
  rfl

/-- Row c is that of the identity, so column c alone changes. -/
theorem workEntry_backColumn_of_ne (hunit : UnitUpper n w) (habove : ZeroAbove n (c + 1) w) {q j : Nat} (hq : q < n)
    (hj : j < n) (hne : j ≠ c) : workEntry (backColumn c w) q j = workEntry w q j := by
  obtain hqc | hcq := Nat.lt_or_ge q c
  · have hzero : workEntry w c j = 0#8 := by
      obtain hlt | hgt := Nat.lt_or_gt_of_ne hne
      · exact (hunit c hc).2 j hlt
      · exact habove j hj hgt c hgt
    rw [workEntry_backColumn hw hc hqc, hzero, gmul_zero, BitVec.xor_zero]
  · exact workEntry_congr (rowAt_backColumn_of_ge hw hcq hq) j

theorem UnitUpper.backColumn (hunit : UnitUpper n w) (habove : ZeroAbove n (c + 1) w) :
    UnitUpper n (backColumn c w) := by
  intro q hq
  obtain ⟨hone, hleft⟩ := hunit q hq
  obtain hqc | hcq := Nat.lt_or_ge q c
  · have hkeep {j : Nat} (hj : j ≤ q) := workEntry_backColumn_of_ne hw hc hunit habove hq (hj.trans_lt hq) (by omega)
    exact ⟨(hkeep le_rfl).trans hone, fun j hj => (hkeep hj.le).trans (hleft j hj)⟩
  · simp only [workEntry_congr (rowAt_backColumn_of_ge hw hcq hq)]
    exact ⟨hone, hleft⟩

theorem ZeroAbove.backColumn (hunit : UnitUpper n w) (habove : ZeroAbove n (c + 1) w) :
    ZeroAbove n c (backColumn c w) := by
  intro j hj hcj q hq
  obtain rfl | hlt := hcj.eq_or_lt
  · rw [workEntry_backColumn hw hc hq, (hunit c hc).1, gmul_comm, one_gmul, BitVec.xor_self]
  · rw [workEntry_backColumn_of_ne hw hc hunit habove (hq.trans hj) hj hlt.ne']
    exact habove j hj hlt q hq

theorem IsFieldIso.workSolves_of_backColumn (hφ : IsFieldIso φ) {v u : Fin n → F}
    (hsolves : WorkSolves φ v u (backColumn c w)) : WorkSolves φ v u w := by
  have hpivot : RowSolves φ v u (rowAt w c) := by
    rw [← rowAt_backColumn_of_ge hw le_rfl hc]
    exact hsolves c hc
  intro q hq
  have hrow := hsolves q hq
  obtain hqc | hcq := Nat.lt_or_ge q c
  · rw [rowAt_backColumn (hw.1.symm ▸ hq), if_pos hqc] at hrow
    exact (hφ.rowSolves_eliminateRow (hw.2 q hq) (hw.2 c hc) hpivot c).mp hrow
  · rwa [rowAt_backColumn_of_ge hw hcq hq] at hrow

end

/-- Back-substitution over the columns c, c-1, …, 1. -/
def backTo (c : Nat) (w : WorkMatrix) : WorkMatrix := (List.range' 1 c).reverse.foldl (fun w c => backColumn c w) w

theorem backTo_succ (c : Nat) (w : WorkMatrix) : backTo (c + 1) w = backTo c (backColumn (c + 1) w) := by
  rw [backTo, List.range'_1_concat, List.reverse_append, Nat.add_comm 1 c]
  rfl

theorem backSubstitute_eq_backTo (n : Nat) (w : WorkMatrix) : backSubstitute n w = backTo (n - 1) w := by
  rw [backSubstitute, List.range_eq_range', List.tail_range', backTo]

/-- What INVERT ends with. -/
structure Inverted (φ : Byte ≃ F) (n : Nat) (w w' : WorkMatrix) : Prop where
  shaped : WorkShaped n w'
  unitUpper : UnitUpper n w'
  zeroAbove : ZeroAbove n 1 w'
  solves : ∀ v u : Fin n → F, WorkSolves φ v u w' → WorkSolves φ v u w

theorem IsFieldIso.inverted_of_backTo (hφ : IsFieldIso φ) (hw : WorkShaped n w) (hunit : UnitUpper n w) (hc : c < n ∨ c = 0)
    (habove : ZeroAbove n (c + 1) w) : Inverted φ n w (backTo c w) := by
  induction c generalizing w with
  | zero => exact ⟨hw, hunit, habove, fun _ _ => id⟩
  | succ c ih =>
    have hlt : c + 1 < n := hc.resolve_right (Nat.succ_ne_zero c)
    obtain ⟨hshaped, hupper, habove', hsolves⟩ := ih (hw.backColumn hlt) (hunit.backColumn hw hlt habove)
      (.inl (Nat.lt_of_succ_lt hlt)) (habove.backColumn hw hlt hunit)
    rw [backTo_succ]
    exact ⟨hshaped, hupper, habove', fun v u hvu => hφ.workSolves_of_backColumn hw hlt (hsolves v u hvu)⟩

theorem Eliminated.backSubstitute (hφ : IsFieldIso φ) {w₀ : WorkMatrix} (h : Eliminated φ n w₀ w) :
    Inverted φ n w₀ (backSubstitute n w) := by
  obtain ⟨hshaped, hupper, hsolves⟩ := h
  rw [backSubstitute_eq_backTo]
  have hback := hφ.inverted_of_backTo (c := n - 1) hshaped hupper (by omega) fun j hj hle => by omega
  exact ⟨hback.shaped, hback.unitUpper, hback.zeroAbove, fun v u hvu => hsolves v u (hback.solves v u hvu)⟩

end

/-! ### What INVERT answers (42_matinv.md R152) -/

theorem zeroBelow_zero (n : Nat) (w : WorkMatrix) : ZeroBelow n 0 w := fun _ _ _ _ hj => absurd hj (Nat.not_lt_zero _)

theorem unitUpper_zero (w : WorkMatrix) : UnitUpper 0 w := fun _ hr => absurd hr (Nat.not_lt_zero _)

theorem matrix_ext {n : Nat} {a b : Machine.Matrix} (ha : IsSquareMatrix n a) (hb : IsSquareMatrix n b)
    (h : ∀ r < n, ∀ c < n, matrixEntry a r c = matrixEntry b r c) : a = b := by
  refine List.ext_getElem (ha.1.trans hb.1.symm) fun r hra hrb => ?_
  have hr : r < n := ha.1 ▸ hra
  have hlena : a[r].length = n := ha.2 _ (List.getElem_mem _)
  have hlenb : b[r].length = n := hb.2 _ (List.getElem_mem _)
  refine List.ext_getElem (hlena.trans hlenb.symm) fun c hca hcb => ?_
  have hentry := h r hr c (hlena ▸ hca)
  simpa [matrixEntry, hra, hrb, hca, hcb] using hentry

theorem WorkShaped.isSquareMatrix_fst {n : Nat} {w : WorkMatrix} (hw : WorkShaped n w) :
    IsSquareMatrix n (w.map Prod.fst) := by
  obtain ⟨rfl, hrows⟩ := hw
  refine ⟨by simp, List.forall_mem_map.mpr fun row hrow => ?_⟩
  obtain ⟨q, hq, rfl⟩ := List.mem_iff_getElem.mp hrow
  simpa [rowAt, hq] using (hrows q hq).1

theorem getD_map_fst (w : WorkMatrix) (q : Nat) : (w.map Prod.fst).getD q [] = (rowAt w q).1 :=
  List.getD_map w ([], []) Prod.fst

theorem getD_map_snd (w : WorkMatrix) (q : Nat) : (w.map Prod.snd).getD q [] = (rowAt w q).2 :=
  List.getD_map w ([], []) Prod.snd

theorem matrixEntry_map_fst (w : WorkMatrix) (r c : Nat) : matrixEntry (w.map Prod.fst) r c = workEntry w r c := by
  rw [matrixEntry, getD_map_fst, workEntry_eq]

section
variable {F : Type} [Field F] {φ : Byte ≃ F} {n : Nat}

theorem Inverted.map_fst {w₀ w : WorkMatrix} (h : Inverted φ n w₀ w) : w.map Prod.fst = identityMatrix n := by
  refine matrix_ext h.shaped.isSquareMatrix_fst (isSquareMatrix_identityMatrix n) fun r hr c hc => ?_
  rw [matrixEntry_map_fst, matrixEntry_identityMatrix hr hc]
  obtain hlt | rfl | hgt := Nat.lt_trichotomy r c
  · rw [if_neg hlt.ne]
    exact h.zeroAbove c hc (by omega) r hlt
  · rw [if_pos rfl]
    exact (h.unitUpper r hr).1
  · rw [if_neg hgt.ne']
    exact (h.unitUpper r hr).2 c hgt

theorem IsFieldIso.toMatrix_identityMatrix (hφ : IsFieldIso φ) (n : Nat) : toMatrix φ n (identityMatrix n) = 1 := by
  ext r c
  rw [toMatrix_apply, matrixEntry_identityMatrix r.2 c.2, apply_ite φ, hφ.map_one, hφ.map_zero, Matrix.one_apply]
  simp only [Fin.ext_iff]

/-- The vectors v and u solve a working matrix exactly if A v = I u. -/
theorem workSolves_iff (v u : Fin n → F) (w : WorkMatrix) : WorkSolves φ v u w ↔
    toMatrix φ n (w.map Prod.fst) *ᵥ v = toMatrix φ n (w.map Prod.snd) *ᵥ u := by
  have hrow (q : Fin n) : RowSolves φ v u (rowAt w q) ↔
      (toMatrix φ n (w.map Prod.fst) *ᵥ v) q = (toMatrix φ n (w.map Prod.snd) *ᵥ u) q := by
    rw [RowSolves, ← getD_map_fst, ← getD_map_snd]
    rfl
  exact ⟨fun h => funext fun q => (hrow q).mp (h q q.2), fun h q hq => (hrow ⟨q, hq⟩).mpr (congrFun h _)⟩

theorem IsFieldIso.inverted_of_invertWork (hφ : IsFieldIso φ) {a : Machine.Matrix} {w : WorkMatrix}
    (ha : IsSquareMatrix n a) (h : invertWork n a = some w) : Inverted φ n (List.zip a (identityMatrix n)) w := by
  unfold invertWork at h
  rw [List.range_eq_range'] at h
  split at h
  · cases h
  · rename_i hforward
    cases h
    exact (hφ.eliminated_of_forwardEliminate (Nat.zero_add n) (workShaped_zip ha (isSquareMatrix_identityMatrix n))
      (zeroBelow_zero n _) (unitUpper_zero _) hforward).backSubstitute hφ

/-- The second half is the inverse: for every u the vector it takes u to solves A v = u. -/
theorem IsFieldIso.toMatrix_mul_of_inverted (hφ : IsFieldIso φ) {a : Machine.Matrix} {w : WorkMatrix}
    (ha : IsSquareMatrix n a) (h : Inverted φ n (List.zip a (identityMatrix n)) w) :
    toMatrix φ n a * toMatrix φ n (w.map Prod.snd) = 1 := by
  have hidentity := isSquareMatrix_identityMatrix n
  refine Matrix.ext_of_mulVec_single fun c => ?_
  have hsolves : WorkSolves φ (toMatrix φ n (w.map Prod.snd) *ᵥ Pi.single c 1) (Pi.single c 1) w := by
    rw [workSolves_iff, h.map_fst, hφ.toMatrix_identityMatrix, Matrix.one_mulVec]
  have hstart := h.solves _ _ hsolves
  rw [workSolves_iff, List.map_fst_zip (ha.1.trans hidentity.1.symm).le, List.map_snd_zip (hidentity.1.trans ha.1.symm).le,
    hφ.toMatrix_identityMatrix, Matrix.one_mulVec, Matrix.mulVec_mulVec] at hstart
  rw [hstart, Matrix.one_mulVec]

end

theorem exists_invertWork_of_invertMatrix {n : Nat} {a inv : Machine.Matrix} (h : invertMatrix n a = some inv) :
    ∃ w, invertWork n a = some w ∧ inv = w.map Prod.snd := by
  unfold invertMatrix at h
  split at h
  · cases h
  · rename_i w hwork
    cases h
    exact ⟨w, hwork, rfl⟩

section
variable {n : Nat} {a inv : Machine.Matrix} (ha : IsSquareMatrix n a) (h : invertMatrix n a = some inv)
include ha h

theorem IsFieldIso.toMatrix_mul_inverse {F : Type} [Field F] {φ : Byte ≃ F} (hφ : IsFieldIso φ) :
    toMatrix φ n a * toMatrix φ n inv = 1 := by
  obtain ⟨w, hwork, rfl⟩ := exists_invertWork_of_invertMatrix h
  exact hφ.toMatrix_mul_of_inverted ha (hφ.inverted_of_invertWork ha hwork)

theorem productIsIdentity_inverse : ProductIsIdentity n a inv ∧ ProductIsIdentity n inv a := by
  obtain ⟨F, _, φ, hφ⟩ := exists_isFieldIso
  have hmul := hφ.toMatrix_mul_inverse ha h
  rw [hφ.productIsIdentity_iff, hφ.productIsIdentity_iff]
  exact ⟨hmul, mul_eq_one_comm.mp hmul⟩

end

/-- Settles O19: elimination loses no equation and leaves the identity. -/
theorem invertReturnsTheInverse : Obligations.InvertReturnsTheInverse := by
  unfold Obligations.InvertReturnsTheInverse
  intro n a ha
  refine ⟨fun inv h => ⟨isSquareMatrix_of_invertMatrix_eq_some ha h, productIsIdentity_inverse ha h⟩, fun w h => ?_⟩
  obtain ⟨F, _, φ, hφ⟩ := exists_isFieldIso
  exact (hφ.inverted_of_invertWork ha h).map_fst

/-- SINGULAR leaves no right inverse (42_matinv.md R152). -/
theorem not_productIsIdentity_of_singular {n : Nat} {a : Machine.Matrix} (ha : IsSquareMatrix n a)
    (h : invertMatrix n a = none) (b : Machine.Matrix) : ¬ProductIsIdentity n a b := by
  obtain ⟨F, _, φ, hφ⟩ := exists_isFieldIso
  rw [hφ.productIsIdentity_iff]
  intro hmul
  have hdet := congrArg Matrix.det hmul
  rw [Matrix.det_mul, hφ.det_eq_zero_of_invertMatrix_none ha h, zero_mul, Matrix.det_one] at hdet
  exact zero_ne_one hdet

/-- Settles O20: SINGULAR has determinant 0, and any other answer is an inverse. -/
theorem invertIsSingularExactlyWhenNoInverseExists : Obligations.InvertIsSingularExactlyWhenNoInverseExists := by
  unfold Obligations.InvertIsSingularExactlyWhenNoInverseExists
  refine fun n a ha => ⟨fun h b _ => not_productIsIdentity_of_singular ha h b, fun hnone => ?_⟩
  refine Option.eq_none_iff_forall_not_mem.mpr fun inv h => ?_
  exact hnone inv (isSquareMatrix_of_invertMatrix_eq_some ha h) (productIsIdentity_inverse ha h).1

theorem toMatrix_injective {F : Type} {φ : Byte ≃ F} {n : Nat} {a b : Machine.Matrix} (ha : IsSquareMatrix n a)
    (hb : IsSquareMatrix n b) (h : toMatrix φ n a = toMatrix φ n b) : a = b :=
  matrix_ext ha hb fun r hr c hc => φ.injective (congrFun (congrFun h ⟨r, hr⟩) ⟨c, hc⟩)

/-- Settles O21: the inverse is not singular, as A is its right inverse, and its inverse can only be A. -/
theorem invertingTwiceGivesTheMatrixBack : Obligations.InvertingTwiceGivesTheMatrixBack := by
  unfold Obligations.InvertingTwiceGivesTheMatrixBack
  intro n a inv ha h
  have hinv := isSquareMatrix_of_invertMatrix_eq_some ha h
  cases hagain : invertMatrix n inv with
  | none => exact absurd (productIsIdentity_inverse ha h).2 (not_productIsIdentity_of_singular hinv hagain a)
  | some b =>
    obtain ⟨F, _, φ, hφ⟩ := exists_isFieldIso
    have hleft := hφ.toMatrix_mul_inverse ha h
    have hright := hφ.toMatrix_mul_inverse hinv hagain
    rw [toMatrix_injective ha (isSquareMatrix_of_invertMatrix_eq_some hinv hagain) (left_inv_eq_right_inv hleft hright)]

end Sys2Proof
end

section
/-! PROOF. The host's side once more (10_state.md; 20_memory.md R80; 70_reset_and_hazards.md): the encoder, the fields of the
registers, the table of DMEM accesses, races, reset, and the end of a run. -/

namespace Sys2Proof

/-! ### Encoding (30_encoding.md R101, R103) -/

theorem encode_mem_opcodeTable (i : Instr) : (encode i, i) ∈ opcodeTable := by
  cases i <;> decide

/-- Every command has one row. -/
theorem eq_encode_of_mem_opcodeTable : ∀ row ∈ opcodeTable, row.1 = encode row.2 := by decide

/-- Settles O2: the rows of the opcode map are the words that `encode` gives. -/
theorem decodeAndEncodeAgree : Obligations.DecodeAndEncodeAgree := by
  unfold Obligations.DecodeAndEncodeAgree
  intro w i
  rw [decode_eq_instr_iff]
  refine ⟨eq_encode_of_mem_opcodeTable (w, i), fun h => ?_⟩
  rw [h]
  exact encode_mem_opcodeTable i

end Sys2Proof

namespace Sys2Proof.Machine

/-! ### The overlap rule (20_memory.md R79) -/

/-- Two regions at different places of the list share a byte. -/
theorem not_pairwise_meets_iff (rs : List Region) : (¬rs.Pairwise fun r q => r.meets q = false) ↔
    ∃ a, ∃ p q : Nat, p < q ∧ ∃ rp rq : Region, rs[p]? = some rp ∧ rs[q]? = some rq ∧
      rp.contains a = true ∧ rq.contains a = true := by
  simp only [List.pairwise_iff_getElem, not_forall, Bool.not_eq_false, Region.meets_iff]
  refine ⟨fun ⟨p, q, hp, hq, hpq, a, hpa, hqa⟩ => ⟨a, p, q, hpq, rs[p], rs[q], List.getElem?_eq_getElem hp,
    List.getElem?_eq_getElem hq, hpa, hqa⟩, fun ⟨a, p, q, hpq, rp, rq, hrp, hrq, hpa, hqa⟩ => ?_⟩
  obtain ⟨hp, rfl⟩ := List.getElem?_eq_some_iff.mp hrp
  obtain ⟨hq, rfl⟩ := List.getElem?_eq_some_iff.mp hrq
  exact ⟨p, q, hp, hq, hpq, a, hpa, hqa⟩

/-- Settles O40: the test fails where some written region meets a read one or a later written one. -/
theorem overlapMeansASharedByte : Obligations.OverlapMeansASharedByte := by
  unfold Obligations.OverlapMeansASharedByte
  intro fp
  rw [← Bool.not_eq_false, fp.overlaps_eq_false_iff, not_and_or, not_pairwise_meets_iff, exists_or]
  simp only [not_forall, not_not, and_comm]

/-! ### STATUS (10_state.md R26) -/

/-- Appending below a word of w bits shifts it by the width of what is appended. -/
theorem toNat_append_eq {m n : Nat} (x : BitVec m) (y : BitVec n) : (x ++ y).toNat = 2 ^ n * x.toNat + y.toNat := by
  rw [BitVec.toNat_append, Nat.shiftLeft_eq, Nat.mul_comm, Nat.two_pow_add_eq_or_of_lt y.isLt]

/-- Settles O49: STATUS is its fields appended, each at the width of those below it. -/
theorem statusWordHasTheBitsOfItsFields : Obligations.StatusWordHasTheBitsOfItsFields := by
  unfold Obligations.StatusWordHasTheBitsOfItsFields
  refine ⟨fun s => ?_, rfl, rfl, rfl, rfl, rfl, rfl, rfl, rfl, rfl⟩
  change s.statusWord.toNat = _
  simp only [State.statusWord, toNat_append_eq, BitVec.toNat_ofBool]
  simp
  omega

/-! ### The parameter registers (10_state.md R22-R48) -/

theorem toNat_setWidth_word {n : Nat} (h : n ≤ 32) (x : BitVec n) : (x.setWidth 32).toNat = x.toNat :=
  BitVec.toNat_setWidth_of_le h

/-- A field of n bits reads back the value written, cut to n bits. -/
theorem toNat_setWidth_setWidth {n : Nat} (h : n ≤ 32) (v : Word) : ((v.setWidth n).setWidth 32).toNat = v.toNat % 2 ^ n := by
  rw [toNat_setWidth_word h, BitVec.toNat_setWidth]

theorem toNat_word_mod (v : Word) : v.toNat = v.toNat % 2 ^ 32 := (Nat.mod_eq_of_lt v.isLt).symm

/-- The registers a host write changes the field of, with the widths of the fields (10_state.md R25, R29-R45). -/
def fieldWidths : List (Reg × Nat) :=
  [(.ctrl, 1), (.k, 9), (.m, 9), (.wsBase, 32), (.shardTbl, 32), (.size, 32), (.src, 32), (.dst, 32), (.scalar, 8),
   (.coefPtr, 32), (.idsPtr, 32), (.destId, 8), (.matN, 9), (.opa, 8), (.opb, 8), (.erasure0, 32), (.erasure1, 32),
   (.erasure2, 32), (.erasure3, 32), (.erasure4, 32), (.erasure5, 32), (.erasure6, 32), (.erasure7, 32)]

theorem toNat_irqEn_field (v : Word) : ((BitVec.ofBool (v.getLsbD 0)).setWidth 32).toNat = v.toNat % 2 ^ 1 := by
  rw [toNat_setWidth_word (by decide), BitVec.toNat_ofBool, BitVec.getLsbD, Nat.toNat_testBit]
  simp

theorem readReg_writeReg_self : ∀ row ∈ fieldWidths, ∀ (s : State) (v : Word),
    ((s.writeReg row.1 v).readReg row.1).toNat = v.toNat % 2 ^ row.2 := by
  have count (_ : State) (v : Word) := toNat_setWidth_setWidth (n := 9) (by decide) v
  have byte (_ : State) (v : Word) := toNat_setWidth_setWidth (n := 8) (by decide) v
  have word (_ : State) (v : Word) := toNat_word_mod v
  simp only [fieldWidths, List.forall_mem_cons]
  exact ⟨fun _ => toNat_irqEn_field, count, count, word, word, word, word, word, byte, word, word, byte, count, byte, byte,
    word, word, word, word, word, word, word, word, List.forall_mem_nil _⟩

/-- A write to a register with a field touches neither what another register reads, but for WS_SIZE, nor the running command,
nor DMEM. -/
theorem readReg_writeReg_of_ne (s : State) (v : Word) {r q : Reg} (hstatus : r ≠ .status) (hcmd : r ≠ .cmd) (hne : q ≠ r)
    (hsize : q ≠ .wsSize) : (s.writeReg r v).readReg q = s.readReg q := by
  cases r <;> cases q <;> first | rfl | contradiction

theorem writeReg_keeps_running_dmem (s : State) (v : Word) {r : Reg} (hstatus : r ≠ .status) (hcmd : r ≠ .cmd) :
    (s.writeReg r v).running = s.running ∧ (s.writeReg r v).dmem = s.dmem := by
  cases r with
  | status => exact absurd rfl hstatus
  | cmd => exact absurd rfl hcmd
  | _ => exact ⟨rfl, rfl⟩

theorem ne_status_cmd_of_mem_fieldWidths : ∀ row ∈ fieldWidths, row.1 ≠ .status ∧ row.1 ≠ .cmd := by decide

/-- Settles O51: each register reads its field, and a write reaches that field alone. -/
theorem writableRegistersKeepTheirFieldBits : Obligations.WritableRegistersKeepTheirFieldBits := by
  unfold Obligations.WritableRegistersKeepTheirFieldBits
  refine ⟨fun s => ?_, fun row hrow s v => ?_⟩
  · have count (x : Count) := toNat_setWidth_word (by decide) x
    have byte (x : Byte) := toNat_setWidth_word (by decide) x
    exact ⟨(toNat_setWidth_word (by decide) _).trans (BitVec.toNat_ofBool _), count _, count _, rfl, rfl, rfl, rfl, rfl,
      byte _, rfl, rfl, byte _, count _, byte _, byte _, rfl, rfl, rfl, rfl, rfl, rfl, rfl, rfl, count _, count _, rfl⟩
  · obtain ⟨hstatus, hcmd⟩ := ne_status_cmd_of_mem_fieldWidths row hrow
    exact ⟨readReg_writeReg_self row hrow s v, fun q => readReg_writeReg_of_ne s v hstatus hcmd,
      writeReg_keeps_running_dmem s v hstatus hcmd⟩

/-! ### Little-endian words (20_memory.md R74, R76) -/

/-- A byte put above a number of i bits. -/
theorem toNat_or_shiftLeft_byte {x : Word} {i : Nat} (hx : x.toNat < 2 ^ i) (hi : i + 8 ≤ 32) (b : Byte) :
    (x ||| b.setWidth 32 <<< i).toNat = x.toNat + 2 ^ i * b.toNat := by
  have hfits : b.toNat <<< i < 2 ^ 32 := by
    rw [Nat.shiftLeft_eq]
    calc b.toNat * 2 ^ i < 2 ^ 8 * 2 ^ i := Nat.mul_lt_mul_of_pos_right b.isLt (Nat.two_pow_pos i)
      _ = 2 ^ (i + 8) := by rw [← pow_add, Nat.add_comm]
      _ ≤ 2 ^ 32 := Nat.pow_le_pow_right (by decide) hi
  rw [BitVec.toNat_or, BitVec.toNat_shiftLeft, toNat_setWidth_word (by decide), Nat.mod_eq_of_lt hfits, Nat.shiftLeft_eq,
    Nat.mul_comm, Nat.or_comm, ← Nat.two_pow_add_eq_or_of_lt hx, Nat.add_comm]

theorem Memory.toNat_read32 (mem : Memory) (a : Nat) : (mem.read32 a).toNat =
    (mem.read a).toNat + 256 * (mem.read (a + 1)).toNat + 65536 * (mem.read (a + 2)).toNat +
      16777216 * (mem.read (a + 3)).toNat := by
  have h0 := toNat_setWidth_word (by decide) (mem.read a)
  have h1 := toNat_or_shiftLeft_byte (x := (mem.read a).setWidth 32) (i := 8) (by omega) (by decide) (mem.read (a + 1))
  have h2 := toNat_or_shiftLeft_byte (i := 16) (by rw [h1]; omega) (by decide) (mem.read (a + 2))
  have h3 := toNat_or_shiftLeft_byte (i := 24) (by rw [h2]; omega) (by decide) (mem.read (a + 3))
  rw [Memory.read32, h3, h2, h1, h0]
  norm_num

/-- Settles O55, byte by byte. -/
theorem shardTableEntriesAreLittleEndian : Obligations.ShardTableEntriesAreLittleEndian := by
  unfold Obligations.ShardTableEntriesAreLittleEndian
  refine fun mem a => ⟨mem.toNat_read32 a, fun o i h => ?_⟩
  rw [Operands.shardAddr, h]

/-! ### The host's DMEM accesses (20_memory.md R80) -/

section
variable {s : State} {a : Nat}

theorem State.hostMemWrite_of_unpopulated (h : s.memBytes ≤ a) (v : Byte) : s.hostMemWrite a v = s := if_pos h

theorem State.hostMemWrite_of_outside (ha : a < s.memBytes)
    (hout : ∀ r, s.running = some r → inRegions (r.fp.reads ++ r.fp.writes) a = false) (v : Byte) :
    s.hostMemWrite a v = { s with dmem := s.dmem.write a v } := by
  obtain ⟨-, hle⟩ | ⟨-, -, r, hr, hin⟩ | ⟨heq, -⟩ := s.hostMemWrite_cases a v
  · omega
  · exact absurd hin (Bool.eq_false_iff.mp (hout r hr))
  · exact heq

theorem State.hostMemWrite_of_inside {r : Running} (ha : a < s.memBytes) (hr : s.running = some r)
    (hin : inRegions (r.fp.reads ++ r.fp.writes) a = true) (v : Byte) :
    s.hostMemWrite a v = { s with hostRace := true } := by
  obtain ⟨-, hle⟩ | ⟨heq, -⟩ | ⟨-, -, hout⟩ := s.hostMemWrite_cases a v
  · omega
  · exact heq
  · exact absurd hin (Bool.eq_false_iff.mp (hout r hr))

theorem State.inRegions_pendingWrites_iff : inRegions s.pendingWrites a = true ↔
    (∃ r, s.running = some r ∧ inRegions r.fp.writes a = true) ∨ inRegions s.aborted a = true := by
  cases hr : s.running with
  | none => simp [s.pendingWrites_of_idle hr]
  | some r => simp [s.pendingWrites_of_running r hr]

theorem State.hostMemRead_of_any (h : s.memBytes ≤ a ∨ inRegions s.pendingWrites a = true) :
    s.hostMemRead a = { s with dmemData := Config.freeByte s.freeCount, freeCount := s.freeCount + 1 } := by
  obtain ⟨heq, -⟩ | ⟨-, hlt, hout⟩ := s.hostMemRead_cases a
  · exact heq
  · exact absurd h (not_or.mpr ⟨Nat.not_le.mpr hlt, Bool.eq_false_iff.mp hout⟩)

theorem State.hostMemRead_of_current (ha : a < s.memBytes) (h : ¬inRegions s.pendingWrites a = true) :
    s.hostMemRead a = { s with dmemData := s.dmem.read a } := by
  obtain ⟨-, hle | hin⟩ | ⟨heq, -⟩ := s.hostMemRead_cases a
  · omega
  · exact absurd hin h
  · exact heq

end

/-- Settles O56, row by row of the table. -/
theorem hostDmemAccessesFollowTheTable : Obligations.HostDmemAccessesFollowTheTable := by
  unfold Obligations.HostDmemAccessesFollowTheTable
  refine ⟨fun s a ha => ⟨fun v hout => ?_, fun v r hr hin => ?_, fun hwrites haborted => ?_, fun r hr hin => ?_,
    fun hin => ?_⟩, fun s a ha => ⟨fun v => ?_, ?_⟩⟩
  · exact ⟨_, congrArg _ (State.hostMemWrite_of_outside ha hout v), s.dmem.read_write_self _ v,
      fun b => s.dmem.read_write_of_ne v⟩
  · exact ⟨_, congrArg _ (State.hostMemWrite_of_inside ha hr hin v), rfl⟩
  · refine congrArg _ (State.hostMemRead_of_current ha ?_)
    rw [State.inRegions_pendingWrites_iff]
    rintro (⟨r, hr, hin⟩ | hin)
    · exact Bool.eq_false_iff.mp (hwrites r hr) hin
    · exact Bool.eq_false_iff.mp haborted hin
  · exact ⟨_, congrArg _ (State.hostMemRead_of_any (.inr (State.inRegions_pendingWrites_iff.mpr (.inl ⟨r, hr, hin⟩))))⟩
  · exact ⟨_, congrArg _ (State.hostMemRead_of_any (.inr (State.inRegions_pendingWrites_iff.mpr (.inr hin))))⟩
  · exact congrArg _ (State.hostMemWrite_of_unpopulated ha v)
  · exact ⟨_, congrArg _ (State.hostMemRead_of_any (.inl ha))⟩

/-! ### Races and the schedule -/

/-- A host operation keeps a race, and every host operation leaves the schedule to the step. -/
theorem State.hostTurn_keeps {s t : State} {op : HostOp} (h : s.hostTurn op = .next t) :
    (s.hostRace = true → t.hostRace = true) ∧ t.schedule = s.schedule := by
  cases op with
  | regWrite offset v =>
    obtain ⟨rfl, -⟩ | ⟨-, hwrite⟩ := State.hostTurn_regWrite_cases h
    · exact ⟨id, rfl⟩
    · cases hwrite with
      | _ => exact ⟨id, rfl⟩
  | memWrite a v =>
    cases h
    obtain ⟨heq, -⟩ | ⟨heq, -⟩ | ⟨heq, -⟩ := s.hostMemWrite_cases a.toNat v <;> rw [heq]
    · exact ⟨id, rfl⟩
    · exact ⟨fun _ => rfl, rfl⟩
    · exact ⟨id, rfl⟩
  | memRead a =>
    cases h
    obtain ⟨heq, -⟩ | ⟨heq, -⟩ := s.hostMemRead_cases a.toNat <;> rw [heq] <;> exact ⟨id, rfl⟩
  | regRead | rstAssert | rstRelease | reset => cases h; exact ⟨id, rfl⟩

/-- What every command leaves as it was, and the schedule (10_state.md R54, R57). -/
theorem Ends.keeps {i : Instr} {s t : State} (h : Ends i s t) : t.hostRace = s.hostRace ∧ t.rstLow = s.rstLow ∧
    t.schedule = s.schedule ∧ t.abortedCommand = s.abortedCommand := by
  cases h with
  | refused => exact ⟨rfl, rfl, rfl, rfl⟩
  | ran => exact ⟨rfl, rfl, rfl, rfl⟩

/-- Settles O57: commands leave the race alone, host operations keep it, and a step looks at it first. -/
theorem nothingClearsTheRaceFault : Obligations.NothingClearsTheRaceFault := by
  unfold Obligations.NothingClearsTheRaceFault
  exact ⟨fun i s t h => (exec_ends h).keeps.1, fun op s t h => (State.hostTurn_keeps h).1, fun s => step_of_race⟩

/-! ### Reset (10_state.md R60; 70_reset_and_hazards.md R220, R221) -/

/-- After the reset event every register reads as after a first reset. -/
theorem readReg_resetEvent (s : State) (r : Reg) : s.resetEvent.readReg r = State.reset.readReg r := by
  cases r <;> rfl

theorem readReg_reset : ∀ r : Reg, r ≠ .id → State.reset.readReg r = 0#32 := by
  intro r hr
  cases r with
  | id => exact absurd rfl hr
  | _ => rfl

/-- Settles O58, from the registers of a first reset and the fields of the reset event. -/
theorem resetGivesTheResetValues : Obligations.ResetGivesTheResetValues := by
  unfold Obligations.ResetGivesTheResetValues
  exact fun s => ⟨rfl, fun r hr => (readReg_resetEvent s r).trans (readReg_reset r hr), rfl, rfl, rfl, rfl, rfl, rfl, rfl,
    rfl, rfl⟩

/-- Settles O59: the reset event draws the bytes of FP.W of the command it aborts. -/
theorem resetKeepsDmemOutsideTheAbortedFootprint : Obligations.ResetKeepsDmemOutsideTheAbortedFootprint := by
  unfold Obligations.ResetKeepsDmemOutsideTheAbortedFootprint
  intro s haborted
  have hdmem : s.resetEvent.dmem = s.dmem.fillAny s.freeCount s.pendingWrites := by rw [s.resetEvent_eq]
  refine ⟨fun hidle => ?_, fun r hr => ?_, rfl⟩
  · rw [hdmem, s.pendingWrites_of_idle hidle, haborted, Memory.fillAny_nil]
  · rw [hdmem, s.pendingWrites_of_running r hr, haborted, List.append_nil]
    exact Memory.fillAny_sameOutside _ _ _

/-- Settles O60, from the first case of each turn. -/
theorem portAndEngineAreDeadWhileResetIsLow : Obligations.PortAndEngineAreDeadWhileResetIsLow := by
  unfold Obligations.PortAndEngineAreDeadWhileResetIsLow
  refine fun s hrst => ⟨fun o v => ?_, fun o => ?_, State.engineTurn_of_reset hrst⟩
  · rw [State.hostTurn, hrst, if_pos rfl]
  · simp only [State.hostTurn, hrst, if_true]

/-! ### Completion and the end of a run (60_exceptions.md R194; 70_reset_and_hazards.md R229, R230) -/

theorem State.CompletesWith.done {s t : State} {code : ErrCode} (h : s.CompletesWith code t) : t.status.done = true := by
  rw [h.1, Status.completed_done]

theorem State.CompletesWith.err_iff {s t : State} {code : ErrCode} (h : s.CompletesWith code t) :
    t.status.err = true ↔ t.status.errCode ≠ .none := by
  rw [h.1, Status.completed_err, Status.completed_errCode, bne_iff_ne]

/-- With a command running and rst_n high the engine's turn completes it. -/
theorem State.engineTurn_completes {s : State} {r : Running} (hr : s.running = some r) (hrst : s.rstLow = false) :
    ∃ t, s.engineTurn = .next t ∧ t.running = none ∧ t.status.done = true ∧ t.hostRace = s.hostRace ∧
      t.rstLow = s.rstLow ∧ t.schedule = s.schedule ∧ t.abortedCommand = s.abortedCommand := by
  cases hi : decode r.snap.word with
  | instr i =>
    obtain ⟨t, h⟩ := exec_total i s
    obtain ⟨code, -, hdone⟩ := exec_completesWith h
    exact ⟨t, (State.engineTurn_of_instr hrst hr hi).trans h, (exec_ends h).running, hdone.done, (exec_ends h).keeps⟩
  | rejected why =>
    have hillegal : ∀ i, decode r.snap.word ≠ .instr i := fun i heq => nomatch hi.symm.trans heq
    exact ⟨_, State.engineTurn_of_illegal hrst hr hillegal, rfl, rfl, rfl, rfl, rfl, rfl⟩

theorem State.statusWord_getLsbD_done (s : State) : s.statusWord.getLsbD 1 = s.status.done := by
  simp only [State.statusWord, BitVec.getLsbD_append]
  simp

/-- A read of STATUS shows DONE, unless rst_n is low and the port reads 0. -/
theorem State.hostTurn_readStatus {s t : State} (h : s.hostTurn (.regRead 0x008#12) = .next t)
    (hdone : t.portData.getLsbD 1 = true) :
    s.rstLow = false ∧ s.status.done = true ∧ t = { s with portData := s.statusWord } := by
  obtain hrst | hrst := Bool.eq_false_or_eq_true s.rstLow
  · simp only [State.hostTurn, hrst, if_true] at h
    cases h
    simp at hdone
  · have hstatus : registerAt 0x008#12 = some .status := by decide
    rw [s.hostTurn_regRead _ hrst, s.readOffset_of_some hstatus] at h
    cases h
    exact ⟨hrst, s.statusWord_getLsbD_done.symm.trans hdone, rfl⟩

/-- DONE is clear while BUSY (10_state.md R26). -/
theorem State.Inv.idle_of_done {s : State} (h : s.Inv) (hdone : s.status.done = true) : s.running = none := by
  cases hr : s.running with
  | none => rfl
  | some r =>
    have hbusy : s.busy = true := by rw [State.busy, hr, Option.isSome_some]
    exact absurd hdone (Bool.eq_false_iff.mp (h.busyStatus hbusy).1)

theorem State.hostTurn_writeCmd {s t : State} {w : Word} (h : s.hostTurn (.regWrite 0x00C#12 w) = .next t)
    (hrst : s.rstLow = false) : t.running ≠ none := by
  have hcmd : registerAt 0x00C#12 = some .cmd := by decide
  rw [s.hostTurn_regWrite _ w hrst, s.writeOffset_of_some w hcmd] at h
  cases h
  cases hr : s.running with
  | none =>
    rw [State.writeReg_cmd_of_idle w hr, State.launch_running]
    nofun
  | some r =>
    rw [State.writeReg_cmd_of_busy w (by rw [State.busy, hr, Option.isSome_some])]
    exact fun hidle => nomatch hr.symm.trans hidle

theorem step_of_host {s t : State} {op : HostOp} {rest : List Turn} (hturns : s.schedule = .host op :: rest)
    (h : step s = .next t) : { s with schedule := rest }.hostTurn op = .next t := by
  rwa [step_of_no_race (no_race_of_step h), State.nextTurn_of_host hturns] at h

/-- Without a host turn an idle machine takes engine turns off the schedule and does nothing else. -/
theorem step_of_idle {s t : State} (hidle : s.running = none) (hturns : ∀ u ∈ s.schedule, u = .engine)
    (h : step s = .next t) : t = { s with schedule := s.schedule.tail } := by
  cases step_turn h with
  | engine hturn =>
    cases (State.engineTurn_of_idle (s := { s with schedule := s.schedule.tail }) hidle).symm.trans hturn
    rfl
  | @host op rest hhost =>
    exact nomatch hturns (.host op) (by simp [hhost])

/-- The end of a run (70_reset_and_hazards.md R230; log 22). -/
theorem endDefined_of_readStatus {s t : State} {rest : List Turn} (hinv : s.Inv) (haborted : s.abortedCommand = false)
    (hturns : s.schedule = .host (.regRead 0x008#12) :: rest) (hengine : ∀ u ∈ rest, u = .engine) (h : step s = .next t)
    (hdone : t.portData.getLsbD 1 = true) : EndDefined s t := by
  obtain ⟨hrst, hstatus, heq⟩ := State.hostTurn_readStatus (step_of_host hturns h) hdone
  have hrace := no_race_of_step h
  refine ⟨⟨_, rest, hturns, hengine, h⟩, ?_, ?_, ?_, ?_⟩ <;> rw [heq]
  · exact hrst
  · exact hinv.idle_of_done hstatus
  · exact haborted
  · exact hrace

theorem EndDefined.schedule {s t : State} (h : EndDefined s t) : ∀ u ∈ t.schedule, u = .engine := by
  obtain ⟨op, rest, hturns, hengine, hstep⟩ := h.lastStep
  rwa [(State.hostTurn_keeps (step_of_host hturns hstep)).2]

/-- Settles O6: every command answers a completion, the engine's turn is one, and a run ends with a STATUS read and not with a
CMD write. -/
theorem everyCommandCompletes : Obligations.EveryCommandCompletes := by
  unfold Obligations.EveryCommandCompletes
  refine ⟨fun i s => ?_, fun s r hr hrace hrst hempty => ?_, fun s t rest hinv haborted hturns hengine h hdone =>
    endDefined_of_readStatus hinv haborted hturns hengine h hdone, fun s t w rest hrst hturns h hend => ?_,
    fun s t u hend => step_of_idle hend.idle hend.schedule⟩
  · obtain ⟨t, h⟩ := exec_total i s
    obtain ⟨code, -, hdone⟩ := exec_completesWith h
    exact ⟨t, h, (exec_ends h).running, hdone.done, hdone.err_iff, hdone.overrun⟩
  · obtain ⟨t, h, hidle, hdone, hrace', hrst', hschedule, haborted⟩ := State.engineTurn_completes hr hrst
    refine ⟨t, ?_, hidle, hdone, hrace'.trans hrace, hrst'.trans hrst, hschedule.trans hempty, haborted⟩
    rw [step_of_no_race hrace, State.nextTurn_of_empty hempty, h]
  · exact State.hostTurn_writeCmd (s := { s with schedule := rest }) (step_of_host hturns h) hrst hend.idle

end Sys2Proof.Machine
end

section
/-! PROOF. DECODE past its checks (44_codec.md R172-R179): its footprint, address by address. -/

namespace Sys2Proof.Machine

/-! ### Which shards are erased -/

theorem Operands.erasedData_isEmpty_eq_false_iff {o : Operands} :
    o.erasedData.isEmpty = false ↔ ∃ i < o.ck, o.params.erased i = true := by
  simp [Operands.erasedData]

theorem Operands.erasedCoding_isEmpty_eq_false_iff {o : Operands} :
    o.erasedCoding.isEmpty = false ↔ ∃ i < o.cm, o.params.erased (o.ck + i) = true := by
  simp [Operands.erasedCoding]

theorem Operands.erasedData_isEmpty_of_none {o : Operands} (h : ∀ i < o.ck, o.params.erased i = false) :
    o.erasedData.isEmpty = true := by
  simpa [Operands.erasedData] using h

theorem Operands.mem_erasedShards_iff {o : Operands} {sh : Nat} :
    sh ∈ o.erasedShards ↔ sh < o.ck + o.cm ∧ o.params.erased sh = true := by
  simp [Operands.erasedShards]

/-! ### The footprint on addresses (44_codec.md R179) -/

theorem any_len_pos_iff (rs : List Region) :
    rs.any (fun r => decide (0 < r.len)) = true ↔ ∃ b, inRegions rs b = true := by
  refine ⟨fun h => ?_, fun ⟨b, hb⟩ => ?_⟩
  · obtain ⟨r, hr, hpos⟩ := List.any_eq_true.mp h
    exact ⟨r.base, inRegions_of_mem hr ((r.contains_iff _).mpr ⟨le_rfl, Nat.lt_add_of_pos_right (of_decide_eq_true hpos)⟩)⟩
  · obtain ⟨r, hr, hcontains⟩ := List.any_eq_true.mp hb
    obtain ⟨hlo, hhi⟩ := (r.contains_iff b).mp hcontains
    exact List.any_eq_true.mpr ⟨r, hr, decide_eq_true (by omega)⟩

section
variable (o : Operands) (mem : Memory) (a : Nat)

/-- The scratch regions stand one after the other (41_coder.md R141). -/
theorem Operands.inRegions_scratchRegions_iff : inRegions o.scratchRegions a = true ↔
    o.coder.ws.toNat ≤ a ∧ a < o.coder.ws.toNat + (2 * o.ck ^ 2 + o.ck) := by
  simp only [Operands.scratchRegions, inRegions_cons, inRegions_nil, Bool.or_false, Bool.or_eq_true, Region.contains_iff,
    Operands.tmpmatRegion, Operands.dmIdsRegion, Operands.decodingRegion, Operands.tmpmatBase, Operands.dmIdsBase,
    Operands.decodingBase, ← pow_two]
  omega

theorem Operands.shardRegion_contains_iff (sh : Nat) : (o.shardRegion mem sh).contains a = true ↔
    o.shardAddr mem sh ≤ a ∧ a < o.shardAddr mem sh + o.len :=
  Region.contains_iff _ _

theorem inRegions_decodeWrites_iff : inRegions (decodeWrites o mem) a = true ↔
    (∃ sh < o.ck + o.cm, o.params.erased sh = true ∧ (o.shardRegion mem sh).contains a = true) ∨
      (o.erasedData.isEmpty = false ∧ inRegions o.scratchRegions a = true) := by
  have hshards : inRegions (o.erasedShards.map (o.shardRegion mem)) a = true ↔
      ∃ sh < o.ck + o.cm, o.params.erased sh = true ∧ (o.shardRegion mem sh).contains a = true := by
    simp [inRegions, Operands.erasedShards]
  rw [decodeWrites, inRegions_append, Bool.or_eq_true, hshards]
  cases o.erasedData.isEmpty with
  | true => simp
  | false => simp [Operands.scratchRegions]

theorem Operands.readsShard_iff (sh : Nat) : o.readsShard sh = true ↔ o.params.erased sh = false ∧
    ((o.erasedData.isEmpty = false ∧ sh ∈ o.survivors) ∨ (sh < o.ck ∧ o.erasedCoding.isEmpty = false)) := by
  simp [Operands.readsShard]

theorem inRegions_decodeReads_iff : inRegions (decodeFootprint o mem).reads a = true ↔
    o.tableRegion.contains a = true ∨
      ((∃ b, inRegions (decodeWrites o mem) b = true) ∧ o.cauchyRegion.contains a = true) ∨
      ∃ sh < o.ck + o.cm, o.readsShard sh = true ∧ (o.shardRegion mem sh).contains a = true := by
  have hcauchy : inRegions (if (decodeWrites o mem).any fun r => decide (0 < r.len) then [o.cauchyRegion] else []) a = true ↔
      (∃ b, inRegions (decodeWrites o mem) b = true) ∧ o.cauchyRegion.contains a = true := by
    rw [← any_len_pos_iff]
    split <;> simp [*, inRegions]
  have hshards : inRegions (((List.range (o.ck + o.cm)).filter o.readsShard).map (o.shardRegion mem)) a = true ↔
      ∃ sh < o.ck + o.cm, o.readsShard sh = true ∧ (o.shardRegion mem sh).contains a = true := by
    simp [inRegions]
  rw [decodeFootprint, inRegions_cons, inRegions_append, Bool.or_eq_true, Bool.or_eq_true, hcauchy, hshards]

/-- No two scratch regions share a byte. -/
theorem Operands.scratchRegions_pairwise : o.scratchRegions.Pairwise fun r q => r.meets q = false := by
  simp only [Operands.scratchRegions, List.pairwise_cons, List.forall_mem_cons, Region.meets, Operands.tmpmatRegion,
    Operands.dmIdsRegion, Operands.decodingRegion, Operands.tmpmatBase, Operands.dmIdsBase, Operands.decodingBase,
    ← pow_two, Bool.and_eq_false_iff, decide_eq_false_iff_not]
  refine ⟨⟨?_, ?_, nofun⟩, ⟨?_, nofun⟩, nofun, List.Pairwise.nil⟩ <;> omega

theorem meets_scratch_iff (r : Region) : (∀ q ∈ o.scratchRegions, r.meets q = false) ↔
    ∀ a, ¬(r.contains a = true ∧ inRegions o.scratchRegions a = true) := by
  simp only [Region.meets_eq_false_iff, inRegions, List.any_eq_true]
  exact ⟨fun h a ⟨hr, q, hq, hqa⟩ => h q hq a ⟨hr, hqa⟩, fun h q hq a ⟨hr, hqa⟩ => h a ⟨hr, q, hq, hqa⟩⟩

theorem erasedShards_pairwise_iff : ((o.erasedShards.map (o.shardRegion mem)).Pairwise fun r q => r.meets q = false) ↔
    ∀ sh < o.ck + o.cm, ∀ q < sh, o.params.erased sh = true → o.params.erased q = true →
      ∀ a, ¬((o.shardRegion mem sh).contains a = true ∧ (o.shardRegion mem q).contains a = true) := by
  rw [Operands.erasedShards, List.pairwise_map, List.pairwise_filter, pairwise_range_iff]
  refine forall₄_congr fun sh hsh q hq => ?_
  rw [Region.meets_eq_false_iff]
  exact ⟨fun h hsh hq a hw => h hq hsh a hw.symm, fun h hq hsh a hw => h hsh hq a hw.symm⟩

/-- A byte of a scratch region that is written. -/
def Operands.ScratchWrites (o : Operands) (a : Nat) : Prop :=
  o.erasedData.isEmpty = false ∧ inRegions o.scratchRegions a = true

theorem decodeFootprint_overlaps_iff : (decodeFootprint o mem).overlaps = false ↔
    (∀ a, ¬(inRegions (decodeFootprint o mem).reads a = true ∧ inRegions (decodeFootprint o mem).writes a = true)) ∧
      (∀ sh < o.ck + o.cm, ∀ q < sh, o.params.erased sh = true → o.params.erased q = true →
        ∀ a, ¬((o.shardRegion mem sh).contains a = true ∧ (o.shardRegion mem q).contains a = true)) ∧
      (∀ sh < o.ck + o.cm, o.params.erased sh = true →
        ∀ a, ¬((o.shardRegion mem sh).contains a = true ∧ o.ScratchWrites a)) := by
  rw [Footprint.overlaps_eq_false_iff]
  refine and_congr_right fun _ => ?_
  change (decodeWrites o mem).Pairwise _ ↔ _
  rw [decodeWrites, List.pairwise_append, erasedShards_pairwise_iff]
  refine and_congr_right fun _ => ?_
  unfold Operands.ScratchWrites
  cases hdata : o.erasedData.isEmpty with
  | true => simp
  | false =>
    have hscratch := o.scratchRegions_pairwise
    simp only [Bool.false_eq_true, if_false, true_and]
    change o.scratchRegions.Pairwise _ ∧ (∀ r ∈ _, ∀ q ∈ o.scratchRegions, _) ↔ _
    rw [and_iff_right hscratch, List.forall_mem_map]
    simp only [meets_scratch_iff, Operands.mem_erasedShards_iff, and_imp]

end

theorem State.footprint_decode_of_runs {s : State} (h : s.DecodeRuns) :
    s.footprint .decode = decodeFootprint s.operands s.dmem :=
  congrArg (Checked.footprint fun _ => decodeFootprint s.operands s.dmem) (s.decodeRuns_iff.mp h)

theorem State.decodeScratch_iff (s : State) (a : Nat) : s.DecodeScratch a ↔ s.operands.ScratchWrites a := by
  rw [Operands.ScratchWrites, Operands.erasedData_isEmpty_eq_false_iff, Operands.inRegions_scratchRegions_iff]
  rfl

/-- Settles O27: the regions of the footprint, address by address. -/
theorem decodeFootprintIsThatOfItsRule : Obligations.DecodeFootprintIsThatOfItsRule := by
  unfold Obligations.DecodeFootprintIsThatOfItsRule
  intro s o fp inShard hruns
  have hfp : fp = decodeFootprint o s.dmem := State.footprint_decode_of_runs hruns
  have hwrites : fp.writes = decodeWrites o s.dmem := congrArg Footprint.writes hfp
  refine ⟨fun a => ?_, fun a => ?_, ?_⟩
  · rw [hwrites, hfp, inRegions_decodeReads_iff]
    simp only [Operands.readsShard_iff, Operands.erasedData_isEmpty_eq_false_iff,
      Operands.erasedCoding_isEmpty_eq_false_iff, and_assoc, Operands.shardRegion_contains_iff]
    rw [Region.contains_iff, Region.contains_iff]
    simp only [Operands.tableRegion, Operands.cauchyRegion, Operands.cauchyBase, cauchyOffset, Nat.add_assoc]
    rfl
  · rw [hwrites, inRegions_decodeWrites_iff, State.decodeScratch_iff]
    simp only [Operands.shardRegion_contains_iff]
    rfl
  · rw [hfp, decodeFootprint_overlaps_iff]
    simp only [Operands.shardRegion_contains_iff, State.decodeScratch_iff]
    rfl

end Sys2Proof.Machine
end

section
/-! PROOF. DECODE does not look at the erasure bits at k + m and above (10_state.md R45; 44_codec.md R178). -/

namespace Sys2Proof.Machine

/-! ### The erasure bits (10_state.md R45) -/

/-- The operands with other ERASURE registers. -/
def Operands.withErasures (o : Operands) (p : Params) : Operands :=
  { o with params := { o.params with
      erasure0 := p.erasure0, erasure1 := p.erasure1, erasure2 := p.erasure2, erasure3 := p.erasure3,
      erasure4 := p.erasure4, erasure5 := p.erasure5, erasure6 := p.erasure6, erasure7 := p.erasure7 } }

theorem Params.erased_add (p : Params) (w : Nat) {b : Nat} (hb : b < 32) :
    p.erased (32 * w + b) = (p.erasureWord w).getLsbD b := by
  rw [Params.erased, Nat.mul_add_div (by decide), Nat.mul_add_mod, Nat.div_eq_of_lt hb, Nat.mod_eq_of_lt hb, Nat.add_zero]

section
variable {o : Operands} {p : Params}
  (hsame : ∀ i < o.ck + o.cm, (o.withErasures p).params.erased i = o.params.erased i)
include hsame

theorem Operands.erasedShards_withErasures : (o.withErasures p).erasedShards = o.erasedShards :=
  List.filter_congr fun i hi => hsame i (List.mem_range.mp hi)

theorem Operands.erasedData_withErasures : (o.withErasures p).erasedData = o.erasedData :=
  List.filter_congr fun i hi => hsame i ((List.mem_range.mp hi).trans_le (Nat.le_add_right _ _))

theorem Operands.erasedCoding_withErasures : (o.withErasures p).erasedCoding = o.erasedCoding :=
  List.filter_congr fun i hi => hsame (o.ck + i) (Nat.add_lt_add_left (List.mem_range.mp hi) _)

theorem Operands.survivors_withErasures : (o.withErasures p).survivors = o.survivors :=
  congrArg (List.take o.ck) (List.filter_congr fun i hi => by rw [hsame i (List.mem_range.mp hi)])

theorem Operands.readShards_withErasures : (List.range (o.ck + o.cm)).filter (o.withErasures p).readsShard =
    (List.range (o.ck + o.cm)).filter o.readsShard :=
  List.filter_congr fun i hi => by
    rw [Operands.readsShard, hsame i (List.mem_range.mp hi), Operands.erasedData_withErasures hsame,
      Operands.erasedCoding_withErasures hsame, Operands.survivors_withErasures hsame]
    rfl

theorem decodeWrites_withErasures (mem : Memory) : decodeWrites (o.withErasures p) mem = decodeWrites o mem := by
  rw [decodeWrites, Operands.erasedShards_withErasures hsame, Operands.erasedData_withErasures hsame]
  rfl

theorem decodeFootprint_withErasures (mem : Memory) : decodeFootprint (o.withErasures p) mem = decodeFootprint o mem := by
  have hreads := Operands.readShards_withErasures hsame
  rw [decodeFootprint, decodeWrites_withErasures hsame]
  change Footprint.mk (_ :: (_ ++ List.map _ (List.filter _ (List.range (o.ck + o.cm))))) _ = _
  rw [hreads]
  rfl

theorem decodeCheck_withErasures (memBytes : Nat) (mem : Memory) :
    decodeCheck memBytes (o.withErasures p) mem = decodeCheck memBytes o mem := by
  rw [decodeCheck, Operands.erasedShards_withErasures hsame]
  rfl

theorem writeIds_withErasures (mem : Memory) : (o.withErasures p).writeIds mem = o.writeIds mem := by
  rw [Operands.writeIds, Operands.survivors_withErasures hsame]
  rfl

theorem decodeMemory_withErasures (d : Matrix) (mem : Memory) :
    (o.withErasures p).decodeMemory d mem mem = o.decodeMemory d mem mem := by
  rw [Operands.decodeMemory, Operands.recoverData, Operands.writeScratch, writeIds_withErasures hsame,
    Operands.erasedData_withErasures hsame, Operands.erasedCoding_withErasures hsame,
    Operands.survivors_withErasures hsame]
  rfl

theorem tmat_withErasures (mem : Memory) : (o.withErasures p).tmat mem = o.tmat mem := by
  rw [Operands.tmat, Operands.survivors_withErasures hsame]
  rfl

theorem decodeDataEffect_withErasures (mem : Memory) (answer : Option Matrix) :
    decodeDataEffect (o.withErasures p) mem answer = decodeDataEffect o mem answer := by
  cases answer with
  | none => rw [decodeDataEffect, decodeFootprint_withErasures hsame, writeIds_withErasures hsame]; rfl
  | some d => rw [decodeDataEffect, decodeFootprint_withErasures hsame, decodeMemory_withErasures hsame]; rfl

theorem decodeEffect_withErasures (mem : Memory) : decodeEffect (o.withErasures p) mem = decodeEffect o mem := by
  rw [decodeEffect, Operands.erasedData_withErasures hsame, Operands.erasedCoding_withErasures hsame,
    decodeFootprint_withErasures hsame, decodeDataEffect_withErasures hsame, tmat_withErasures hsame]
  rfl

theorem commandEffect_decode_withErasures (memBytes : Nat) (mem : Memory) :
    commandEffect .decode memBytes (o.withErasures p) mem = commandEffect .decode memBytes o mem := by
  rw [commandEffect, decodeCheck_withErasures hsame, decodeEffect_withErasures hsame]
  rfl

end

/-- A completion forgets the running command. -/
theorem State.after_withRunning (s : State) (running : Option Running) (i : Instr) (effect : Checked Effect) :
    State.after { s with running := running } i effect = s.after i effect := by
  cases effect with
  | fail => rfl
  | ok e =>
    simp only [State.after, Effect.applyTo, State.commit]
    split <;> rfl

/-- Settles O33: bit 32w + b is bit b of word w, and the effect of DECODE looks at the bits below k + m alone. -/
theorem decodeIgnoresErasureBitsBeyondTheShards : Obligations.DecodeIgnoresErasureBitsBeyondTheShards := by
  unfold Obligations.DecodeIgnoresErasureBitsBeyondTheShards
  refine ⟨fun p b hb => ?_, fun s r p hr hp hsame => ?_⟩
  · have hword (w : Nat) := p.erased_add w hb
    have hfirst := hword 0
    rw [Nat.mul_zero, Nat.zero_add] at hfirst
    exact ⟨hfirst, hword 1, hword 2, hword 3, hword 4, hword 5, hword 6, hword 7⟩
  · have hops := s.operands_of_running r hr
    have hwith : ({ r.snap.operands with params := p } : Operands) = r.snap.operands.withErasures p := by
      rw [Operands.withErasures, hp]
    rw [exec_eq_after, exec_eq_after, State.after_withRunning, hops]
    change Host.Outcome.next (s.after .decode (commandEffect .decode s.memBytes { r.snap.operands with params := p } s.dmem)) = _
    rw [hwith, commandEffect_decode_withErasures]
    rw [hops] at hsame
    intro i hi
    rw [← hsame i hi, ← hwith]

end Sys2Proof.Machine
end

section
/-! PROOF. The three ends of a DECODE past its checks (44_codec.md R172-R177): nothing rebuilt but coding shards, SINGULAR, and
every erased shard rebuilt. Without an overlap the writes stay off what they read and off each other. -/

namespace Sys2Proof.Machine

theorem State.shardByte_in_region (s : State) (sh : Nat) {n : Nat} (hn : n < s.operands.len) :
    (s.operands.shardRegion s.dmem sh).contains (s.operands.shardAddr s.dmem sh + n) = true :=
  (Region.contains_iff _ _).mpr ⟨Nat.le_add_right _ _, Nat.add_lt_add_left hn _⟩

/-! ### What stays apart without an overlap (20_memory.md R79) -/

section
variable {s : State} (hover : (decodeFootprint s.operands s.dmem).overlaps = false)
include hover

theorem State.erasedShards_apart {sh q a : Nat} (hsh : sh < s.operands.ck + s.operands.cm)
    (hq : q < s.operands.ck + s.operands.cm) (hesh : s.operands.params.erased sh = true)
    (heq : s.operands.params.erased q = true) (hne : sh ≠ q)
    (ha : (s.operands.shardRegion s.dmem sh).contains a = true) :
    (s.operands.shardRegion s.dmem q).contains a = false := by
  obtain ⟨-, hshards, -⟩ := (decodeFootprint_overlaps_iff _ _).mp hover
  refine Bool.eq_false_iff.mpr fun hqa => ?_
  obtain hlt | hlt := Nat.lt_or_gt_of_ne hne
  · exact hshards q hq sh hlt heq hesh a ⟨hqa, ha⟩
  · exact hshards sh hsh q hlt hesh heq a ⟨ha, hqa⟩

theorem State.erasedShard_apart_scratch (hdata : s.operands.erasedData.isEmpty = false) {sh a : Nat}
    (hsh : sh < s.operands.ck + s.operands.cm) (hesh : s.operands.params.erased sh = true)
    (ha : inRegions s.operands.scratchRegions a = true) : (s.operands.shardRegion s.dmem sh).contains a = false := by
  obtain ⟨-, -, hscratch⟩ := (decodeFootprint_overlaps_iff _ _).mp hover
  exact Bool.eq_false_iff.mpr fun hin => hscratch sh hsh hesh a ⟨hin, hdata, ha⟩

/-- A shard that is read is not written. -/
theorem State.readShard_unwritten {sh n : Nat} (hsh : sh < s.operands.ck + s.operands.cm)
    (hread : s.operands.readsShard sh = true) (hn : n < s.operands.len) :
    inRegions (decodeWrites s.operands s.dmem) (s.operands.shardAddr s.dmem sh + n) = false := by
  obtain ⟨hreads, -, -⟩ := (decodeFootprint_overlaps_iff _ _).mp hover
  have hin := inRegions_of_mem (shardRegion_mem_decodeReads hsh hread) (s.shardByte_in_region sh hn)
  exact Bool.eq_false_iff.mpr fun hw => hreads _ ⟨hin, hw⟩

theorem State.survivor_unwritten (hdata : s.operands.erasedData.isEmpty = false) {sh n : Nat}
    (hsh : sh ∈ s.operands.survivors) (hn : n < s.operands.len) :
    inRegions (decodeWrites s.operands s.dmem) (s.operands.shardAddr s.dmem sh + n) = false :=
  State.readShard_unwritten hover (Operands.lt_of_mem_survivors hsh)
    ((Operands.readsShard_iff _ sh).mpr ⟨Operands.not_erased_of_mem_survivors hsh, .inl ⟨hdata, hsh⟩⟩) hn

/-- An erased coding shard shares no byte with a data shard, which is erased too or is read. -/
theorem State.erasedCoding_apart_data {i j n : Nat} (hi : i ∈ s.operands.erasedCoding) (hj : j < s.operands.ck)
    (hn : n < s.operands.len) :
    (s.operands.shardRegion s.dmem (s.operands.ck + i)).contains (s.operands.shardAddr s.dmem j + n) = false := by
  obtain ⟨hicm, hierased⟩ := Operands.mem_erasedCoding_iff.mp hi
  have hlt : s.operands.ck + i < s.operands.ck + s.operands.cm := Nat.add_lt_add_left hicm _
  cases hjerased : s.operands.params.erased j with
  | true =>
    exact State.erasedShards_apart hover (by omega) hlt hjerased hierased (by omega) (s.shardByte_in_region j hn)
  | false =>
    have hcoding : s.operands.erasedCoding.isEmpty = false := List.isEmpty_eq_false_iff.mpr (List.ne_nil_of_mem hi)
    have hunwritten := State.readShard_unwritten hover (by omega)
      ((Operands.readsShard_iff _ j).mpr ⟨hjerased, .inr ⟨hj, hcoding⟩⟩) hn
    exact (inRegions_eq_false_iff _ _).mp hunwritten _ (Operands.erasedShard_mem_decodeWrites s.dmem hlt hierased)

/-- The erased coding rows stay off the data shards and off each other. -/
theorem State.erasedCoding_codingRowsApart : s.CodingRowsApart s.operands.erasedCoding where
  lt := fun i hi => (Operands.mem_erasedCoding_iff.mp hi).1
  data := fun i hi j hj n hn hw =>
    Bool.false_ne_true ((State.erasedCoding_apart_data hover hi hj hn).symm.trans hw.2)
  coding := fun i hi j hj hne a ⟨hwi, hwj⟩ => by
    obtain ⟨hicm, hierased⟩ := Operands.mem_erasedCoding_iff.mp hi
    obtain ⟨hjcm, hjerased⟩ := Operands.mem_erasedCoding_iff.mp hj
    have hapart := State.erasedShards_apart hover (Nat.add_lt_add_left hicm _) (Nat.add_lt_add_left hjcm _) hierased
      hjerased (by omega) hwi.2
    exact Bool.false_ne_true (hapart.symm.trans hwj.2)

/-! ### The erased coding shards (44_codec.md R177) -/

/-- No row writes into a coding shard whose own row is all zero. -/
theorem State.read_zeroRowShard {i n : Nat} (hi : i < s.operands.cm)
    (herased : s.operands.params.erased (s.operands.ck + i) = true) (hrow : ¬s.RowNonzero i) (hn : n < s.operands.len)
    (mem : Memory) : (s.applyCodingRows mem s.operands.erasedCoding).read
      (s.operands.shardAddr s.dmem (s.operands.ck + i) + n) =
        mem.read (s.operands.shardAddr s.dmem (s.operands.ck + i) + n) := by
  refine s.read_applyCodingRows_of_not_writes mem (State.erasedCoding_codingRowsApart hover).lt fun j hj hw => ?_
  obtain ⟨hjcm, hjerased⟩ := Operands.mem_erasedCoding_iff.mp hj
  by_cases hij : i = j
  · exact hrow (hij ▸ hw.1)
  · have hapart := State.erasedShards_apart hover (Nat.add_lt_add_left hi _) (Nat.add_lt_add_left hjcm _) herased hjerased
      (by omega) (s.shardByte_in_region _ hn)
    exact Bool.false_ne_true (hapart.symm.trans hw.2)

/-- From a memory in which the erased coding shards are still those of s. -/
theorem State.erasedCoding_rebuilt {mem : Memory} (hkept : ∀ i ∈ s.operands.erasedCoding, ∀ n < s.operands.len,
      s.CodingByteKept mem i n) {i : Nat} (hi : i < s.operands.cm)
    (herased : s.operands.params.erased (s.operands.ck + i) = true) {n : Nat} (hn : n < s.operands.len) :
    (s.RowNonzero i → s.CodingByteIn (s.applyCodingRows mem s.operands.erasedCoding) i n) ∧
      (¬s.RowNonzero i → s.CodingByteKept (s.applyCodingRows mem s.operands.erasedCoding) i n) := by
  have hmem := Operands.mem_erasedCoding_iff.mpr ⟨hi, herased⟩
  exact ⟨fun hrow => (State.erasedCoding_codingRowsApart hover).codingByteIn mem hmem hrow hn,
    fun hrow => (State.read_zeroRowShard hover hi herased hrow hn mem).trans (hkept i hmem n hn)⟩

end

/-! ### The ends of DECODE -/

/-- `complete_commit`, with regions left ANY: without an overlap DMEM is the memory computed outside them. -/
theorem State.complete_commit_any (s : State) {fp : Footprint} {computed : Memory} {any : List Region} (code : ErrCode)
    (hcomputed : SameOutside fp.writes s.dmem computed) (hany : any ⊆ fp.writes) :
    ∃ mem draws, (s.commit fp computed any).complete code = s.doneWith code mem draws ∧
      SameOutside fp.writes s.dmem mem ∧ (fp.overlaps = false → SameOutside any computed mem) := by
  cases hover : fp.overlaps with
  | true =>
    rw [s.commit_of_overlaps fp computed any hover]
    exact ⟨_, drawCount fp.writes, rfl, Memory.fillAny_sameOutside _ _ _, nofun⟩
  | false =>
    rw [State.commit, if_neg (by simp [hover])]
    have hfill := Memory.fillAny_sameOutside any computed s.freeCount
    exact ⟨_, drawCount any, rfl, hcomputed.trans (hfill.mono hany), fun _ => hfill⟩

section
variable {s : State} (hruns : s.DecodeRuns)
include hruns

theorem exec_decode_of_runs :
    exec .decode s = .next ((decodeEffect s.operands s.dmem).applyTo s) := by
  have hok : commandEffect .decode s.memBytes s.operands s.dmem = .ok (decodeEffect s.operands s.dmem) :=
    congrArg (Checked.map fun _ => decodeEffect s.operands s.dmem) (s.decodeRuns_iff.mp hruns)
  rw [exec_eq_after, hok]
  rfl

theorem exec_decode_of_coding (hdata : s.operands.erasedData.isEmpty = true) :
    exec .decode s = .next ((s.commit (decodeFootprint s.operands s.dmem)
      (s.applyCodingRows s.dmem s.operands.erasedCoding) []).complete .none) := by
  rw [exec_decode_of_runs hruns, decodeEffect, if_pos hdata, Effect.applyTo_of_commit]
  rfl

theorem exec_decode_of_singular (hdata : s.operands.erasedData.isEmpty = false)
    (h : invertMatrix s.operands.ck (s.operands.tmat s.dmem) = none) :
    exec .decode s = .next ((s.commit (decodeFootprint s.operands s.dmem) (s.operands.writeIds s.dmem)
      [s.operands.tmpmatRegion, s.operands.decodingRegion]).complete .singular) := by
  rw [exec_decode_of_runs hruns, decodeEffect, if_neg (by simp [hdata]), h, decodeDataEffect, Effect.applyTo_of_commit]

theorem exec_decode_of_inverse (hdata : s.operands.erasedData.isEmpty = false) {d : Matrix}
    (h : invertMatrix s.operands.ck (s.operands.tmat s.dmem) = some d) :
    exec .decode s = .next ((s.commit (decodeFootprint s.operands s.dmem)
      (s.operands.decodeMemory d s.dmem s.dmem) []).complete .none) := by
  rw [exec_decode_of_runs hruns, decodeEffect, if_neg (by simp [hdata]), h, decodeDataEffect, Effect.applyTo_of_commit]

end

/-! ### No erased data shard (44_codec.md R172) -/

section
variable {o : Operands} (hdata : o.erasedData.isEmpty = true)
include hdata

/-- Then only coding shards are erased. -/
theorem Operands.exists_coding_of_mem_erasedShards {sh : Nat} (hsh : sh ∈ o.erasedShards) :
    ∃ i ∈ o.erasedCoding, sh = o.ck + i := by
  obtain ⟨hlt, herased⟩ := Operands.mem_erasedShards_iff.mp hsh
  have hge : o.ck ≤ sh := Nat.not_lt.mp fun hdatashard =>
    List.ne_nil_of_mem (Operands.mem_erasedData_iff.mpr ⟨hdatashard, herased⟩) (List.isEmpty_iff.mp hdata)
  obtain ⟨i, rfl⟩ := Nat.exists_eq_add_of_le hge
  exact ⟨i, Operands.mem_erasedCoding_iff.mpr ⟨Nat.lt_of_add_lt_add_left hlt, herased⟩, rfl⟩

theorem decodeWrites_of_coding (mem : Memory) : decodeWrites o mem = o.erasedRegions mem := by
  rw [decodeWrites, hdata, Operands.erasedRegions]
  exact List.append_nil _

/-- And with none of those erased nothing is written. -/
theorem decodeWrites_of_no_erasure (hcoding : o.erasedCoding = []) (mem : Memory) : decodeWrites o mem = [] := by
  rw [decodeWrites_of_coding hdata, Operands.erasedRegions, List.map_eq_nil_iff]
  refine List.eq_nil_iff_forall_not_mem.mpr fun sh hsh => ?_
  obtain ⟨i, hi, -⟩ := Operands.exists_coding_of_mem_erasedShards hdata hsh
  exact List.ne_nil_of_mem hi hcoding

end

theorem Footprint.overlaps_of_no_writes {fp : Footprint} (h : fp.writes = []) : fp.overlaps = false :=
  Footprint.overlaps_eq_false (by rw [h]; rfl) fun a ha => by simp [h] at ha

/-- Settles O28: the rows of the erased coding shards are applied, and nothing else is done. -/
theorem decodeWithoutErasedDataRebuildsCodingOnly : Obligations.DecodeWithoutErasedDataRebuildsCodingOnly := by
  unfold Obligations.DecodeWithoutErasedDataRebuildsCodingOnly
  intro s o hruns hnone
  have hdata : s.operands.erasedData.isEmpty = true := Operands.erasedData_isEmpty_of_none hnone
  rw [exec_decode_of_coding hruns hdata, s.footprint_decode_of_runs hruns]
  refine ⟨fun hcoding => ?_, ?_⟩
  · have hrows : s.operands.erasedCoding = [] := by simpa [Operands.erasedCoding] using hcoding
    rw [s.commit_of_not_overlaps _ _ (Footprint.overlaps_of_no_writes (decodeWrites_of_no_erasure hdata hrows s.dmem)),
      hrows]
    rfl
  · have houtside : SameOutside (decodeFootprint s.operands s.dmem).writes s.dmem
        (s.applyCodingRows s.dmem s.operands.erasedCoding) :=
      ((writesIn_erasedCoding s.dmem s.dmem).mono (s.operands.erasedRegions_subset s.dmem)).sameOutside
    obtain ⟨mem, draws, hdone, houtside, hexact⟩ := s.complete_commit .none houtside
    refine ⟨mem, draws, congrArg _ hdone, fun a ha => houtside a ?_, fun hover => ?_⟩
    · change inRegions (decodeWrites s.operands s.dmem) a = false
      rw [decodeWrites_of_coding hdata, inRegions_eq_false_iff]
      refine List.forall_mem_map.mpr fun sh hsh => ?_
      obtain ⟨i, hi, rfl⟩ := Operands.exists_coding_of_mem_erasedShards hdata hsh
      obtain ⟨hlt, herased⟩ := Operands.mem_erasedCoding_iff.mp hi
      exact ha i hlt herased
    · obtain ⟨hdraws, rfl⟩ := hexact hover
      exact ⟨hdraws, fun i hi herased n hn => State.erasedCoding_rebuilt hover (fun _ _ _ _ => rfl) hi herased hn⟩

/-! ### The workspace (44_codec.md R173, R175) -/

section
variable {o : Operands} (herasures : o.erasedShards.length ≤ o.cm)
include herasures

theorem Operands.read_writeIds (mem : Memory) {p : Nat} (hp : p < o.ck) :
    (o.writeIds mem).read (o.dmIdsBase + p) = BitVec.ofNat 8 (o.survivors.getD p 0) := by
  have hlt : p < o.survivors.length := (Operands.length_survivors herasures).symm ▸ hp
  rw [Operands.writeIds, Memory.read_writeBytes_inside _ _ _ _ (by simpa using hlt)]
  simp [hlt]

end

theorem Operands.dmIds_outside {o : Operands} {p : Nat} (hp : p < o.ck) :
    inRegions [o.tmpmatRegion, o.decodingRegion] (o.dmIdsBase + p) = false := by
  rw [Bool.eq_false_iff, ne_eq]
  simp only [inRegions_cons, inRegions_nil, Bool.or_false, Bool.or_eq_true, Region.contains_iff, Operands.tmpmatRegion,
    Operands.decodingRegion, Operands.tmpmatBase, Operands.dmIdsBase, Operands.decodingBase, ← pow_two]
  omega

/-- Outside the scratch regions is outside the one run of bytes that they make up (41_coder.md R141). -/
theorem SameOutside.of_scratchRegions {o : Operands} {before after : Memory}
    (h : SameOutside o.scratchRegions before after) :
    SameOutside [{ base := o.coder.ws.toNat, len := 2 * o.ck ^ 2 + o.ck }] before after := by
  intro a ha
  refine h a (Bool.eq_false_iff.mpr fun hin => ?_)
  have hrun := (o.inRegions_scratchRegions_iff a).mp hin
  have hout := (inRegions_eq_false_iff _ _).mp ha _ (List.mem_singleton.mpr rfl)
  exact Bool.false_ne_true (hout.symm.trans ((Region.contains_iff _ _).mpr hrun))

/-- Settles O29: the survivors are noted, the other two scratch regions are ANY, and no row is applied. -/
theorem decodeSingularWritesNoShard : Obligations.DecodeSingularWritesNoShard := by
  unfold Obligations.DecodeSingularWritesNoShard
  intro s o hruns hsome hsingular
  obtain ⟨-, herasures, -⟩ := id hruns
  have hdata : s.operands.erasedData.isEmpty = false := Operands.erasedData_isEmpty_eq_false_iff.mpr hsome
  have hscratch := Operands.scratchRegions_subset s.dmem hdata
  have hids := (writesIn_writeIds (o := s.operands) s.dmem).sameOutside
  have hany : [s.operands.tmpmatRegion, s.operands.decodingRegion] ⊆ s.operands.scratchRegions := by
    simp [Operands.scratchRegions]
  obtain ⟨mem, draws, hdone, houtside, hexact⟩ := s.complete_commit_any (fp := decodeFootprint s.operands s.dmem)
    .singular (hids.mono hscratch) (List.Subset.trans hany hscratch)
  rw [exec_decode_of_singular hruns hdata hsingular, s.footprint_decode_of_runs hruns]
  refine ⟨mem, draws, congrArg _ hdone, houtside, fun hover => ⟨fun p hp => ?_, ?_⟩⟩
  · exact (hexact hover _ (Operands.dmIds_outside hp)).trans (Operands.read_writeIds herasures s.dmem hp)
  · exact (hids.trans ((hexact hover).mono hany)).of_scratchRegions

/-! ### The workspace with the inverse -/

theorem square_index_lt {n r c : Nat} (hr : r < n) (hc : c < n) : r * n + c < n ^ 2 := by
  nlinarith

theorem length_identityMatrix_flatten (n : Nat) : (identityMatrix n).flatten.length = n ^ 2 :=
  (isSquareMatrix_identityMatrix n).length_flatten.trans (pow_two n).symm

section
variable {o : Operands} (d : Matrix) (mem : Memory)

theorem Operands.read_writeScratch_ids (herasures : o.erasedShards.length ≤ o.cm) {p : Nat} (hp : p < o.ck) :
    (o.writeScratch d mem).read (o.dmIdsBase + p) = BitVec.ofNat 8 (o.survivors.getD p 0) := by
  rw [Operands.writeScratch, Memory.read_writeBytes_outside, Memory.read_writeBytes_outside,
    Operands.read_writeIds herasures mem hp]
  · rw [length_identityMatrix_flatten, Operands.dmIdsBase, Operands.tmpmatBase]; omega
  · rw [Operands.dmIdsBase, Operands.decodingBase]; omega

theorem Operands.read_writeScratch_tmpmat {r c : Nat} (hr : r < o.ck) (hc : c < o.ck) :
    (o.writeScratch d mem).read (o.tmpmatBase + r * o.ck + c) = if r = c then 1#8 else 0#8 := by
  have hlt := square_index_lt hr hc
  rw [Operands.writeScratch, Memory.read_writeBytes_outside, (isSquareMatrix_identityMatrix _).read_writeBytes _ _ hr hc,
    matrixEntry_identityMatrix hr hc]
  rw [Operands.tmpmatBase, Operands.decodingBase]; omega

theorem Operands.read_writeScratch_decoding {d : Matrix} (hd : IsSquareMatrix o.ck d) {r c : Nat} (hr : r < o.ck)
    (hc : c < o.ck) : (o.writeScratch d mem).read (o.decodingBase + r * o.ck + c) = matrixEntry d r c :=
  hd.read_writeBytes _ _ hr hc

end

section
variable {o : Operands}

theorem Operands.tmpmat_mem_scratch {r c : Nat} (hr : r < o.ck) (hc : c < o.ck) :
    inRegions o.scratchRegions (o.tmpmatBase + r * o.ck + c) = true := by
  have hlt := square_index_lt hr hc
  rw [o.inRegions_scratchRegions_iff, Operands.tmpmatBase]
  omega

theorem Operands.dmIds_mem_scratch {p : Nat} (hp : p < o.ck) :
    inRegions o.scratchRegions (o.dmIdsBase + p) = true := by
  rw [o.inRegions_scratchRegions_iff, Operands.dmIdsBase]
  omega

theorem Operands.decoding_mem_scratch {r c : Nat} (hr : r < o.ck) (hc : c < o.ck) :
    inRegions o.scratchRegions (o.decodingBase + r * o.ck + c) = true := by
  have hlt := square_index_lt hr hc
  rw [o.inRegions_scratchRegions_iff, Operands.decodingBase]
  omega

end

/-! ### The erased data shards (44_codec.md R176) -/

/-- A combination looks at its sources alone. -/
theorem rowByte_congr_sources {mem mem' : Memory} {srcs : List Nat} {n : Nat} (coefs : List Byte)
    (h : ∀ src ∈ srcs, mem'.read (src + n) = mem.read (src + n)) :
    rowByte mem' coefs srcs n = rowByte mem coefs srcs n := by
  rw [rowByte_eq_gfSum, rowByte_eq_gfSum]
  exact congrArg gfSum (List.map_congr_left fun cs hcs => by rw [h cs.2 (List.of_mem_zip hcs).2])

/-- A row over the shards with the listed ids. -/
theorem rowByte_eq_gfSum_range (mem : Memory) {k : Nat} {coefs : List Byte} {ids : List Nat} (hcoefs : coefs.length = k)
    (hids : ids.length = k) (addr : Nat → Nat) (n : Nat) :
    rowByte mem coefs (ids.map addr) n =
      gfSum ((List.range k).map fun p => gmul (coefs.getD p 0#8) (mem.read (addr (ids.getD p 0) + n))) := by
  rw [rowByte_eq_gfSum]
  refine congrArg gfSum (List.ext_getElem (by simp [hcoefs, hids]) fun p _ hp => ?_)
  have hp : p < k := by simpa using hp
  simp [hcoefs, hids, hp]

/-- `mem` with row i of D over the survivors applied to data shard i, for each listed i in turn. -/
def Operands.recoverRows (o : Operands) (launch : Memory) (d : Matrix) (mem : Memory) (rows : List Nat) : Memory :=
  rows.foldl (fun acc i => applyRow acc (d.getD i []) (o.survivors.map (o.shardAddr launch)) (o.shardAddr launch i) o.len)
    mem

theorem Operands.recoverData_eq (o : Operands) (launch : Memory) (d : Matrix) (mem : Memory) :
    o.recoverData launch d mem = o.recoverRows launch d mem o.erasedData := rfl

theorem Operands.recoverRows_sameOutside (o : Operands) (launch : Memory) (d : Matrix) (mem : Memory) (rows : List Nat) :
    SameOutside (rows.map (o.shardRegion launch)) mem (o.recoverRows launch d mem rows) := by
  have hrow : ∀ i ∈ rows, ∀ mem, WritesIn (rows.map (o.shardRegion launch)) mem (applyRow mem (d.getD i [])
      (o.survivors.map (o.shardAddr launch)) (o.shardAddr launch i) o.len) := fun i hi mem =>
    writesIn_applyRow (fun _ => List.mem_map_of_mem (f := o.shardRegion launch) hi) mem _
  exact (writesIn_foldl hrow mem).sameOutside

/-- The listed data shards share no byte with a survivor, nor with each other. -/
structure Operands.RecoverApart (o : Operands) (launch : Memory) (rows : List Nat) : Prop where
  survivors : ∀ i ∈ rows, ∀ q ∈ o.survivors, ∀ n < o.len,
    (o.shardRegion launch i).contains (o.shardAddr launch q + n) = false
  data : ∀ i ∈ rows, ∀ j ∈ rows, i ≠ j → ∀ a, (o.shardRegion launch i).contains a = true →
    (o.shardRegion launch j).contains a = false

theorem Operands.RecoverApart.tail {o : Operands} {launch : Memory} {i : Nat} {rows : List Nat}
    (h : o.RecoverApart launch (i :: rows)) : o.RecoverApart launch rows where
  survivors := fun j hj => h.survivors j (List.mem_cons_of_mem _ hj)
  data := fun p hp q hq => h.data p (List.mem_cons_of_mem _ hp) q (List.mem_cons_of_mem _ hq)

/-- The last application of row i fills its shard, and neither that shard nor a survivor is written after it. -/
theorem Operands.RecoverApart.read_recoverRows {o : Operands} {launch : Memory} {rows : List Nat}
    (h : o.RecoverApart launch rows) (d : Matrix) (mem : Memory) {i n : Nat} (hi : i ∈ rows)
    (hrow : allZero (d.getD i []) = false) (hn : n < o.len) :
    (o.recoverRows launch d mem rows).read (o.shardAddr launch i + n) =
      rowByte mem (d.getD i []) (o.survivors.map (o.shardAddr launch)) n := by
  induction rows generalizing mem with
  | nil => cases hi
  | cons r rows ih =>
    rw [Operands.recoverRows, List.foldl_cons, ← Operands.recoverRows]
    by_cases hlater : i ∈ rows
    · rw [ih h.tail _ hlater]
      refine rowByte_congr_sources _ (List.forall_mem_map.mpr fun q hq => ?_)
      refine applyRow_sameOutside _ _ _ _ _ _ ((inRegions_cons _ _ _).trans ?_)
      exact (Bool.or_false _).trans (h.survivors r (List.mem_cons_self ..) q hq n hn)
    · obtain rfl := (List.mem_cons.mp hi).resolve_right hlater
      have hkept : inRegions (rows.map (o.shardRegion launch)) (o.shardAddr launch i + n) = false := by
        rw [inRegions_eq_false_iff]
        refine List.forall_mem_map.mpr fun j hj => h.data i hi j (List.mem_cons_of_mem _ hj)
          (fun heq => hlater (heq ▸ hj)) _ ((Region.contains_iff _ _).mpr ?_)
        exact ⟨Nat.le_add_right _ _, Nat.add_lt_add_left hn _⟩
      rw [o.recoverRows_sameOutside launch d _ rows _ hkept]
      exact read_applyRow_dst hrow _ _ hn

section
variable {o : Operands} {d : Matrix} (hd : IsSquareMatrix o.ck d) {i : Nat} (hi : i < o.ck)
include hd hi

theorem allZero_row_iff : allZero (d.getD i []) = false ↔ ∃ p < o.ck, matrixEntry d i p ≠ 0#8 := by
  have hrow : (d.getD i []).length = o.ck := hd.length_getD hi
  rw [allZero_eq_false_iff, List.exists_mem_iff_getElem]
  refine exists_congr fun p => ?_
  rw [← exists_prop, ← hrow]
  exact exists_congr fun hp => by rw [matrixEntry, List.getD_eq_getElem _ _ hp]

/-- Row i of D over the survivors. -/
theorem Operands.rowByte_survivors (herasures : o.erasedShards.length ≤ o.cm) (launch mem : Memory) (n : Nat) :
    rowByte mem (d.getD i []) (o.survivors.map (o.shardAddr launch)) n = gfSum ((List.range o.ck).map fun p =>
      gmul (matrixEntry d i p) (mem.read (o.shardAddr launch (o.survivors.getD p 0) + n))) :=
  rowByte_eq_gfSum_range mem (hd.length_getD hi) (Operands.length_survivors herasures) _ n

end

/-! ### The whole of DECODE with an inverse -/

section
variable {s : State} {d : Matrix} (hover : (decodeFootprint s.operands s.dmem).overlaps = false)
  (hdata : s.operands.erasedData.isEmpty = false)
include hover hdata

/-- The erased data shards share no byte with a survivor, which is read, nor with each other. -/
theorem State.erasedData_recoverApart : s.operands.RecoverApart s.dmem s.operands.erasedData where
  survivors := fun i hi q hq n hn => by
    obtain ⟨hlt, herased⟩ := Operands.mem_erasedData_iff.mp hi
    exact (inRegions_eq_false_iff _ _).mp (State.survivor_unwritten hover hdata hq hn) _
      (Operands.erasedShard_mem_decodeWrites s.dmem (by omega) herased)
  data := fun i hi j hj hne a ha => by
    obtain ⟨hilt, hierased⟩ := Operands.mem_erasedData_iff.mp hi
    obtain ⟨hjlt, hjerased⟩ := Operands.mem_erasedData_iff.mp hj
    exact State.erasedShards_apart hover (by omega) (by omega) hierased hjerased hne ha

/-- The workspace is not written after step 2. -/
theorem State.read_decodeMemory_scratch {a : Nat} (ha : inRegions s.operands.scratchRegions a = true) :
    (s.operands.decodeMemory d s.dmem s.dmem).read a = (s.operands.writeScratch d s.dmem).read a := by
  have hshards := (writesIn_recoverData (o := s.operands) (s.operands.writeScratch d s.dmem) s.dmem d).trans
    (writesIn_erasedCoding (o := s.operands) _ s.dmem)
  refine hshards.sameOutside a ((inRegions_eq_false_iff _ _).mpr (List.forall_mem_map.mpr fun sh hsh => ?_))
  obtain ⟨hlt, herased⟩ := Operands.mem_erasedShards_iff.mp hsh
  exact State.erasedShard_apart_scratch hover hdata hlt herased ha

variable (hd : IsSquareMatrix s.operands.ck d)
include hd

theorem State.read_writeScratch_survivor {q n : Nat} (hq : q ∈ s.operands.survivors) (hn : n < s.operands.len) :
    (s.operands.writeScratch d s.dmem).read (s.operands.shardAddr s.dmem q + n) =
      s.dmem.read (s.operands.shardAddr s.dmem q + n) :=
  (((writesIn_writeScratch s.dmem hd).mono (Operands.scratchRegions_subset s.dmem hdata)).sameOutside _
    (State.survivor_unwritten hover hdata hq hn))

/-- An erased data shard with a row of D that is not all zero. -/
theorem State.read_decodeMemory_data (herasures : s.operands.erasedShards.length ≤ s.operands.cm) {i n : Nat}
    (hi : i < s.operands.ck) (herased : s.operands.params.erased i = true)
    (hrow : ∃ p < s.operands.ck, matrixEntry d i p ≠ 0#8) (hn : n < s.operands.len) :
    (s.operands.decodeMemory d s.dmem s.dmem).read (s.operands.shardAddr s.dmem i + n) =
      gfSum ((List.range s.operands.ck).map fun p => gmul (matrixEntry d i p)
        (s.dmem.read (s.operands.shardAddr s.dmem (s.operands.survivors.getD p 0) + n))) := by
  have hcoding := (State.erasedCoding_codingRowsApart hover).read_data
    (s.operands.recoverData s.dmem d (s.operands.writeScratch d s.dmem)) hi hn
  refine hcoding.trans ?_
  rw [Operands.recoverData_eq, (State.erasedData_recoverApart hover hdata).read_recoverRows d _
    (Operands.mem_erasedData_iff.mpr ⟨hi, herased⟩) ((allZero_row_iff hd hi).mpr hrow) hn, ←
    Operands.rowByte_survivors hd hi herasures]
  exact rowByte_congr_sources _ (List.forall_mem_map.mpr fun q hq => State.read_writeScratch_survivor hover hdata hd hq hn)

/-- Step 3 and the workspace leave the erased coding shards alone. -/
theorem State.erasedCoding_kept {i n : Nat} (hi : i ∈ s.operands.erasedCoding) (hn : n < s.operands.len) :
    s.CodingByteKept (s.operands.recoverData s.dmem d (s.operands.writeScratch d s.dmem)) i n := by
  obtain ⟨hlt, herased⟩ := Operands.mem_erasedCoding_iff.mp hi
  have hsh : s.operands.ck + i < s.operands.ck + s.operands.cm := Nat.add_lt_add_left hlt _
  have hbyte := s.shardByte_in_region (s.operands.ck + i) hn
  have hrecover : inRegions (s.operands.erasedData.map (s.operands.shardRegion s.dmem))
      (s.operands.shardAddr s.dmem (s.operands.ck + i) + n) = false := by
    refine (inRegions_eq_false_iff _ _).mpr (List.forall_mem_map.mpr fun j hj => ?_)
    obtain ⟨hjlt, hjerased⟩ := Operands.mem_erasedData_iff.mp hj
    exact State.erasedShards_apart hover hsh (by omega) herased hjerased (by omega) hbyte
  have hscratch : inRegions s.operands.scratchRegions (s.operands.shardAddr s.dmem (s.operands.ck + i) + n) = false :=
    Bool.eq_false_iff.mpr fun hin =>
      Bool.false_ne_true ((State.erasedShard_apart_scratch hover hdata hsh herased hin).symm.trans hbyte)
  exact (s.operands.recoverRows_sameOutside s.dmem d _ _ _ hrecover).trans
    ((writesIn_writeScratch s.dmem hd).sameOutside _ hscratch)

end

/-- Settles O30: the workspace is written, then the erased data shards, then the erased coding shards, each off the others. -/
theorem decodeRebuildsTheErasedShards : Obligations.DecodeRebuildsTheErasedShards := by
  unfold Obligations.DecodeRebuildsTheErasedShards
  intro s d o hruns hsome hinvert
  obtain ⟨-, herasures, -⟩ := id hruns
  have hdata : s.operands.erasedData.isEmpty = false := Operands.erasedData_isEmpty_eq_false_iff.mpr hsome
  have hd : IsSquareMatrix s.operands.ck d :=
    isSquareMatrix_of_invertMatrix_eq_some (Operands.isSquareMatrix_tmat herasures s.dmem) hinvert
  obtain ⟨mem, draws, hdone, houtside, hexact⟩ := s.complete_commit (fp := decodeFootprint s.operands s.dmem) .none
    (writesIn_decodeMemory hd hdata s.dmem s.dmem).sameOutside
  rw [exec_decode_of_inverse hruns hdata hinvert, s.footprint_decode_of_runs hruns]
  refine ⟨mem, draws, congrArg _ hdone, houtside, fun hover => ?_⟩
  obtain ⟨hdraws, rfl⟩ := hexact hover
  have hscratch {a : Nat} := State.read_decodeMemory_scratch (a := a) hover hdata (d := d)
  refine ⟨hdraws, fun p hp => ?_, fun r hr c hc => ⟨?_, ?_⟩, fun i hi herased hrow n hn => ?_, fun i hi herased n hn => ?_⟩
  · exact (hscratch (Operands.dmIds_mem_scratch hp)).trans (Operands.read_writeScratch_ids d s.dmem herasures hp)
  · exact (hscratch (Operands.tmpmat_mem_scratch hr hc)).trans (Operands.read_writeScratch_tmpmat d s.dmem hr hc)
  · exact (hscratch (Operands.decoding_mem_scratch hr hc)).trans (Operands.read_writeScratch_decoding s.dmem hd hr hc)
  · exact State.read_decodeMemory_data hover hdata hd herasures hi herased hrow hn
  · exact State.erasedCoding_rebuilt hover (fun j hj n hn => State.erasedCoding_kept hover hdata hd hj hn) hi herased hn

end Sys2Proof.Machine
end

section
/-! PROOF. The recovery guarantee (44_codec.md R181): byte n of all the shards is the product of [Identity ; C] with byte n of
the data shards, and the inverse of the survivors' rows takes the survivors' bytes back to those of the data shards. -/

namespace Sys2Proof

open Machine hiding Matrix
open scoped Matrix

/-! ### Encoded bytes and the rows of TMAT (44_codec.md R174) -/

/-- `y` numbers a byte of every shard: those of the coding shards are the combinations of those of the data shards. -/
def Encoded (k m : Nat) (c : Machine.Matrix) (y : Nat → Byte) : Prop :=
  ∀ i < m, y (k + i) = gfSum ((List.range k).map fun j => gmul (matrixEntry c i j) (y j))

section
variable {F : Type} [Field F] {φ : Byte ≃ F} {k m : Nat} {c : Machine.Matrix} {y : Nat → Byte}

/-- A combination of bytes as a dot product. -/
theorem IsFieldIso.map_combination (hφ : IsFieldIso φ) (row : List Byte) (y : Nat → Byte) :
    φ (gfSum ((List.range k).map fun j => gmul (row.getD j 0#8) (y j))) = rowVec φ k row ⬝ᵥ fun j => φ (y j) := by
  rw [hφ.map_gfSum, dotProduct, Fin.sum_univ_def, ← List.map_coe_finRange_eq_range, List.map_map, List.map_map]
  exact congrArg List.sum (List.map_congr_left fun j _ => hφ.map_gmul _ _)

/-- A row of the identity takes a data byte, a row of C a coding byte. -/
theorem Encoded.dotProduct_augmentedRow (hφ : IsFieldIso φ) (hy : Encoded k m c y) {sh : Nat} (hsh : sh < k + m) :
    (rowVec φ k (augmentedRow k c sh) ⬝ᵥ fun j => φ (y j)) = φ (y sh) := by
  obtain hlt | hge := Nat.lt_or_ge sh k
  · exact (congrArg (· ⬝ᵥ _) (hφ.augmentedRow_identity c ⟨sh, hlt⟩)).trans (single_one_dotProduct _ _)
  · obtain ⟨i, rfl⟩ := Nat.exists_eq_add_of_le hge
    rw [hy i (Nat.lt_of_add_lt_add_left hsh), augmentedRow, if_neg (by omega), Nat.add_sub_cancel_left]
    exact (hφ.map_combination (c.getD i []) y).symm

variable {ids : List Nat} {d : Machine.Matrix}

/-- TMAT takes the data bytes to those of the listed shards. -/
theorem Encoded.tmpmat_mulVec (hφ : IsFieldIso φ) (hy : Encoded k m c y) (hlen : ids.length = k)
    (hlt : ∀ id ∈ ids, id < k + m) :
    (toMatrix φ k (buildTmpmat k ids c) *ᵥ fun j => φ (y j)) = fun p : Fin k => φ (y (ids.getD p 0)) := by
  funext p
  have hp : (p : Nat) < ids.length := hlen.symm ▸ p.2
  have hrow : (buildTmpmat k ids c).getD p [] = augmentedRow k c ids[(p : Nat)] := by
    simp [buildTmpmat_eq_map, hp]
  rw [List.getD_eq_getElem _ _ hp, ← hy.dotProduct_augmentedRow hφ (hlt _ (List.getElem_mem hp)), ← hrow]
  rfl

/-- The inverse of TMAT takes them back. -/
theorem Encoded.combination_inverse (hy : Encoded k m c y) (hlen : ids.length = k) (hlt : ∀ id ∈ ids, id < k + m)
    (hinverse : ProductIsIdentity k d (buildTmpmat k ids c)) {i : Nat} (hi : i < k) :
    gfSum ((List.range k).map fun p => gmul (matrixEntry d i p) (y (ids.getD p 0))) = y i := by
  obtain ⟨F, _, φ, hφ⟩ := exists_isFieldIso
  apply φ.injective
  have hback := congrArg (toMatrix φ k d *ᵥ ·) (hy.tmpmat_mulVec hφ hlen hlt)
  rw [Matrix.mulVec_mulVec, (hφ.productIsIdentity_iff k d _).mp hinverse, Matrix.one_mulVec] at hback
  exact (hφ.map_combination (d.getD i []) fun p => y (ids.getD p 0)).trans (congrFun hback ⟨i, hi⟩).symm

end

/-- A matrix with a right inverse has no all-zero row. -/
theorem exists_entry_ne_zero {k : Nat} {d a : Machine.Matrix} (h : ProductIsIdentity k d a) {i : Nat} (hi : i < k) :
    ∃ p < k, matrixEntry d i p ≠ 0#8 := by
  by_contra hzero
  push Not at hzero
  obtain ⟨F, _, φ, hφ⟩ := exists_isFieldIso
  have hone := congrFun (congrFun ((hφ.productIsIdentity_iff k d a).mp h) ⟨i, hi⟩) ⟨i, hi⟩
  rw [Matrix.mul_apply, Matrix.one_apply_eq] at hone
  refine zero_ne_one ((Finset.sum_eq_zero fun p _ => ?_).symm.trans hone)
  rw [toMatrix_apply, hzero p p.2, hφ.map_zero, zero_mul]

end Sys2Proof

namespace Sys2Proof.Machine

/-- Shard sh holds the bytes of `orig` in `mem`, at its address in s. -/
def State.HoldsShard (s : State) (orig : Nat → Nat → Byte) (mem : Memory) (sh : Nat) : Prop :=
  ∀ n < s.operands.len, mem.read (s.operands.shardAddr s.dmem sh + n) = orig sh n

/-- The premises of the recovery guarantee (44_codec.md R181). -/
structure State.Recoverable (s : State) (orig : Nat → Nat → Byte) : Prop where
  runs : s.DecodeRuns
  pos : 1 ≤ s.operands.ck
  sizes : s.operands.ck + s.operands.cm ≤ 256
  cauchy : ∀ i < s.operands.cm, ∀ j < s.operands.ck,
    s.cauchyAt i j = ginv (BitVec.ofNat 8 i ^^^ BitVec.ofNat 8 (s.operands.cm + j))
  apart : (s.footprint .decode).overlaps = false
  encoded : ∀ i < s.operands.cm, ∀ n < s.operands.len, orig (s.operands.ck + i) n =
    gfSum ((List.range s.operands.ck).map fun j => gmul (s.cauchyAt i j) (orig j n))
  present : ∀ sh < s.operands.ck + s.operands.cm, s.operands.params.erased sh = false → s.HoldsShard orig s.dmem sh

section
variable {s : State} {orig : Nat → Nat → Byte} (h : s.Recoverable orig)
include h

theorem State.Recoverable.not_overlaps : (decodeFootprint s.operands s.dmem).overlaps = false :=
  s.footprint_decode_of_runs h.runs ▸ h.apart

theorem State.Recoverable.erasures_le : s.operands.erasedShards.length ≤ s.operands.cm := h.runs.2.1

/-! ### The Cauchy matrix of CONFIG in DMEM, and the survivor matrix -/

theorem State.Recoverable.cauchy_eq : s.operands.cauchy s.dmem = cauchyMatrix s.operands.ck s.operands.cm :=
  List.map_congr_left fun i hi => List.map_congr_left fun j hj => by
    rw [← h.cauchy i (List.mem_range.mp hi) j (List.mem_range.mp hj), State.cauchyAt]
    simp only [Operands.cauchyBase, cauchyOffset, Nat.add_assoc]

theorem State.Recoverable.rowNonzero {i : Nat} (hi : i < s.operands.cm) : s.RowNonzero i :=
  ⟨0, h.pos, by rw [h.cauchy i hi 0 h.pos]; exact ginv_ne_zero (cauchyArgument_ne_zero h.sizes hi h.pos)⟩

theorem State.Recoverable.encoded_cauchyMatrix {n : Nat} (hn : n < s.operands.len) :
    Encoded s.operands.ck s.operands.cm (cauchyMatrix s.operands.ck s.operands.cm) fun sh => orig sh n := by
  intro i hi
  refine (h.encoded i hi n hn).trans (congrArg gfSum (List.map_congr_left fun j hj => ?_))
  rw [h.cauchy i hi j (List.mem_range.mp hj), matrixEntry_cauchyMatrix hi (List.mem_range.mp hj)]

theorem State.Recoverable.tmat_eq : s.operands.tmat s.dmem =
    buildTmpmat s.operands.ck s.operands.survivors (cauchyMatrix s.operands.ck s.operands.cm) :=
  congrArg _ h.cauchy_eq

/-- The survivors' rows of [Identity ; Cauchy] are k different ones (41_coder.md R144). -/
theorem State.Recoverable.exists_inverse : ∃ d, invertMatrix s.operands.ck (s.operands.tmat s.dmem) = some d := by
  rw [h.tmat_eq]
  exact Option.ne_none_iff_exists'.mp (anyKRowsOfTheAugmentedMatrixAreInvertible _ _ _ h.pos h.sizes
    (Operands.length_survivors h.erasures_le) (s.operands.survivors_ascending.imp Nat.ne_of_lt)
    fun _ => Operands.lt_of_mem_survivors).1

theorem State.Recoverable.read_survivor {p n : Nat} (hp : p < s.operands.ck) (hn : n < s.operands.len) :
    s.dmem.read (s.operands.shardAddr s.dmem (s.operands.survivors.getD p 0) + n) =
      orig (s.operands.survivors.getD p 0) n := by
  have hlt : p < s.operands.survivors.length := (Operands.length_survivors h.erasures_le).symm ▸ hp
  have hmem : s.operands.survivors.getD p 0 ∈ s.operands.survivors :=
    List.getD_eq_getElem _ _ hlt ▸ List.getElem_mem hlt
  exact h.present _ (Operands.lt_of_mem_survivors hmem) (Operands.not_erased_of_mem_survivors hmem) n hn

/-- Row i of the inverse over the survivors is data shard i. -/
theorem State.Recoverable.combination_survivors {d : Matrix}
    (hinverse : ProductIsIdentity s.operands.ck d (s.operands.tmat s.dmem)) {i n : Nat} (hi : i < s.operands.ck)
    (hn : n < s.operands.len) : gfSum ((List.range s.operands.ck).map fun p => gmul (matrixEntry d i p)
      (s.dmem.read (s.operands.shardAddr s.dmem (s.operands.survivors.getD p 0) + n))) = orig i n := by
  rw [h.tmat_eq] at hinverse
  rw [← (h.encoded_cauchyMatrix hn).combination_inverse (Operands.length_survivors h.erasures_le)
    (fun _ => Operands.lt_of_mem_survivors) hinverse hi]
  exact congrArg gfSum (List.map_congr_left fun p hp => by rw [h.read_survivor (List.mem_range.mp hp) hn])

/-! ### What DECODE leaves in the shards -/

/-- DECODE succeeds; the erased data shards hold their bytes, and each erased coding shard the combination of the data
shards. -/
theorem State.Recoverable.exec_decode : ∃ mem, exec .decode s = .next (s.doneWith .none mem 0) ∧
    (∀ i < s.operands.ck, s.operands.params.erased i = true → s.HoldsShard orig mem i) ∧
    (∀ i < s.operands.cm, s.operands.params.erased (s.operands.ck + i) = true → ∀ n < s.operands.len,
      s.CodingByteIn mem i n) := by
  by_cases hsome : ∃ i < s.operands.ck, s.operands.params.erased i = true
  · obtain ⟨d, hinvert⟩ := h.exists_inverse
    obtain ⟨-, hinverse⟩ := productIsIdentity_inverse (Operands.isSquareMatrix_tmat h.erasures_le s.dmem) hinvert
    obtain ⟨mem, draws, hexec, -, hexact⟩ := decodeRebuildsTheErasedShards s d h.runs hsome hinvert
    obtain ⟨rfl, -, -, hdata, hcoding⟩ := hexact h.apart
    refine ⟨mem, hexec, fun i hi herased n hn => ?_, fun i hi herased n hn =>
      (hcoding i hi herased n hn).1 (h.rowNonzero hi)⟩
    rw [hdata i hi herased (exists_entry_ne_zero hinverse hi) n hn]
    exact h.combination_survivors hinverse hi hn
  · have hnone : ∀ i < s.operands.ck, s.operands.params.erased i = false := by simpa using hsome
    obtain ⟨-, mem, draws, hexec, -, hexact⟩ := decodeWithoutErasedDataRebuildsCodingOnly s h.runs hnone
    obtain ⟨rfl, hcoding⟩ := hexact h.apart
    exact ⟨mem, hexec, fun i hi herased => absurd ⟨i, hi, herased⟩ hsome,
      fun i hi herased n hn => (hcoding i hi herased n hn).1 (h.rowNonzero hi)⟩

section
variable {mem : Memory}

/-- A shard that is not erased and is read, or shares no byte with FP.W, keeps its bytes. -/
theorem State.Recoverable.holdsShard_of_unwritten (houtside : SameOutside (s.footprint .decode).writes s.dmem mem)
    {sh : Nat} (hsh : sh < s.operands.ck + s.operands.cm) (herased : s.operands.params.erased sh = false)
    (hread : s.operands.readsShard sh = true ∨
      ∀ w ∈ (s.footprint .decode).writes, (s.operands.shardRegion s.dmem sh).meets w = false) :
    s.HoldsShard orig mem sh := by
  intro n hn
  refine (houtside _ ?_).trans (h.present sh hsh herased n hn)
  obtain hread | hmeets := hread
  · rw [s.footprint_decode_of_runs h.runs]
    exact State.readShard_unwritten h.not_overlaps hsh hread hn
  · refine (inRegions_eq_false_iff _ _).mpr fun w hw => Bool.eq_false_iff.mpr fun hin => ?_
    exact (Region.meets_eq_false_iff _ _).mp (hmeets w hw) _ ⟨s.shardByte_in_region sh hn, hin⟩

/-- Data shards that hold their bytes, and a coding shard combined from them. -/
theorem State.Recoverable.holdsShard_of_codingByteIn {i : Nat} (hi : i < s.operands.cm)
    (hdata : ∀ j < s.operands.ck, s.HoldsShard orig mem j) (hcoding : ∀ n < s.operands.len, s.CodingByteIn mem i n) :
    s.HoldsShard orig mem (s.operands.ck + i) := by
  intro n hn
  rw [hcoding n hn, h.encoded i hi n hn]
  exact congrArg gfSum (List.map_congr_left fun j hj => by rw [hdata j (List.mem_range.mp hj) n hn])

end

end

/-- Settles O32: the rows of the survivors are invertible, their inverse gives the erased data shards, and those the erased
coding shards. -/
theorem decodeRecoversTheOriginalShards : Obligations.DecodeRecoversTheOriginalShards := by
  unfold Obligations.DecodeRecoversTheOriginalShards
  intro s orig o hruns hpos hsizes hcauchy hapart hencoded hpresent
  have h : s.Recoverable orig := ⟨hruns, hpos, hsizes, hcauchy, hapart, hencoded, hpresent⟩
  obtain ⟨mem, hexec, hdata, hcoding⟩ := h.exec_decode
  have hkept {sh : Nat} := h.holdsShard_of_unwritten (sh := sh) (noCommandWritesOutsideItsFootprint .decode s _ hexec)
  refine ⟨mem, hexec, fun sh hsh hcase => ?_⟩
  cases herased : s.operands.params.erased sh with
  | false => exact hkept hsh herased (hcase.resolve_left (Bool.eq_false_iff.mp herased))
  | true =>
    obtain hlt | hge := Nat.lt_or_ge sh s.operands.ck
    · exact hdata sh hlt herased
    obtain ⟨i, rfl⟩ := Nat.exists_eq_add_of_le hge
    have hi : i < s.operands.cm := Nat.lt_of_add_lt_add_left hsh
    have hcodingErased := Operands.erasedCoding_isEmpty_eq_false_iff.mpr ⟨i, hi, herased⟩
    refine h.holdsShard_of_codingByteIn hi (fun j hj => ?_) (hcoding i hi herased)
    cases hjerased : s.operands.params.erased j with
    | true => exact hdata j hj hjerased
    | false =>
      exact hkept (by omega) hjerased (.inl ((Operands.readsShard_iff _ j).mpr ⟨hjerased, .inr ⟨hj, hcodingErased⟩⟩))

end Sys2Proof.Machine
end
